-- ==== Sys2Proof/Word.lean ====
section
/-! DEFINITION. The plain types of the HTB's data (spec/10_state.md): the 32-bit command and register word, the byte of a
stream buffer, the 8-bit symbol, the name of a stream, and an entry of the node arena. -/

namespace Sys2Proof

/-- One byte of a stream buffer (20_memory.md R13). -/
abbrev Byte := BitVec 8

/-- A command word, a register of the window, a frequency counter or a node weight: 32 bits (30_encoding.md R90, R8 CNTW). -/
abbrev Word := BitVec 32

/-- A symbol: an 8-bit unsigned value (00_scope.md R8 SYMW, R17). -/
abbrev Symbol := BitVec 8

/-- The two bit streams: P is the payload stream, M the metadata stream (00_scope.md R12). -/
inductive StreamId where
  | P
  | M
deriving DecidableEq, Repr

/-- An entry of the node arena (10_state.md R30). The symbol is meaningful for a leaf and the two 9-bit child indices for an
internal node, so each kind carries only the fields that mean something for it; both carry the 32-bit weight. -/
inductive Node where
  | leaf (sym : Symbol) (weight : Word)
  | internal (weight : Word) (left right : BitVec 9)
deriving DecidableEq, Repr, Inhabited

end Sys2Proof
end

