-- ==== Sys2Proof/Config.lean ====
section
/-! DEFINITION. The parameters of an instance of the HTB (00_scope.md R8, 10_state.md R21), what is fixed for every instance, and
the values the spec leaves open (93_implementation_defined.md U1, U2, U3), each an uninterpreted constant. -/

namespace Sys2Proof.Config

/-- The configuration of an instance: PCAP and MCAP, the only values that may differ between instances (R8, D4). A model takes
it as a parameter (R21): every meaning reads it from the state it is given, and no step changes it (log 2). -/
structure Params where
  /-- PCAP, the payload buffer's size in bytes. -/
  pcap : Nat
  /-- MCAP, the metadata buffer's size in bytes. -/
  mcap : Nat
deriving DecidableEq, Repr

/-- The values are legal (00_scope.md R8): PCAP from 1 to 65536, MCAP from 513 to 65536. -/
structure Params.Legal (c : Params) : Prop where
  pcap_pos : 1 ≤ c.pcap
  pcap_le : c.pcap ≤ 65536
  mcap_ge : 513 ≤ c.mcap
  mcap_le : c.mcap ≤ 65536

/-- CAP(S) of 00_scope.md R12. -/
def Params.cap (c : Params) : StreamId → Nat
  | .P => c.pcap
  | .M => c.mcap

/-- The parameters of this hardware (R8: "this hardware takes" 65536 and 1024, D4). -/
def thisHardware : Params := { pcap := 65536, mcap := 1024 }

/-- NNODE_MAX, the number of entries of the node arena (R8). -/
def nnodeMax : Nat := 511

/-- GMAX, the widest PUT or GET group (R8). -/
def gmax : Nat := 16

/-- The most internal nodes a tree over 256 symbols can have: HUF_MREAD's bound (44_huffman.md R196). -/
def internalMax : Nat := 255

/-- The longest serialized tree, in bits: 255 internal markers and 256 leaf records of 9 bits (44_huffman.md R195). -/
def treeBitsMax : Nat := 2559

/-- The constant that the ID register reads (10_state.md R24). -/
def idWord : Word := 0x48544231#32

/-- FREE VALUE. The byte that buffer S holds at an address that nothing has written since power-on number `epoch`
(R260, R261: unspecified; U1: any value, one byte per address). Assumption log 3. -/
opaque powerOnByte (epoch : Nat) (S : StreamId) (address : Nat) : Byte

/-- FREE VALUE. What a register at this offset reads while BUSY = 1 (10_state.md R36, U3: any value, the same at each read
until the state changes, which `draw` counts). Assumption log 5. -/
opaque busyRead (draw : Nat) (offset : BitVec 8) : Word

/-- FREE VALUE. An arena entry that no build or load has filled (10_state.md R30, U2: any value). No command reads one in a
state that meets the spec's invariants (R37). Assumption log 4. -/
opaque unspecifiedNode (draw : Nat) (index : Nat) : Node

end Sys2Proof.Config
end

