-- ==== Sys2Proof/Syntax.lean ====
section
/-! DEFINITION. The command set: one constructor for each of the 34 rows of spec/opcode_table.json (30_encoding.md R96), with
the operand fields of the row's format at their encoded widths (R92, R93). -/

namespace Sys2Proof

/-- A command of the HTB (30_encoding.md R96). Operand order is that of the assembler syntax (R100). -/
inductive Instr where
  -- control (40_control.md)
  | nop
  | sreset
  | clrErr
  -- payload stream P (41_bitstream.md)
  | pClr
  | pRewind
  | pSetlen (b : BitVec 21) (p : BitVec 3)
  | pPut (n : BitVec 5) (v : BitVec 16)
  | pGet (n : BitVec 5)
  | pWr (a : BitVec 16) (d : Byte)
  | pRd (a : BitVec 16)
  -- metadata stream M (41_bitstream.md)
  | mClr
  | mRewind
  | mSetlen (b : BitVec 21) (p : BitVec 3)
  | mPut (n : BitVec 5) (v : BitVec 16)
  | mGet (n : BitVec 5)
  | mWr (a : BitVec 16) (d : Byte)
  | mRd (a : BitVec 16)
  -- symbol profiler (42_profiler.md)
  | profClr
  | profAdd (s : Symbol) (k : BitVec 16)
  | freqRd (s : Symbol)
  -- fixed-length codec (43_fixed_length.md)
  | flBuild
  | flDec
  | flMwrite
  | flMread
  -- Huffman codec (44_huffman.md)
  | hufBuild
  | hufDec
  | hufMwrite
  | hufMread
  | nodeRd (i : BitVec 9)
  | nodeWt (i : BitVec 9)
  -- code lookup and encode (45_code_lookup.md)
  | enc (s : Symbol)
  | codeLen (s : Symbol)
  | codeRd (s : Symbol) (c : BitVec 3)
  | wsumCalc
deriving DecidableEq, Repr

end Sys2Proof
end

