-- ==== Sys2Proof/WellFormed.lean ====
section
/-! DEFINITION. The range constraints that a command's fields must meet beyond their widths (30_encoding.md R94). -/

namespace Sys2Proof

/-- Formats G and Q: 1 ≤ n ≤ 16 (30_encoding.md R94). -/
def groupWidthOk (n : BitVec 5) : Bool :=
  decide (1 ≤ n.toNat ∧ n.toNat ≤ Config.gmax)

/-- Format G: every bit of v at position n or above is 0, that is v < 2^n (30_encoding.md R94). -/
def groupValueOk (n : BitVec 5) (v : BitVec 16) : Bool :=
  decide (v.toNat < 2 ^ n.toNat)

/-- An instruction that some legal command word stands for (30_encoding.md R94, R97): only formats G and Q have a range
constraint. -/
def Instr.wf : Instr → Bool
  | .nop => true
  | .sreset => true
  | .clrErr => true
  | .pClr => true
  | .pRewind => true
  | .pSetlen _ _ => true
  | .pPut n v => groupWidthOk n && groupValueOk n v
  | .pGet n => groupWidthOk n
  | .pWr _ _ => true
  | .pRd _ => true
  | .mClr => true
  | .mRewind => true
  | .mSetlen _ _ => true
  | .mPut n v => groupWidthOk n && groupValueOk n v
  | .mGet n => groupWidthOk n
  | .mWr _ _ => true
  | .mRd _ => true
  | .profClr => true
  | .profAdd _ _ => true
  | .freqRd _ => true
  | .flBuild => true
  | .flDec => true
  | .flMwrite => true
  | .flMread => true
  | .hufBuild => true
  | .hufDec => true
  | .hufMwrite => true
  | .hufMread => true
  | .nodeRd _ => true
  | .nodeWt _ => true
  | .enc _ => true
  | .codeLen _ => true
  | .codeRd _ _ => true
  | .wsumCalc => true

end Sys2Proof
end

