-- ==== Sys2Proof/Decode.lean ====
section
/-! DEFINITION. Decoding and encoding of command words (30_encoding.md R90 to R98): the field extraction of the ten formats, the
decoder, total on every 32-bit word, the encoder, the table of R96 as data, and the host's entry decodeTableWord. -/

namespace Sys2Proof

/-- Why a word is no command (30_encoding.md R97 (a), (b) and (c)). -/
inductive Reject where
  /-- R97 (a): the opcode is not in R96. -/
  | unassignedOpcode
  /-- R97 (b): a bit that the format marks 0 is 1. -/
  | reservedBits
  /-- R97 (c): a G or Q word with n = 0 or n > 16. -/
  | groupWidth
  /-- R97 (c): a G word with v ≥ 2^n. -/
  | groupValue
deriving DecidableEq, Repr

/-! ## Fields (R93) -/

/-- Bits 31:24, the opcode (R91). -/
def opcodeOf (w : Word) : BitVec 8 := w.extractLsb' 24 8
/-- s = w[7:0]. -/
def fieldS (w : Word) : Symbol := w.extractLsb' 0 8
/-- k = w[23:8]. -/
def fieldK (w : Word) : BitVec 16 := w.extractLsb' 8 16
/-- c = w[10:8]. -/
def fieldC (w : Word) : BitVec 3 := w.extractLsb' 8 3
/-- i = w[8:0]. -/
def fieldI (w : Word) : BitVec 9 := w.extractLsb' 0 9
/-- n = w[20:16]. -/
def fieldN (w : Word) : BitVec 5 := w.extractLsb' 16 5
/-- v = w[15:0]. -/
def fieldV (w : Word) : BitVec 16 := w.extractLsb' 0 16
/-- p = w[23:21]. -/
def fieldP (w : Word) : BitVec 3 := w.extractLsb' 21 3
/-- b = w[20:0]. -/
def fieldB (w : Word) : BitVec 21 := w.extractLsb' 0 21
/-- a = w[23:8]. -/
def fieldA (w : Word) : BitVec 16 := w.extractLsb' 8 16
/-- d = w[7:0]. -/
def fieldD (w : Word) : Byte := w.extractLsb' 0 8

/-! ## Reading the operand of each format (R92, R94) -/

/-- Format N: bits 23:0 are 0. -/
def readN (w : Word) (i : Instr) : Except Reject Instr :=
  if w.extractLsb' 0 24 = 0 then .ok i else .error .reservedBits
/-- Format S: bits 23:8 are 0. -/
def readS (w : Word) (f : Symbol → Instr) : Except Reject Instr :=
  if w.extractLsb' 8 16 = 0 then .ok (f (fieldS w)) else .error .reservedBits
/-- Format SK: no reserved bit. -/
def readSK (w : Word) (f : Symbol → BitVec 16 → Instr) : Except Reject Instr :=
  .ok (f (fieldS w) (fieldK w))
/-- Format SC: bits 23:11 are 0. -/
def readSC (w : Word) (f : Symbol → BitVec 3 → Instr) : Except Reject Instr :=
  if w.extractLsb' 11 13 = 0 then .ok (f (fieldS w) (fieldC w)) else .error .reservedBits
/-- Format I: bits 23:9 are 0. -/
def readI (w : Word) (f : BitVec 9 → Instr) : Except Reject Instr :=
  if w.extractLsb' 9 15 = 0 then .ok (f (fieldI w)) else .error .reservedBits
/-- Format G: bits 23:21 are 0, 1 ≤ n ≤ 16 and v < 2^n. -/
def readG (w : Word) (f : BitVec 5 → BitVec 16 → Instr) : Except Reject Instr :=
  if w.extractLsb' 21 3 ≠ 0 then .error .reservedBits
  else if groupWidthOk (fieldN w) = false then .error .groupWidth
  else if groupValueOk (fieldN w) (fieldV w) = false then .error .groupValue
  else .ok (f (fieldN w) (fieldV w))
/-- Format Q: bits 23:21 and 15:0 are 0, 1 ≤ n ≤ 16. -/
def readQ (w : Word) (f : BitVec 5 → Instr) : Except Reject Instr :=
  if w.extractLsb' 21 3 ≠ 0 ∨ w.extractLsb' 0 16 ≠ 0 then .error .reservedBits
  else if groupWidthOk (fieldN w) = false then .error .groupWidth
  else .ok (f (fieldN w))
/-- Format L: no reserved bit. -/
def readL (w : Word) (f : BitVec 21 → BitVec 3 → Instr) : Except Reject Instr :=
  .ok (f (fieldB w) (fieldP w))
/-- Format AW: no reserved bit. -/
def readAW (w : Word) (f : BitVec 16 → Byte → Instr) : Except Reject Instr :=
  .ok (f (fieldA w) (fieldD w))
/-- Format AR: bits 7:0 are 0. -/
def readAR (w : Word) (f : BitVec 16 → Instr) : Except Reject Instr :=
  if w.extractLsb' 0 8 = 0 then .ok (f (fieldA w)) else .error .reservedBits

/-- The decoder: total on every word, each word either exactly one command or rejected by name (30_encoding.md R97, R98). -/
def decode (w : Word) : Except Reject Instr :=
  match opcodeOf w with
  | 0x00#8 => readN w .nop
  | 0x01#8 => readN w .sreset
  | 0x02#8 => readN w .clrErr
  | 0x10#8 => readN w .pClr
  | 0x11#8 => readN w .pRewind
  | 0x12#8 => readL w .pSetlen
  | 0x13#8 => readG w .pPut
  | 0x14#8 => readQ w .pGet
  | 0x15#8 => readAW w .pWr
  | 0x16#8 => readAR w .pRd
  | 0x18#8 => readN w .mClr
  | 0x19#8 => readN w .mRewind
  | 0x1A#8 => readL w .mSetlen
  | 0x1B#8 => readG w .mPut
  | 0x1C#8 => readQ w .mGet
  | 0x1D#8 => readAW w .mWr
  | 0x1E#8 => readAR w .mRd
  | 0x20#8 => readN w .profClr
  | 0x21#8 => readSK w .profAdd
  | 0x22#8 => readS w .freqRd
  | 0x30#8 => readN w .flBuild
  | 0x31#8 => readN w .flDec
  | 0x32#8 => readN w .flMwrite
  | 0x33#8 => readN w .flMread
  | 0x40#8 => readN w .hufBuild
  | 0x41#8 => readN w .hufDec
  | 0x42#8 => readN w .hufMwrite
  | 0x43#8 => readN w .hufMread
  | 0x44#8 => readI w .nodeRd
  | 0x45#8 => readI w .nodeWt
  | 0x50#8 => readS w .enc
  | 0x51#8 => readS w .codeLen
  | 0x52#8 => readSC w .codeRd
  | 0x53#8 => readN w .wsumCalc
  | _ => .error .unassignedOpcode

/-! ## Encoding (R92) -/

/-- Format N: the opcode in bits 31:24, zeros below. -/
def wordN (op : BitVec 8) : Word := op.setWidth 32 <<< 24
/-- Format S. -/
def wordS (op : BitVec 8) (s : Symbol) : Word := wordN op ||| s.setWidth 32
/-- Format SK. -/
def wordSK (op : BitVec 8) (k : BitVec 16) (s : Symbol) : Word := wordN op ||| k.setWidth 32 <<< 8 ||| s.setWidth 32
/-- Format SC. -/
def wordSC (op : BitVec 8) (c : BitVec 3) (s : Symbol) : Word := wordN op ||| c.setWidth 32 <<< 8 ||| s.setWidth 32
/-- Format I. -/
def wordI (op : BitVec 8) (i : BitVec 9) : Word := wordN op ||| i.setWidth 32
/-- Format G. -/
def wordG (op : BitVec 8) (n : BitVec 5) (v : BitVec 16) : Word := wordN op ||| n.setWidth 32 <<< 16 ||| v.setWidth 32
/-- Format Q. -/
def wordQ (op : BitVec 8) (n : BitVec 5) : Word := wordN op ||| n.setWidth 32 <<< 16
/-- Format L. -/
def wordL (op : BitVec 8) (p : BitVec 3) (b : BitVec 21) : Word := wordN op ||| p.setWidth 32 <<< 21 ||| b.setWidth 32
/-- Format AW. -/
def wordAW (op : BitVec 8) (a : BitVec 16) (d : Byte) : Word := wordN op ||| a.setWidth 32 <<< 8 ||| d.setWidth 32
/-- Format AR. -/
def wordAR (op : BitVec 8) (a : BitVec 16) : Word := wordN op ||| a.setWidth 32 <<< 8

/-- The word of a command (30_encoding.md R92, R96). -/
def encode : Instr → Word
  | .nop => wordN 0x00#8
  | .sreset => wordN 0x01#8
  | .clrErr => wordN 0x02#8
  | .pClr => wordN 0x10#8
  | .pRewind => wordN 0x11#8
  | .pSetlen b p => wordL 0x12#8 p b
  | .pPut n v => wordG 0x13#8 n v
  | .pGet n => wordQ 0x14#8 n
  | .pWr a d => wordAW 0x15#8 a d
  | .pRd a => wordAR 0x16#8 a
  | .mClr => wordN 0x18#8
  | .mRewind => wordN 0x19#8
  | .mSetlen b p => wordL 0x1A#8 p b
  | .mPut n v => wordG 0x1B#8 n v
  | .mGet n => wordQ 0x1C#8 n
  | .mWr a d => wordAW 0x1D#8 a d
  | .mRd a => wordAR 0x1E#8 a
  | .profClr => wordN 0x20#8
  | .profAdd s k => wordSK 0x21#8 k s
  | .freqRd s => wordS 0x22#8 s
  | .flBuild => wordN 0x30#8
  | .flDec => wordN 0x31#8
  | .flMwrite => wordN 0x32#8
  | .flMread => wordN 0x33#8
  | .hufBuild => wordN 0x40#8
  | .hufDec => wordN 0x41#8
  | .hufMwrite => wordN 0x42#8
  | .hufMread => wordN 0x43#8
  | .nodeRd i => wordI 0x44#8 i
  | .nodeWt i => wordI 0x45#8 i
  | .enc s => wordS 0x50#8 s
  | .codeLen s => wordS 0x51#8 s
  | .codeRd s c => wordSC 0x52#8 c s
  | .wsumCalc => wordN 0x53#8

/-- The mnemonic of a command (30_encoding.md R96). -/
def Instr.mnemonic : Instr → String
  | .nop => "NOP"
  | .sreset => "SRESET"
  | .clrErr => "CLR_ERR"
  | .pClr => "P_CLR"
  | .pRewind => "P_REWIND"
  | .pSetlen _ _ => "P_SETLEN"
  | .pPut _ _ => "P_PUT"
  | .pGet _ => "P_GET"
  | .pWr _ _ => "P_WR"
  | .pRd _ => "P_RD"
  | .mClr => "M_CLR"
  | .mRewind => "M_REWIND"
  | .mSetlen _ _ => "M_SETLEN"
  | .mPut _ _ => "M_PUT"
  | .mGet _ => "M_GET"
  | .mWr _ _ => "M_WR"
  | .mRd _ => "M_RD"
  | .profClr => "PROF_CLR"
  | .profAdd _ _ => "PROF_ADD"
  | .freqRd _ => "FREQ_RD"
  | .flBuild => "FL_BUILD"
  | .flDec => "FL_DEC"
  | .flMwrite => "FL_MWRITE"
  | .flMread => "FL_MREAD"
  | .hufBuild => "HUF_BUILD"
  | .hufDec => "HUF_DEC"
  | .hufMwrite => "HUF_MWRITE"
  | .hufMread => "HUF_MREAD"
  | .nodeRd _ => "NODE_RD"
  | .nodeWt _ => "NODE_WT"
  | .enc _ => "ENC"
  | .codeLen _ => "CODE_LEN"
  | .codeRd _ _ => "CODE_RD"
  | .wsumCalc => "WSUM_CALC"

/-- The operands of a command in the order of the assembler syntax (R100). -/
def Instr.operands : Instr → List Nat
  | .nop => []
  | .sreset => []
  | .clrErr => []
  | .pClr => []
  | .pRewind => []
  | .pSetlen b p => [b.toNat, p.toNat]
  | .pPut n v => [n.toNat, v.toNat]
  | .pGet n => [n.toNat]
  | .pWr a d => [a.toNat, d.toNat]
  | .pRd a => [a.toNat]
  | .mClr => []
  | .mRewind => []
  | .mSetlen b p => [b.toNat, p.toNat]
  | .mPut n v => [n.toNat, v.toNat]
  | .mGet n => [n.toNat]
  | .mWr a d => [a.toNat, d.toNat]
  | .mRd a => [a.toNat]
  | .profClr => []
  | .profAdd s k => [s.toNat, k.toNat]
  | .freqRd s => [s.toNat]
  | .flBuild => []
  | .flDec => []
  | .flMwrite => []
  | .flMread => []
  | .hufBuild => []
  | .hufDec => []
  | .hufMwrite => []
  | .hufMread => []
  | .nodeRd i => [i.toNat]
  | .nodeWt i => [i.toNat]
  | .enc s => [s.toNat]
  | .codeLen s => [s.toNat]
  | .codeRd s c => [s.toNat, c.toNat]
  | .wsumCalc => []

/-! ## The table of R96 as data -/

/-- The ten formats of 30_encoding.md R92. -/
inductive Format where
  | N | S | SK | SC | I | G | Q | L | AW | AR
deriving DecidableEq, Repr

/-- A row of the command list (30_encoding.md R96). -/
structure Row where
  mnemonic : String
  format : Format
  pattern : Word
  mask : Word
deriving DecidableEq, Repr

/-- 40_control.md's rows of 30_encoding.md R96. -/
def controlRows : List Row :=
  [ ⟨"NOP", .N, 0x00000000#32, 0xFFFFFFFF#32⟩,
    ⟨"SRESET", .N, 0x01000000#32, 0xFFFFFFFF#32⟩,
    ⟨"CLR_ERR", .N, 0x02000000#32, 0xFFFFFFFF#32⟩ ]

/-- 41_bitstream.md's rows of 30_encoding.md R96. -/
def streamRows : List Row :=
  [ ⟨"P_CLR", .N, 0x10000000#32, 0xFFFFFFFF#32⟩,
    ⟨"P_REWIND", .N, 0x11000000#32, 0xFFFFFFFF#32⟩,
    ⟨"P_SETLEN", .L, 0x12000000#32, 0xFF000000#32⟩,
    ⟨"P_PUT", .G, 0x13000000#32, 0xFFE00000#32⟩,
    ⟨"P_GET", .Q, 0x14000000#32, 0xFFE0FFFF#32⟩,
    ⟨"P_WR", .AW, 0x15000000#32, 0xFF000000#32⟩,
    ⟨"P_RD", .AR, 0x16000000#32, 0xFF0000FF#32⟩,
    ⟨"M_CLR", .N, 0x18000000#32, 0xFFFFFFFF#32⟩,
    ⟨"M_REWIND", .N, 0x19000000#32, 0xFFFFFFFF#32⟩,
    ⟨"M_SETLEN", .L, 0x1A000000#32, 0xFF000000#32⟩,
    ⟨"M_PUT", .G, 0x1B000000#32, 0xFFE00000#32⟩,
    ⟨"M_GET", .Q, 0x1C000000#32, 0xFFE0FFFF#32⟩,
    ⟨"M_WR", .AW, 0x1D000000#32, 0xFF000000#32⟩,
    ⟨"M_RD", .AR, 0x1E000000#32, 0xFF0000FF#32⟩ ]

/-- 42_profiler.md's rows of 30_encoding.md R96. -/
def profilerRows : List Row :=
  [ ⟨"PROF_CLR", .N, 0x20000000#32, 0xFFFFFFFF#32⟩,
    ⟨"PROF_ADD", .SK, 0x21000000#32, 0xFF000000#32⟩,
    ⟨"FREQ_RD", .S, 0x22000000#32, 0xFFFFFF00#32⟩ ]

/-- 43_fixed_length.md's rows of 30_encoding.md R96. -/
def fixedRows : List Row :=
  [ ⟨"FL_BUILD", .N, 0x30000000#32, 0xFFFFFFFF#32⟩,
    ⟨"FL_DEC", .N, 0x31000000#32, 0xFFFFFFFF#32⟩,
    ⟨"FL_MWRITE", .N, 0x32000000#32, 0xFFFFFFFF#32⟩,
    ⟨"FL_MREAD", .N, 0x33000000#32, 0xFFFFFFFF#32⟩ ]

/-- 44_huffman.md's rows of 30_encoding.md R96. -/
def huffmanRows : List Row :=
  [ ⟨"HUF_BUILD", .N, 0x40000000#32, 0xFFFFFFFF#32⟩,
    ⟨"HUF_DEC", .N, 0x41000000#32, 0xFFFFFFFF#32⟩,
    ⟨"HUF_MWRITE", .N, 0x42000000#32, 0xFFFFFFFF#32⟩,
    ⟨"HUF_MREAD", .N, 0x43000000#32, 0xFFFFFFFF#32⟩,
    ⟨"NODE_RD", .I, 0x44000000#32, 0xFFFFFE00#32⟩,
    ⟨"NODE_WT", .I, 0x45000000#32, 0xFFFFFE00#32⟩ ]

/-- 45_code_lookup.md's rows of 30_encoding.md R96. -/
def lookupRows : List Row :=
  [ ⟨"ENC", .S, 0x50000000#32, 0xFFFFFF00#32⟩,
    ⟨"CODE_LEN", .S, 0x51000000#32, 0xFFFFFF00#32⟩,
    ⟨"CODE_RD", .SC, 0x52000000#32, 0xFFFFF800#32⟩,
    ⟨"WSUM_CALC", .N, 0x53000000#32, 0xFFFFFFFF#32⟩ ]

/-- The complete command list, as 30_encoding.md R96 writes it. -/
def opcodeTable : List Row :=
  controlRows ++ streamRows ++ profilerRows ++ fixedRows ++ huffmanRows ++ lookupRows

/-- `(w & r.mask) = r.match` of 30_encoding.md R98. -/
def Row.matches (r : Row) (w : Word) : Bool := decide (w &&& r.mask = r.pattern)

/-- The range checks of 30_encoding.md R98 for a row's format. -/
def Row.inRange (r : Row) (w : Word) : Bool :=
  match r.format with
  | .G => groupWidthOk (fieldN w) && groupValueOk (fieldN w) (fieldV w)
  | .Q => groupWidthOk (fieldN w)
  | _ => true

/-- "fields of w per rule R93", in the order of the assembler syntax (30_encoding.md R93, R100). -/
def Row.operands (r : Row) (w : Word) : List Nat :=
  match r.format with
  | .N => []
  | .S => [(fieldS w).toNat]
  | .SK => [(fieldS w).toNat, (fieldK w).toNat]
  | .SC => [(fieldS w).toNat, (fieldC w).toNat]
  | .I => [(fieldI w).toNat]
  | .G => [(fieldN w).toNat, (fieldV w).toNat]
  | .Q => [(fieldN w).toNat]
  | .L => [(fieldB w).toNat, (fieldP w).toNat]
  | .AW => [(fieldA w).toNat, (fieldD w).toNat]
  | .AR => [(fieldA w).toNat]

/-- The decoder of 30_encoding.md R98 read literally: the first row that matches gives the mnemonic and the fields, unless a
range check fails. -/
def decodeByTable (w : Word) : Option (String × List Nat) :=
  match opcodeTable.find? (fun r => r.matches w) with
  | some r => if r.inRange w then some (r.mnemonic, r.operands w) else none
  | none => none

/-- The host's entry: the instruction that the decoder reads from a table word. A command is one 32-bit word written to CMD
(R90), whose bit 0 is the table's bit 0. -/
def decodeTableWord (nbits w : Nat) : Option Instr :=
  (decode (BitVec.ofNat 32 (w % 2 ^ nbits))).toOption

end Sys2Proof
end

