-- ==== Sys2Proof/Machine/State.lean ====
section
/-! DEFINITION. The state of the HTB (spec/10_state.md) as plain data, the reasons a step can stop, and the state after
power-on reset (70_reset_and_hazards.md R260). -/

namespace Sys2Proof.Machine

/-- A stream buffer's written bytes: (address, byte) pairs at strictly rising addresses. An address that is not listed has not
been written since power-on and holds no known byte: what it reads as is the free value Config.powerOnByte (log 3). -/
abbrev Memory := List Host.Cell

/-- The canonical form: addresses strictly rising. A listed byte is never what an unlisted address holds, since that is no
written byte at all. -/
def Memory.wf : Memory → Bool
  | [] => true
  | (a, _) :: rest => rest.all (fun c => decide (a < c.1)) && Memory.wf rest

/-- A stream: its buffer, its write count WBITS and its read cursor RPOS, natural numbers (10_state.md R33; log 15). -/
structure BitStream where
  buf : Memory
  wbits : Nat
  rpos : Nat
deriving DecidableEq, Repr

/-- STATUS[5:4] (10_state.md R25, R26): the value 3 is never held. -/
inductive Mode where
  | none
  | fixed
  | huff
deriving DecidableEq, Repr

/-- A table with one entry for each 8-bit symbol or code value (10_state.md R27, R28, R29). -/
abbrev Table (α : Type) := Vector α 256

/-- What reaches the block from outside (10_state.md R20, 20_memory.md R71, R78, 70_reset_and_hazards.md R261). The host's
accesses give the access width in bits and the byte offset in the register window. -/
inductive HostEvent where
  /-- The host writes the register at this offset; offset 0 is CMD. -/
  | write (bits : Nat) (offset : BitVec 8) (data : Word)
  /-- The host reads the register at this offset. -/
  | read (bits : Nat) (offset : BitVec 8)
  /-- A running command completes before the next event: the host polls STATUS until BUSY = 0 (20_memory.md R78, R281), or
  time enough has passed (R280, U5; log 6). -/
  | awaitIdle
  /-- The platform asserts power-on reset (70_reset_and_hazards.md R261). -/
  | powerOn
deriving DecidableEq, Repr

/-- Everything the spec gives the machine, after the instance's parameters, and four fields of the model's own at the end. Each
register has the width of its "bits used" (10_state.md R24); INVENTORY.md names each field's rule and reset value. -/
structure State where
  /-- The instance's parameters PCAP and MCAP. They are no state of the block (R21) but the parameter that a model takes; they
  stand here because the step takes one argument, and no step changes them (log 2). -/
  config : Config.Params
  /-- The latched command word (R34); STATUS.BUSY is 1 exactly while there is one (R25, R36; log 1). -/
  latched : Option Word
  /-- STATUS.OVR (R25). -/
  ovr : Bool
  /-- STATUS.MODE (R25, R26). -/
  mode : Mode
  /-- RESULT (R24). -/
  result : Word
  /-- ERRCODE (R24, 60_exceptions.md R231). -/
  errcode : BitVec 8
  /-- ERRCMD (R24). -/
  errcmd : Word
  /-- ERRPOS (R24). -/
  errpos : BitVec 20
  /-- ALPHA (R24). -/
  alpha : BitVec 9
  /-- WIDTH (R24). -/
  width : BitVec 4
  /-- ROOT (R24). -/
  root : BitVec 9
  /-- NNODES (R24). -/
  nnodes : BitVec 10
  /-- MAXLEN (R24). -/
  maxlen : BitVec 8
  /-- FREQ (R27). -/
  freq : Table Word
  /-- TOTAL (R24, R27). -/
  total : Word
  /-- CLEN (R28). -/
  clen : Table (BitVec 8)
  /-- CVAL (R28). -/
  cval : Table (BitVec 255)
  /-- RVALID (R29). -/
  rvalid : Table Bool
  /-- RSYM (R29). -/
  rsym : Table Symbol
  /-- NODE (R30): the entries that a build or load has filled, from index 0; every other entry of the 511 is unspecified. -/
  arena : List Node
  /-- WSUM (R31). -/
  wsum : BitVec 64
  /-- The payload stream P (R33). -/
  p : BitStream
  /-- The metadata stream M (R33). -/
  m : BitStream
  /-- The model's own: what the host and the platform will do, first event first (log 6). -/
  host : List HostEvent
  /-- The model's own: the values the host's register reads have returned, newest first (R282, log 6). -/
  reads : List Word
  /-- The model's own: counts the draws of the free values Config.busyRead and Config.unspecifiedNode (log 5). -/
  draws : Nat
  /-- The model's own: counts the power-on resets, for the free value Config.powerOnByte (log 3). -/
  powerOns : Nat
deriving DecidableEq, Repr

/-- Why the machine stops. -/
inductive Fault where
  /-- Raised by HUF_MWRITE when the arena is no tree (a cycle, a missing entry, or a serialized form longer than any tree's),
  which 10_state.md R30 rules out in every state the block reaches. Safe: the spec gives such a state no behaviour, and the model
  stops. Assumption log 7. -/
  | arenaNotATree
deriving DecidableEq, Repr

/-- Why a step has no meaning. -/
inductive Refusal where
  /-- Raised by exec's arm of an instruction that has no meaning yet. Safe: the model stops. -/
  | notModelled (mnemonic : String)
  /-- Raised by the host port for a host access that is not 32 bits wide or not at a multiple of 4 (20_memory.md R71:
  "is not defined by this spec: a model refuses it"; U4). Safe: the model stops. -/
  | undefinedHostAccess
deriving DecidableEq, Repr

/-- The outcome of an instruction or a step. -/
abbrev Result := Host.Outcome State Fault Refusal

/-- A stream after power-on reset: both counts 0, no byte written (R33, R260). -/
def BitStream.reset : BitStream := { buf := [], wbits := 0, rpos := 0 }

/-- The state of an instance with these parameters after power-on reset (70_reset_and_hazards.md R260). Nothing is waiting at
the host port. -/
def State.resetOf (c : Config.Params) : State where
  config := c
  latched := none
  ovr := false
  mode := .none
  result := 0#32
  errcode := 0#8
  errcmd := 0#32
  errpos := 0#20
  alpha := 0#9
  width := 0#4
  root := 0#9
  nnodes := 0#10
  maxlen := 0#8
  freq := Vector.replicate 256 0#32
  total := 0#32
  clen := Vector.replicate 256 0#8
  cval := Vector.replicate 256 0#255
  rvalid := Vector.replicate 256 false
  rsym := Vector.replicate 256 0#8
  arena := []
  wsum := 0#64
  p := BitStream.reset
  m := BitStream.reset
  host := []
  reads := []
  draws := 0
  powerOns := 0

/-- This hardware after power-on reset (70_reset_and_hazards.md R260, 00_scope.md R8). -/
def State.reset : State := State.resetOf Config.thisHardware

end Sys2Proof.Machine
end

