-- ==== Sys2Proof/Machine/Operands.lean ====
section
/-! DEFINITION. Operand assembly and the plain functions of values that the command rules use: bits and numbers
(20_memory.md R60 to R67), the computed operand of SETLEN (41_bitstream.md R133), the width function (00_scope.md R9), the
chunk of a code value (45_code_lookup.md R222), table access by symbol, and the alphabet and ranks of a frequency table
(43_fixed_length.md R170). -/

namespace Sys2Proof.Machine

/-! ## Bits and numbers -/

/-- The number whose binary digits are these bits, the first bit most significant (20_memory.md R61, R65). -/
def bitsToNat (bits : List Bool) : Nat :=
  bits.foldl (fun acc b => 2 * acc + b.toNat) 0

/-- The n low bits of v, the most significant first: v[n-1], ..., v[0] (20_memory.md R61, R67). -/
def natToBits (n v : Nat) : List Bool :=
  (List.range n).map fun j => v.testBit (n - 1 - j)

/-- The stream length that P_SETLEN and M_SETLEN set, `8·b - p` bits (30_encoding.md R93, 41_bitstream.md R133). -/
def setlenBits (b : BitVec 21) (p : BitVec 3) : Nat := 8 * b.toNat - p.toNat

/-- ceil(k/8), the bytes of a stream of k bits (20_memory.md R68). -/
def bytesOf (k : Nat) : Nat := (k + 7) / 8

/-- (8 - k mod 8) mod 8, the pad count of a stream of k bits (20_memory.md R68). -/
def padOf (k : Nat) : Nat := (8 - k % 8) % 8

/-- width(n): 1 when n = 1, otherwise the number of significant bits of n - 1 (00_scope.md R9, 43_fixed_length.md R170 (a)). -/
def codeWidth (n : Nat) : Nat := if n ≤ 1 then 1 else Nat.log2 (n - 1) + 1

/-- CVAL[s][32·c + 31 : 32·c], the bits above bit 254 reading 0 (45_code_lookup.md R222). -/
def codeChunk (v : BitVec 255) (c : BitVec 3) : Word := v.extractLsb' (32 * c.toNat) 32

/-! ## Tables indexed by an 8-bit value -/

/-- The entry of a table for a symbol or code value. -/
def Table.at {α : Type} (t : Table α) (a : BitVec 8) : α := t[a.toNat]'a.isLt

/-- The table with one entry replaced. -/
def Table.put {α : Type} (t : Table α) (a : BitVec 8) (x : α) : Table α := t.set a.toNat x a.isLt

/-- The table whose entry for a is f a. -/
def Table.ofFun {α : Type} (f : BitVec 8 → α) : Table α := Vector.ofFn fun i => f (BitVec.ofNat 8 i.val)

/-- The 256 symbols, or code values, in ascending order. -/
def allSymbols : List Symbol := (List.range 256).map (BitVec.ofNat 8)

/-- The sum over all symbols of a natural number (10_state.md R27, 45_code_lookup.md R223). -/
def sumOver (f : Symbol → Nat) : Nat := (allSymbols.map f).sum

/-- The greatest entry of a table of lengths (44_huffman.md R191: "max over s of CLEN[s]"). -/
def maxEntry (t : Table (BitVec 8)) : BitVec 8 :=
  BitVec.ofNat 8 (allSymbols.foldl (fun m a => max m (Table.at t a).toNat) 0)

/-! ## The alphabet and the ranks of a frequency table -/

/-- A = { s : FREQ[s] > 0 }, in ascending ordinal (43_fixed_length.md R170, 44_huffman.md R191). -/
def alphabet (freq : Table Word) : List Symbol := allSymbols.filter fun a => decide (Table.at freq a ≠ 0#32)

/-- t comes before s in the order of 43_fixed_length.md R170 (b): greater frequency, or equal frequency and smaller ordinal. -/
def ranksBefore (freq : Table Word) (t s : Symbol) : Bool :=
  decide ((Table.at freq s).toNat < (Table.at freq t).toNat ∨ (Table.at freq t = Table.at freq s ∧ t.toNat < s.toNat))

/-- rank(s) (43_fixed_length.md R170 (b)). -/
def rank (freq : Table Word) (s : Symbol) : Nat := ((alphabet freq).filter fun t => ranksBefore freq t s).length

end Sys2Proof.Machine
end

