-- ==== Sys2Proof/Machine/Flags.lean ====
section
/-! DEFINITION. STATUS (10_state.md R25): its fields, those that are derived, and the word that a host read returns. No other
flag exists: no command sets a carry, zero or overflow flag (R26). -/

namespace Sys2Proof.Machine

/-- STATUS.BUSY: a command is latched and has not completed (10_state.md R25, R36). -/
def State.busy (s : State) : Bool := s.latched.isSome

/-- STATUS.ERR, which reads 1 exactly when ERRCODE ≠ 0 (10_state.md R25): the lock of 60_exceptions.md R235. -/
def State.err (s : State) : Bool := decide (s.errcode ≠ 0#8)

/-- The number that STATUS[5:4] reads for a mode (10_state.md R25). -/
def Mode.code : Mode → BitVec 2
  | .none => 0#2
  | .fixed => 1#2
  | .huff => 2#2

/-- STATUS as a 32-bit word while BUSY = 0; every bit outside the four fields reads 0 (10_state.md R25). -/
def State.statusWord (s : State) : Word :=
  (BitVec.ofBool s.busy).setWidth 32 ||| (BitVec.ofBool s.err).setWidth 32 <<< 1 |||
    (BitVec.ofBool s.ovr).setWidth 32 <<< 2 ||| s.mode.code.setWidth 32 <<< 4

/-- The bits of STATUS that are unspecified while BUSY = 1: ERR and MODE (10_state.md R36, D22). -/
def statusFreeMask : Word := 0x00000032#32

/-- STATUS while BUSY = 1: BUSY = 1, the current OVR, and free values in ERR and MODE (10_state.md R36; log 5). -/
def State.statusWordBusy (s : State) : Word :=
  0x00000001#32 ||| (BitVec.ofBool s.ovr).setWidth 32 <<< 2 ||| (Config.busyRead s.draws 0x04#8 &&& statusFreeMask)

end Sys2Proof.Machine
end

