-- ==== Sys2Proof/Machine/Ops.lean ====
section
/-! DEFINITION. The operations that the command meanings share: a buffer byte read and written (00_scope.md R13), the stream
primitives (20_memory.md R64 to R67), the end of a command with a value, the error entry (60_exceptions.md R234) and the
return from it (R236), the reset that SRESET performs (70_reset_and_hazards.md R260), and the replacement of the code table
(92_eei_decisions.md D40). -/

namespace Sys2Proof.Machine

/-! ## Memory -/

/-- The byte written at an address, if any. -/
def Memory.find : Memory → Nat → Option Byte
  | [], _ => none
  | (b, v) :: rest, a => if a = b then some v else Memory.find rest a

/-- The memory with byte d written at address a. -/
def Memory.write : Memory → Nat → Byte → Memory
  | [], a, d => [(a, d)]
  | (b, v) :: rest, a, d =>
    if a < b then (a, d) :: (b, v) :: rest
    else if a = b then (a, d) :: rest
    else (b, v) :: Memory.write rest a d

/-! ## Streams. `blank` gives the byte of an address that nothing has written -/

/-- MemRead(S, a, 1) (00_scope.md R13). -/
def BitStream.byte (blank : Nat → Byte) (st : BitStream) (a : Nat) : Byte := (Memory.find st.buf a).getD (blank a)

/-- MemWrite(S, a, 1, v) (00_scope.md R13). -/
def BitStream.writeByte (st : BitStream) (a : Nat) (v : Byte) : BitStream := { st with buf := Memory.write st.buf a v }

/-- StreamBit(S, k) (20_memory.md R64). -/
def BitStream.bit (blank : Nat → Byte) (st : BitStream) (k : Nat) : Bool := (st.byte blank (k / 8)).getLsbD (7 - k % 8)

/-- The n stream bits from k on, in stream order. -/
def BitStream.bits (blank : Nat → Byte) (st : BitStream) (k n : Nat) : List Bool :=
  (List.range n).map fun j => st.bit blank (k + j)

/-- StreamBits(S, k, n): those bits as a number, the first most significant (20_memory.md R65). -/
def BitStream.number (blank : Nat → Byte) (st : BitStream) (k n : Nat) : Nat := bitsToNat (st.bits blank k n)

/-- The byte that AppendBit writes over `old` when it puts bit b at position 7 - j: bits above keep their values, bits below
become the filler 0 (20_memory.md R66). -/
def appendedByte (old : Byte) (j : Nat) (b : Bool) : Byte :=
  (old &&& ~~~(0xFF#8 >>> j)) ||| ((BitVec.ofBool b).setWidth 8 <<< (7 - j))

/-- AppendBit(S, b) (20_memory.md R66). When j = 0 the old byte has no bit above position 7, so it is not read: "the whole
byte becomes b·0x80". -/
def BitStream.appendBit (blank : Nat → Byte) (st : BitStream) (b : Bool) : BitStream :=
  { st with
    buf := Memory.write st.buf (st.wbits / 8)
      (appendedByte (if st.wbits % 8 = 0 then 0#8 else st.byte blank (st.wbits / 8)) (st.wbits % 8) b)
    wbits := st.wbits + 1 }

/-- Append: these bits, the first one first (20_memory.md R67, with the bits of v given by natToBits n v). -/
def BitStream.append (blank : Nat → Byte) (st : BitStream) (bits : List Bool) : BitStream :=
  bits.foldl (BitStream.appendBit blank) st

/-- The serialized form of a stream: its first ceil(WBITS/8) bytes (20_memory.md R68). -/
def BitStream.serialized (blank : Nat → Byte) (st : BitStream) : List Byte :=
  (List.range (bytesOf st.wbits)).map (st.byte blank)

/-! ## The two streams of the state -/

/-- The stream of this name. -/
def State.stream (s : State) : StreamId → BitStream
  | .P => s.p
  | .M => s.m

/-- The state with this stream replaced. -/
def State.setStream (s : State) : StreamId → BitStream → State
  | .P, st => { s with p := st }
  | .M, st => { s with m := st }

/-- What an address of buffer S holds that nothing has written since power-on: a free value (R260, U1; log 3). -/
def State.blank (s : State) (S : StreamId) : Nat → Byte := Config.powerOnByte s.powerOns S

/-- The byte of buffer S at an address. -/
def State.byte (s : State) (S : StreamId) (a : Nat) : Byte := (s.stream S).byte (s.blank S) a

/-- StreamBit(S, k) in a state. -/
def State.bit (s : State) (S : StreamId) (k : Nat) : Bool := (s.stream S).bit (s.blank S) k

/-- StreamBits(S, k, n) in a state. -/
def State.number (s : State) (S : StreamId) (k n : Nat) : Nat := (s.stream S).number (s.blank S) k n

/-- Append to stream S of a state. -/
def State.append (s : State) (S : StreamId) (bits : List Bool) : State :=
  s.setStream S ((s.stream S).append (s.blank S) bits)

/-- CLR(S) as part of another command: both counts 0, the buffer kept (41_bitstream.md R131). -/
def State.clearStream (s : State) (S : StreamId) : State :=
  s.setStream S { s.stream S with wbits := 0, rpos := 0 }

/-- The read cursor of S moved. -/
def State.setRpos (s : State) (S : StreamId) (k : Nat) : State := s.setStream S { s.stream S with rpos := k }

/-- The bits that do not fit: an append of n bits to S would pass 8·CAP(S) (41_bitstream.md R134, 45_code_lookup.md R220). -/
def State.overflows (s : State) (S : StreamId) (n : Nat) : Bool := decide (8 * s.config.cap S < (s.stream S).wbits + n)

/-- The host's remaining events (the model's own, log 6). -/
def State.setHost (s : State) (events : List HostEvent) : State := { s with host := events }

/-- The command latch, and with it STATUS.BUSY (10_state.md R34, R36). -/
def State.setLatched (s : State) (w : Option Word) : State := { s with latched := w }

/-- STATUS.OVR set: a CMD write was dropped while BUSY = 1 (10_state.md R36). -/
def State.setOvr (s : State) : State := { s with ovr := true }

/-- A value that the host has read (the model's own, log 6). -/
def State.addRead (s : State) (v : Word) : State := { s with reads := v :: s.reads }

/-- A new draw of the values that are free until the state changes (log 5). -/
def State.nextDraw (s : State) : State := { s with draws := s.draws + 1 }

/-! ## The end of a command -/

/-- RESULT <- v (00_scope.md R15). -/
def State.setResult (s : State) (v : Word) : State := { s with result := v }

/-- FREQ and TOTAL replaced (42_profiler.md R160, R161). -/
def State.setProfile (s : State) (freq : Table Word) (total : Word) : State := { s with freq := freq, total := total }

/-- WSUM replaced (45_code_lookup.md R223). -/
def State.setWsum (s : State) (v : BitVec 64) : State := { s with wsum := v }

/-- The error codes that the block raises (60_exceptions.md R231); 0x01, 0x05 and 0x0D to 0xFF are never written. -/
inductive ErrCode where
  | uninitializedState
  | corruptMetadata
  | corruptData
  | emptyInput
  | illegalCommand
  | capacityExceeded
  | unknownSymbol
  | streamUnderrun
  | badAddress
  | badLength
deriving DecidableEq, Repr

/-- The number of an error code (60_exceptions.md R231). -/
def ErrCode.code : ErrCode → BitVec 8
  | .uninitializedState => 0x02#8
  | .corruptMetadata => 0x03#8
  | .corruptData => 0x04#8
  | .emptyInput => 0x06#8
  | .illegalCommand => 0x07#8
  | .capacityExceeded => 0x08#8
  | .unknownSymbol => 0x09#8
  | .streamUnderrun => 0x0A#8
  | .badAddress => 0x0B#8
  | .badLength => 0x0C#8

/-- ERROR ENTRY: the one way a command takes an error (60_exceptions.md R234). The three error registers are written, the
command has ended (BUSY = 0), and nothing else changes. -/
def State.raise (s : State) (w : Word) (e : ErrCode) (pos : Nat) : State :=
  { s with errcode := e.code, errcmd := w, errpos := BitVec.ofNat 20 pos, latched := none }

/-- The outcome of a command that raises e with ERRPOS = pos; the word being executed is the command's own (R232;
log 8). -/
def fail (i : Instr) (e : ErrCode) (pos : Nat) (s : State) : Result := .next (s.raise (encode i) e pos)

/-- RETURN FROM AN ERROR: CLR_ERR's effect (60_exceptions.md R236, 40_control.md R122). -/
def State.clearError (s : State) : State := { s with errcode := 0#8, errcmd := 0#32, errpos := 0#20, ovr := false }

/-- The soft reset of SRESET (40_control.md R121, 70_reset_and_hazards.md R260): every register and table at its reset value,
the buffer bytes kept, the arena unspecified again. The instance's parameters and the four fields of the model's own are no state of
the block and stay. -/
def State.softReset (s : State) : State :=
  { State.resetOf s.config with
    p := { s.p with wbits := 0, rpos := 0 }
    m := { s.m with wbits := 0, rpos := 0 }
    host := s.host
    reads := s.reads
    draws := s.draws
    powerOns := s.powerOns }

/-! ## The code table -/

/-- The code table of a loaded or built code: a symbol's code as the list of its bits, the first emitted first
(10_state.md R28), for each symbol that has one. -/
abbrev CodeList := List (Symbol × List Bool)

/-- The code of a symbol; the empty list for a symbol that has none. -/
def codeFor (codes : CodeList) (a : Symbol) : List Bool := (codes.lookup a).getD []

/-- CLEN for these codes: 0 for a symbol with no code (10_state.md R28). -/
def clenOf (codes : CodeList) : Table (BitVec 8) := Table.ofFun fun a => BitVec.ofNat 8 (codeFor codes a).length

/-- CVAL for these codes: the code as a number, its first bit most significant, 0 for a symbol with no code (10_state.md
R28). -/
def cvalOf (codes : CodeList) : Table (BitVec 255) := Table.ofFun fun a => BitVec.ofNat 255 (bitsToNat (codeFor codes a))

/-- The symbol whose code is the number v (10_state.md R29). -/
def symbolOfCode (codes : CodeList) (v : BitVec 8) : Option Symbol :=
  (codes.find? fun e => decide (bitsToNat e.2 = v.toNat)).map (·.1)

/-- Load a fixed-length table: every table register is replaced (43_fixed_length.md R171 and R174; D40). -/
def State.loadFixed (s : State) (codes : CodeList) (w : Nat) : State :=
  { s with
    clen := clenOf codes
    cval := cvalOf codes
    rvalid := Table.ofFun fun v => (symbolOfCode codes v).isSome
    rsym := Table.ofFun fun v => (symbolOfCode codes v).getD 0#8
    mode := .fixed
    alpha := BitVec.ofNat 9 codes.length
    width := BitVec.ofNat 4 w
    maxlen := BitVec.ofNat 8 w
    root := 0#9
    nnodes := 0#10
    arena := [] }

/-- Load a Huffman tree of n leaves and its codes: every table register is replaced (44_huffman.md R191 and R196; D40). -/
def State.loadHuff (s : State) (arena : List Node) (root n : Nat) (codes : CodeList) : State :=
  { s with
    clen := clenOf codes
    cval := cvalOf codes
    rvalid := Table.ofFun fun _ => false
    rsym := Table.ofFun fun _ => 0#8
    mode := .huff
    alpha := BitVec.ofNat 9 n
    width := 0#4
    maxlen := maxEntry (clenOf codes)
    root := BitVec.ofNat 9 root
    nnodes := BitVec.ofNat 10 arena.length
    arena := arena }

/-- NODE[i] (10_state.md R30): an entry that no build or load has filled is a free value (U2; log 4). -/
def State.node (s : State) (i : Nat) : Node := (s.arena[i]?).getD (Config.unspecifiedNode s.draws i)

end Sys2Proof.Machine
end

