-- ==== Sys2Proof/Machine/Bitstream.lean ====
section
/-! DEFINITION. The bit-stream commands (41_bitstream.md): the seven operations once for a stream S (R131 to R137), and the
fourteen commands (R140 to R153). An operation takes the command it runs for, whose word an error records. -/

namespace Sys2Proof.Machine

/-! ## Operations on a stream S -/

/-- CLR(S) (R131). -/
def clrStream (S : StreamId) (s : State) : Result := .next (s.clearStream S)

/-- REWIND(S) (R132). -/
def rewindStream (S : StreamId) (s : State) : Result := .next (s.setRpos S 0)

/-- SETLEN(S, b, p) (R133). -/
def setlenStream (S : StreamId) (i : Instr) (b : BitVec 21) (p : BitVec 3) (s : State) : Result :=
  if s.config.cap S < b.toNat then fail i .badLength 0 s
  else if b = 0#21 ∧ p ≠ 0#3 then fail i .badLength 0 s
  else .next (s.setStream S { s.stream S with wbits := setlenBits b p, rpos := 0 })

/-- PUT(S, n, v) (R134). -/
def putStream (S : StreamId) (i : Instr) (n : BitVec 5) (v : BitVec 16) (s : State) : Result :=
  if (groupWidthOk n && groupValueOk n v) = false then fail i .illegalCommand 0 s
  else if s.overflows S n.toNat then fail i .capacityExceeded 0 s
  else .next (s.append S (natToBits n.toNat v.toNat))

/-- GET(S, n) (R135). -/
def getStream (S : StreamId) (i : Instr) (n : BitVec 5) (s : State) : Result :=
  if groupWidthOk n = false then fail i .illegalCommand 0 s
  else if (s.stream S).wbits - (s.stream S).rpos < n.toNat then fail i .streamUnderrun (s.stream S).rpos s
  else .next ((s.setResult (BitVec.ofNat 32 (s.number S (s.stream S).rpos n.toNat))).setRpos S
    ((s.stream S).rpos + n.toNat))

/-- WR(S, a, d) (R136). -/
def wrStream (S : StreamId) (i : Instr) (a : BitVec 16) (d : Byte) (s : State) : Result :=
  if s.config.cap S ≤ a.toNat then fail i .badAddress 0 s
  else .next (s.setStream S ((s.stream S).writeByte a.toNat d))

/-- RD(S, a) (R137). -/
def rdStream (S : StreamId) (i : Instr) (a : BitVec 16) (s : State) : Result :=
  if s.config.cap S ≤ a.toNat then fail i .badAddress 0 s
  else .next (s.setResult ((s.byte S a.toNat).setWidth 32))

/-! ## The fourteen commands -/

/-- P_CLR (R140). -/
def execPClr (s : State) : Result := clrStream .P s
/-- P_REWIND (R141). -/
def execPRewind (s : State) : Result := rewindStream .P s
/-- P_SETLEN (R142). -/
def execPSetlen (b : BitVec 21) (p : BitVec 3) (s : State) : Result := setlenStream .P (.pSetlen b p) b p s
/-- P_PUT (R143). -/
def execPPut (n : BitVec 5) (v : BitVec 16) (s : State) : Result := putStream .P (.pPut n v) n v s
/-- P_GET (R144). -/
def execPGet (n : BitVec 5) (s : State) : Result := getStream .P (.pGet n) n s
/-- P_WR (R145). -/
def execPWr (a : BitVec 16) (d : Byte) (s : State) : Result := wrStream .P (.pWr a d) a d s
/-- P_RD (R146). -/
def execPRd (a : BitVec 16) (s : State) : Result := rdStream .P (.pRd a) a s
/-- M_CLR (R147). -/
def execMClr (s : State) : Result := clrStream .M s
/-- M_REWIND (R148). -/
def execMRewind (s : State) : Result := rewindStream .M s
/-- M_SETLEN (R149). -/
def execMSetlen (b : BitVec 21) (p : BitVec 3) (s : State) : Result := setlenStream .M (.mSetlen b p) b p s
/-- M_PUT (R150). -/
def execMPut (n : BitVec 5) (v : BitVec 16) (s : State) : Result := putStream .M (.mPut n v) n v s
/-- M_GET (R151). -/
def execMGet (n : BitVec 5) (s : State) : Result := getStream .M (.mGet n) n s
/-- M_WR (R152). -/
def execMWr (a : BitVec 16) (d : Byte) (s : State) : Result := wrStream .M (.mWr a d) a d s
/-- M_RD (R153). -/
def execMRd (a : BitVec 16) (s : State) : Result := rdStream .M (.mRd a) a s

end Sys2Proof.Machine
end

