-- ==== Sys2Proof/Machine/CodeLookup.lean ====
section
/-! DEFINITION. The symbol-to-code lookup commands (45_code_lookup.md). -/

namespace Sys2Proof.Machine

/-- The bits of a symbol's code, the first emitted first: CLEN[s] bits of CVAL[s], most significant first (10_state.md R28). -/
def State.codeBits (s : State) (a : Symbol) : List Bool :=
  natToBits (Table.at s.clen a).toNat (Table.at s.cval a).toNat

/-- ENC s (R220). -/
def execEnc (a : Symbol) (s : State) : Result :=
  if s.mode = .none then fail (.enc a) .uninitializedState 0 s
  else if Table.at s.clen a = 0#8 then fail (.enc a) .unknownSymbol 0 s
  else if s.overflows .P (Table.at s.clen a).toNat then fail (.enc a) .capacityExceeded 0 s
  else .next (s.append .P (s.codeBits a))

/-- CODE_LEN s (R221). -/
def execCodeLen (a : Symbol) (s : State) : Result := .next (s.setResult ((Table.at s.clen a).setWidth 32))

/-- CODE_RD s, c (R222). -/
def execCodeRd (a : Symbol) (c : BitVec 3) (s : State) : Result := .next (s.setResult (codeChunk (Table.at s.cval a) c))

/-- Σ over s of FREQ[s] · CLEN[s] (R223). -/
def State.weightedSum (s : State) : Nat := sumOver fun a => (Table.at s.freq a).toNat * (Table.at s.clen a).toNat

/-- WSUM_CALC (R223). -/
def execWsumCalc (s : State) : Result :=
  if s.mode = .none then fail .wsumCalc .uninitializedState 0 s
  else .next ((s.setWsum (BitVec.ofNat 64 s.weightedSum)).setResult ((BitVec.ofNat 64 s.weightedSum).setWidth 32))

end Sys2Proof.Machine
end

