-- ==== Sys2Proof/Machine/Control.lean ====
section
/-! DEFINITION. The control commands (40_control.md). -/

namespace Sys2Proof.Machine

/-- NOP: no effect (R120). -/
def execNop (s : State) : Result := .next s

/-- SRESET: soft reset (R121). -/
def execSreset (s : State) : Result := .next s.softReset

/-- CLR_ERR: the return from an error (R122, 60_exceptions.md R236). -/
def execClrErr (s : State) : Result := .next s.clearError

end Sys2Proof.Machine
end

