-- ==== Sys2Proof/Machine/FixedLength.lean ====
section
/-! DEFINITION. The fixed-width code encoder's commands (43_fixed_length.md). -/

namespace Sys2Proof.Machine

/-- The result of a decode command that finds no bit left: EOS, 0x00000100 (92_eei_decisions.md D26). -/
def eosWord : Word := 0x00000100#32

/-- The codes that FL_BUILD assigns: each symbol of the alphabet its rank in w bits (R170, R171). -/
def rankCodes (freq : Table Word) (w : Nat) : CodeList :=
  (alphabet freq).map fun a => (a, natToBits w (rank freq a))

/-- FL_BUILD (R171). -/
def execFlBuild (s : State) : Result :=
  if alphabet s.freq = [] then fail .flBuild .emptyInput 0 s
  else .next (s.loadFixed (rankCodes s.freq (codeWidth (alphabet s.freq).length)) (codeWidth (alphabet s.freq).length))

/-- RVALID[v], for a group value v; the reverse table has 256 entries (10_state.md R29; log 15). -/
def State.groupValid (s : State) (v : Nat) : Bool := decide (v < 256) && Table.at s.rvalid (BitVec.ofNat 8 v)

/-- FL_DEC (R172). -/
def execFlDec (s : State) : Result :=
  if s.mode ≠ .fixed then fail .flDec .uninitializedState 0 s
  else if s.p.rpos = s.p.wbits then .next (s.setResult eosWord)
  else if s.p.wbits - s.p.rpos < s.width.toNat then fail .flDec .corruptData s.p.rpos s
  else if s.groupValid (s.number .P s.p.rpos s.width.toNat) = false then fail .flDec .corruptData s.p.rpos s
  else .next ((s.setResult ((Table.at s.rsym (BitVec.ofNat 8 (s.number .P s.p.rpos s.width.toNat))).setWidth 32)).setRpos .P
    (s.p.rpos + s.width.toNat))

/-- The entry of code c in the fixed-length metadata: the ordinal in 8 bits and the code in WIDTH bits, if the code is
assigned (R173). -/
def State.fixedEntry (s : State) (c : Nat) : List Bool :=
  if s.groupValid c then natToBits 8 (Table.at s.rsym (BitVec.ofNat 8 c)).toNat ++ natToBits s.width.toNat c else []

/-- The bits of the fixed-length metadata: WIDTH in 8 bits, then the entries in ascending code value (R173). -/
def State.fixedMetadata (s : State) : List Bool :=
  natToBits 8 s.width.toNat ++ (List.range (2 ^ s.width.toNat)).flatMap s.fixedEntry

/-- FL_MWRITE (R173). -/
def execFlMwrite (s : State) : Result :=
  if s.mode ≠ .fixed then fail .flMwrite .uninitializedState 0 s
  else .next ((s.clearStream .M).append .M s.fixedMetadata)

/-- Entry j of a fixed-length metadata blob with codes of w bits: its symbol and its code's bits (R174). -/
def State.readFixedEntry (s : State) (w j : Nat) : Symbol × List Bool :=
  (BitVec.ofNat 8 (s.number .M (8 + j * (8 + w)) 8), s.m.bits (s.blank .M) (16 + j * (8 + w)) w)

/-- The code width and the entries of the fixed-length metadata in M, if every check of R174 passes. -/
def State.parseFixed (s : State) : Option (Nat × CodeList) :=
  let w := s.number .M 0 8
  let n := (s.m.wbits - 8) / (8 + w)
  let entries := (List.range n).map (s.readFixedEntry w)
  if s.m.wbits < 8 then none
  else if w < 1 ∨ 8 < w then none
  else if s.m.wbits - 8 = 0 ∨ (s.m.wbits - 8) % (8 + w) ≠ 0 then none
  else if w ≠ codeWidth n then none
  else if ¬ (entries.map (·.1)).Nodup ∨ ¬ (entries.map (·.2)).Nodup then none
  else some (w, entries)

/-- FL_MREAD (R174). -/
def execFlMread (s : State) : Result :=
  match s.parseFixed with
  | none => fail .flMread .corruptMetadata 0 s
  | some (w, entries) => .next ((s.loadFixed entries w).setRpos .M s.m.wbits)

end Sys2Proof.Machine
end

