-- ==== Sys2Proof/Machine/Huffman.lean ====
section
/-! DEFINITION. The Huffman tree builder's, tree-traversal decoder's and Huffman codec's commands (44_huffman.md). -/

namespace Sys2Proof.Machine

/-! ## The builder (R190, R191) -/

/-- The key of a node, (weight, index) (R190). -/
abbrev Key := Word × Nat

/-- The lexicographic order of keys: smaller weight first, among equal weights the smaller index (R190). -/
def Key.less (x y : Key) : Bool := decide (x.1.toNat < y.1.toNat ∨ (x.1 = y.1 ∧ x.2 < y.2))

/-- The least key of a work-set (the minimum selector, R190); none for the empty set. -/
def leastKey : List Key → Option Key
  | [] => none
  | k :: ks => some (ks.foldl (fun m x => if Key.less x m then x else m) k)

/-- Step 2 of R191: while more than one node remains, merge the two of least key. The first argument bounds the number of
merges; the work-set loses one node at each. -/
def mergeNodes : Nat → List Node → List Key → List Node
  | 0, arena, _ => arena
  | n + 1, arena, work =>
    match leastKey work with
    | none => arena
    | some x =>
      match leastKey (work.erase x) with
      | none => arena
      | some y =>
        mergeNodes n (arena ++ [.internal (x.1 + y.1) (BitVec.ofNat 9 x.2) (BitVec.ofNat 9 y.2)])
          (((work.erase x).erase y) ++ [(x.1 + y.1, arena.length)])

/-- Step 1 of R191: one leaf for each symbol of the alphabet, in ascending ordinal. -/
def leafNodes (freq : Table Word) : List Node :=
  (alphabet freq).map fun a => .leaf a (Table.at freq a)

/-- The first work-set of R191: the keys of the leaves. -/
def leafKeys (freq : Table Word) : List Key :=
  ((alphabet freq).map (Table.at freq)).zipIdx

/-- The arena that HUF_BUILD makes (R191); its root is the last node made. -/
def buildArena (freq : Table Word) : List Node :=
  mergeNodes (alphabet freq).length (leafNodes freq) (leafKeys freq)

/-! ## Code derivation (R192) -/

/-- The leaves below node i with the branch bits from i to each, left 0 and right 1. The first argument bounds the depth. -/
def leafPaths (arena : List Node) : Nat → Nat → CodeList
  | 0, _ => []
  | n + 1, i =>
    match arena[i]? with
    | none => []
    | some (.leaf a _) => [(a, [])]
    | some (.internal _ l r) =>
      (leafPaths arena n l.toNat).map (fun e => (e.1, false :: e.2)) ++
        (leafPaths arena n r.toNat).map (fun e => (e.1, true :: e.2))

/-- DeriveCodes(r): the codes of the tree rooted at r, a one-leaf tree giving the one-bit code 0 (R192). -/
def deriveCodes (arena : List Node) (r : Nat) : CodeList :=
  match arena[r]? with
  | some (.leaf a _) => [(a, [false])]
  | _ => leafPaths arena Config.nnodeMax r

/-- HUF_BUILD (R191). -/
def execHufBuild (s : State) : Result :=
  let arena := buildArena s.freq
  if alphabet s.freq = [] then fail .hufBuild .emptyInput 0 s
  else .next (s.loadHuff arena (arena.length - 1) (alphabet s.freq).length
    (deriveCodes arena (arena.length - 1)))

/-! ## The decode FSM (R194) -/

/-- State WALK of the decode FSM: from node i and stream position pos with `left` bits remaining, to the symbol of the leaf
reached and the position after the last bit consumed; none when the bits run out first. -/
def walkTree (node : Nat → Node) (bit : Nat → Bool) : Nat → Nat → Nat → Option (Symbol × Nat)
  | left, pos, i =>
    match node i with
    | .leaf a _ => some (a, pos)
    | .internal _ l r =>
      match left with
      | 0 => none
      | left' + 1 => walkTree node bit left' (pos + 1) (if bit pos then r.toNat else l.toNat)

/-- One root-to-leaf walk (R194): with a leaf at the root (a one-symbol alphabet) the code is the single bit 0. -/
def State.huffWalk (s : State) : Option (Symbol × Nat) :=
  match s.node s.root.toNat with
  | .leaf a _ => if s.bit .P s.p.rpos then none else some (a, s.p.rpos + 1)
  | .internal _ _ _ => walkTree s.node (s.bit .P) (s.p.wbits - s.p.rpos) s.p.rpos s.root.toNat

/-- HUF_DEC (R194). -/
def execHufDec (s : State) : Result :=
  if s.mode ≠ .huff then fail .hufDec .uninitializedState 0 s
  else if s.p.rpos = s.p.wbits then .next (s.setResult eosWord)
  else match s.huffWalk with
    | none => fail .hufDec .corruptData s.p.rpos s
    | some (a, pos) => .next ((s.setResult (a.setWidth 32)).setRpos .P pos)

/-! ## Metadata (R195, R196) -/

/-- Ser(i) (R195): pre-order, a leaf as 1 and its 8-bit ordinal, an internal node as 0, its left and its right subtree. The
first argument bounds the depth; none when the bound is passed. -/
def serializeTree (node : Nat → Node) : Nat → Nat → Option (List Bool)
  | 0, _ => none
  | n + 1, i =>
    match node i with
    | .leaf a _ => some (true :: natToBits 8 a.toNat)
    | .internal _ l r =>
      match serializeTree node n l.toNat with
      | none => none
      | some left =>
        match serializeTree node n r.toNat with
        | none => none
        | some right => some (false :: (left ++ right))

/-- HUF_MWRITE (R195). A serialized tree is at most 2559 bits and always fits; a longer form, or one that has no end, comes only
from an arena that is no tree, where the model stops (log 7). -/
def execHufMwrite (s : State) : Result :=
  if s.mode ≠ .huff then fail .hufMwrite .uninitializedState 0 s
  else match serializeTree s.node Config.nnodeMax s.root.toNat with
    | none => .fault .arenaNotATree
    | some bits =>
      if Config.treeBitsMax < bits.length then .fault .arenaNotATree
      else .next ((s.clearStream .M).append .M bits)

/-- What Parse() has read of the metadata (R196): the subtree's nodes in pre-order, the position after it, and the counts. -/
structure Parsed where
  nodes : List Node
  pos : Nat
  internals : Nat
  seen : List Symbol

/-- Parse() (R196): the subtree at position pos, whose root gets index k; none at the first failed check. The first argument
bounds the depth, which the internal-node check keeps at most 256. -/
def parseTree (bit : Nat → Bool) (wbits : Nat) : Nat → Nat → Nat → Nat → List Symbol → Option Parsed
  | 0, _, _, _, _ => none
  | n + 1, pos, k, internals, seen =>
    if wbits ≤ pos then none
    else if bit pos then
      let a : Symbol := BitVec.ofNat 8 (bitsToNat ((List.range 8).map fun j => bit (pos + 1 + j)))
      if wbits - (pos + 1) < 8 then none
      else if a ∈ seen then none
      else some { nodes := [.leaf a 0#32], pos := pos + 9, internals := internals, seen := a :: seen }
    else if Config.internalMax < internals + 1 then none
    else
      match parseTree bit wbits n (pos + 1) (k + 1) (internals + 1) seen with
      | none => none
      | some l =>
        match parseTree bit wbits n l.pos (k + 1 + l.nodes.length) l.internals l.seen with
        | none => none
        | some r =>
          some { nodes := .internal 0#32 (BitVec.ofNat 9 (k + 1)) (BitVec.ofNat 9 (k + 1 + l.nodes.length)) :: (l.nodes ++ r.nodes)
                 pos := r.pos, internals := r.internals, seen := r.seen }

/-- The tree of the Huffman metadata in M, if every check of R196 passes: parsing starts at bit 0 and must end at WBITS. -/
def State.parseHuff (s : State) : Option Parsed :=
  match parseTree (s.bit .M) s.m.wbits (Config.internalMax + 2) 0 0 0 [] with
  | none => none
  | some t => if t.pos ≠ s.m.wbits then none else some t

/-- HUF_MREAD (R196). -/
def execHufMread (s : State) : Result :=
  match s.parseHuff with
  | none => fail .hufMread .corruptMetadata 0 s
  | some t => .next ((s.loadHuff t.nodes 0 t.seen.length (deriveCodes t.nodes 0)).setRpos .M s.m.wbits)

/-! ## Arena inspection (R197, R198) -/

/-- The word that NODE_RD returns for a node (R197). -/
def Node.shapeWord : Node → Word
  | .leaf a _ => 0x80000000#32 ||| a.setWidth 32
  | .internal _ l r => l.setWidth 32 <<< 9 ||| r.setWidth 32

/-- The weight of a node (R198). -/
def Node.weight : Node → Word
  | .leaf _ w => w
  | .internal w _ _ => w

/-- NODE_RD i (R197). -/
def execNodeRd (i : BitVec 9) (s : State) : Result :=
  if s.mode ≠ .huff then fail (.nodeRd i) .uninitializedState 0 s
  else if s.nnodes.toNat ≤ i.toNat then fail (.nodeRd i) .badAddress 0 s
  else .next (s.setResult (Node.shapeWord (s.node i.toNat)))

/-- NODE_WT i (R198). -/
def execNodeWt (i : BitVec 9) (s : State) : Result :=
  if s.mode ≠ .huff then fail (.nodeWt i) .uninitializedState 0 s
  else if s.nnodes.toNat ≤ i.toNat then fail (.nodeWt i) .badAddress 0 s
  else .next (s.setResult (Node.weight (s.node i.toNat)))

end Sys2Proof.Machine
end

