-- ==== Sys2Proof/Machine/Profiler.lean ====
section
/-! DEFINITION. The symbol profiler's commands (42_profiler.md). -/

namespace Sys2Proof.Machine

/-- PROF_CLR (R160). -/
def execProfClr (s : State) : Result :=
  .next (s.setProfile (Table.ofFun fun _ => 0#32) 0#32)

/-- PROF_ADD s, k (R161). -/
def execProfAdd (a : Symbol) (k : BitVec 16) (s : State) : Result :=
  if 2 ^ 32 - 1 < s.total.toNat + k.toNat then fail (.profAdd a k) .capacityExceeded 0 s
  else .next (s.setProfile (Table.put s.freq a (Table.at s.freq a + k.setWidth 32)) (s.total + k.setWidth 32))

/-- FREQ_RD s (R162). -/
def execFreqRd (a : Symbol) (s : State) : Result := .next (s.setResult (Table.at s.freq a))

end Sys2Proof.Machine
end

