-- ==== Sys2Proof/Machine/Dispatch.lean ====
section
/-! DEFINITION. The meaning of each command, one arm per constructor of Instr. -/

namespace Sys2Proof.Machine

/-- Execute a command (10_state.md R36: "execute w by its rule (files 40-45)"). -/
def exec (i : Instr) (s : State) : Host.Outcome State Fault Refusal :=
  match i with
  -- control (40_control.md)
  | .nop => Sys2Proof.Machine.execNop s
  | .sreset => Sys2Proof.Machine.execSreset s
  | .clrErr => Sys2Proof.Machine.execClrErr s
  -- bit streams (41_bitstream.md)
  | .pClr => Sys2Proof.Machine.execPClr s
  | .pRewind => Sys2Proof.Machine.execPRewind s
  | .pSetlen b p => Sys2Proof.Machine.execPSetlen b p s
  | .pPut n v => Sys2Proof.Machine.execPPut n v s
  | .pGet n => Sys2Proof.Machine.execPGet n s
  | .pWr a d => Sys2Proof.Machine.execPWr a d s
  | .pRd a => Sys2Proof.Machine.execPRd a s
  | .mClr => Sys2Proof.Machine.execMClr s
  | .mRewind => Sys2Proof.Machine.execMRewind s
  | .mSetlen b p => Sys2Proof.Machine.execMSetlen b p s
  | .mPut n v => Sys2Proof.Machine.execMPut n v s
  | .mGet n => Sys2Proof.Machine.execMGet n s
  | .mWr a d => Sys2Proof.Machine.execMWr a d s
  | .mRd a => Sys2Proof.Machine.execMRd a s
  -- symbol profiler (42_profiler.md)
  | .profClr => Sys2Proof.Machine.execProfClr s
  | .profAdd a k => Sys2Proof.Machine.execProfAdd a k s
  | .freqRd a => Sys2Proof.Machine.execFreqRd a s
  -- fixed-length codec (43_fixed_length.md)
  | .flBuild => Sys2Proof.Machine.execFlBuild s
  | .flDec => Sys2Proof.Machine.execFlDec s
  | .flMwrite => Sys2Proof.Machine.execFlMwrite s
  | .flMread => Sys2Proof.Machine.execFlMread s
  -- Huffman codec (44_huffman.md)
  | .hufBuild => Sys2Proof.Machine.execHufBuild s
  | .hufDec => Sys2Proof.Machine.execHufDec s
  | .hufMwrite => Sys2Proof.Machine.execHufMwrite s
  | .hufMread => Sys2Proof.Machine.execHufMread s
  | .nodeRd j => Sys2Proof.Machine.execNodeRd j s
  | .nodeWt j => Sys2Proof.Machine.execNodeWt j s
  -- code lookup and encode (45_code_lookup.md)
  | .enc a => Sys2Proof.Machine.execEnc a s
  | .codeLen a => Sys2Proof.Machine.execCodeLen a s
  | .codeRd a c => Sys2Proof.Machine.execCodeRd a c s
  | .wsumCalc => Sys2Proof.Machine.execWsumCalc s

end Sys2Proof.Machine
end

