-- ==== Sys2Proof/Machine/HostPort.lean ====
section
/-! DEFINITION. What reaches the block from outside: the register window as the host reads it (10_state.md R24), a CMD write
(R36, 60_exceptions.md R235), the other host accesses (20_memory.md R71), and power-on reset (70_reset_and_hazards.md R261). -/

namespace Sys2Proof.Machine

/-- What the register at a byte offset holds while BUSY = 0 (10_state.md R24). Bits above a register's used bits read 0; CMD
and the reserved offsets read 0. -/
def State.register (s : State) (offset : BitVec 8) : Word :=
  match offset with
  | 0x04#8 => s.statusWord
  | 0x08#8 => s.result
  | 0x0C#8 => s.errcode.setWidth 32
  | 0x10#8 => s.errcmd
  | 0x14#8 => s.errpos.setWidth 32
  | 0x18#8 => s.alpha.setWidth 32
  | 0x1C#8 => s.width.setWidth 32
  | 0x20#8 => s.root.setWidth 32
  | 0x24#8 => s.nnodes.setWidth 32
  | 0x28#8 => s.maxlen.setWidth 32
  | 0x2C#8 => s.total
  | 0x30#8 => s.wsum.extractLsb' 0 32
  | 0x34#8 => s.wsum.extractLsb' 32 32
  | 0x38#8 => BitVec.ofNat 32 s.p.wbits
  | 0x3C#8 => BitVec.ofNat 32 s.p.rpos
  | 0x40#8 => BitVec.ofNat 32 (bytesOf s.p.wbits)
  | 0x44#8 => BitVec.ofNat 32 (padOf s.p.wbits)
  | 0x48#8 => BitVec.ofNat 32 s.m.wbits
  | 0x4C#8 => BitVec.ofNat 32 s.m.rpos
  | 0x50#8 => BitVec.ofNat 32 (bytesOf s.m.wbits)
  | 0x54#8 => BitVec.ofNat 32 (padOf s.m.wbits)
  | 0x58#8 => Config.idWord
  | 0x5C#8 => BitVec.ofNat 32 s.config.pcap
  | 0x60#8 => BitVec.ofNat 32 s.config.mcap
  | _ => 0#32

/-- The offset is reserved: no register stands there, and it reads 0 at all times (10_state.md R24, 92_eei_decisions.md D21,
93_implementation_defined.md V5, 70_reset_and_hazards.md R260). -/
def reservedOffset (offset : BitVec 8) : Bool := decide (0x64 ≤ offset.toNat)

/-- What a host read returns: 0 at a reserved offset; the register while BUSY = 0; while BUSY = 1, STATUS with BUSY and OVR only,
and a free value for every other register, CMD and the constants among them (10_state.md R36, 93_implementation_defined.md U3;
log 5). -/
def State.hostValue (s : State) (offset : BitVec 8) : Word :=
  if reservedOffset offset then 0#32
  else if s.busy = false then s.register offset
  else if offset = 0x04#8 then s.statusWordBusy
  else Config.busyRead s.draws offset

/-- The byte of the register window at an offset: the window is little-endian (20_memory.md R62; log 12). -/
def State.windowByte (s : State) (offset : BitVec 8) : Byte :=
  (s.hostValue (offset &&& 0xFC#8)).extractLsb' (8 * (offset.toNat % 4)) 8

/-- The three words that a locked block executes: NOP, SRESET and CLR_ERR (60_exceptions.md R235). -/
def controlWords : List Word := [0x00000000#32, 0x01000000#32, 0x02000000#32]

/-- A host write of w to CMD (10_state.md R36): dropped with OVR set while BUSY = 1; dropped without any effect while locked,
unless it is one of the three control words; otherwise latched, which sets BUSY. -/
def State.writeCmd (w : Word) (s : State) : State :=
  if s.busy then s.nextDraw.setOvr
  else if s.errcode ≠ 0#8 ∧ w ∉ controlWords then s
  else s.nextDraw.setLatched (some w)

/-- The access is one that the spec defines: 32 bits wide, at a multiple of 4 (20_memory.md R71). -/
def accessDefined (bits : Nat) (offset : BitVec 8) : Bool := decide (bits = 32 ∧ offset.toNat % 4 = 0)

/-- A host write: to CMD it starts a command, to any other offset it is ignored (10_state.md R24); an access that the spec
does not define is refused (20_memory.md R71, U4; log 10). -/
def hostWrite (bits : Nat) (offset : BitVec 8) (w : Word) (s : State) : Result :=
  if accessDefined bits offset = false then .refused .undefinedHostAccess
  else if offset = 0x00#8 then .next (s.writeCmd w)
  else .next s

/-- A host read returns a value and changes nothing of the block (20_memory.md R73). -/
def hostRead (bits : Nat) (offset : BitVec 8) (s : State) : Result :=
  if accessDefined bits offset = false then .refused .undefinedHostAccess
  else .next (s.addRead (s.hostValue offset))

/-- Power-on reset: every item at its power-on value, the buffer bytes unspecified anew (70_reset_and_hazards.md R260, R261,
60_exceptions.md R246). It ends a running command (log 9). The instance's parameters, what the host does next and what it
has read are not the block's state. -/
def powerOnReset (s : State) : Result :=
  .next { State.resetOf s.config with host := s.host, reads := s.reads, draws := s.draws + 1, powerOns := s.powerOns + 1 }

/-- One event from outside; awaitIdle alone changes nothing here. -/
def hostEvent (e : HostEvent) (s : State) : Result :=
  match e with
  | .write bits offset w => hostWrite bits offset w s
  | .read bits offset => hostRead bits offset s
  | .awaitIdle => .next s
  | .powerOn => powerOnReset s

end Sys2Proof.Machine
end

