-- ==== Sys2Proof/Machine/Lifecycle.lean ====
section
/-! DEFINITION. The command lifecycle (10_state.md R36): the execution of the latched word, and which agent moves next. -/

namespace Sys2Proof.Machine

/-- A command that has completed leaves BUSY = 0 (10_state.md R36). -/
def complete : Result → Result
  | .next s => .next (s.setLatched none)
  | .fault f => .fault f
  | .refused r => .refused r

/-- Execute the latched word to its end: "execute w by its rule (files 40-45; an unassigned or malformed w raises
ILLEGAL_COMMAND); STATUS.BUSY <- 0" (10_state.md R36, 30_encoding.md R97). -/
def runCommand (w : Word) (s : State) : Result :=
  match decode w with
  | .ok i => complete (exec i s)
  | .error _ => complete (.next (s.raise w .illegalCommand 0))

/-- One step. The host's events come in order. While a command is latched, the host's accesses that it makes before it has seen
BUSY = 0 come first; when it waits for BUSY = 0, or does nothing more, the command runs to its end in one step (R34, U5, R281;
log 1, log 6).
With nothing latched and no event the block is idle and nothing changes (R262). -/
def advance (s : State) : Result :=
  match s.host, s.latched with
  | [], none => .next s
  | [], some w => runCommand w s
  | .awaitIdle :: rest, some w => runCommand w (s.setHost rest)
  | e :: rest, _ => hostEvent e (s.setHost rest)

/-- The state in which the next step runs this command word: it is latched, and the host waits for BUSY = 0. The events that
the host had in mind stay behind that wait. -/
def latchWord (w : Word) (s : State) : State := (s.setLatched (some w)).setHost (.awaitIdle :: s.host)

end Sys2Proof.Machine
end

