-- ==== Sys2Proof/Machine/Step.lean ====
section
/-! DEFINITION. One step of the HTB, and the host's entry that places a command word where the next step runs it. -/

namespace Sys2Proof.Machine

/-- One step: a host event, or the latched command run to its end (10_state.md R36). -/
def step (s : State) : Host.Outcome State Fault Refusal := advance s

/-- The state with a command word of nbits bits placed in the command latch, where the next step runs it. The HTB fetches
nothing (10_state.md R23): a command comes from the host's write to CMD, and this is the state after that write (log 6). -/
def State.withFetchWord (s : State) (nbits w : Nat) : State := latchWord (BitVec.ofNat 32 (w % 2 ^ nbits)) s

end Sys2Proof.Machine
end

