-- ==== Sys2Proof/Machine/Assembly.lean ====
section
/-! DEFINITION. The assembler syntax (30_encoding.md R100), the pseudo-instructions (R101) and the disassembler (R102). They
are notation: no step reads them (log 14). -/

namespace Sys2Proof.Machine

/-! ## Printing (R102) -/

/-- A hexadecimal digit, in capitals as the spec writes words. -/
def hexDigit (n : Nat) : Char := if n < 10 then Char.ofNat (48 + n) else Char.ofNat (55 + n)

/-- A word as eight hexadecimal digits. -/
def hexWord (w : Word) : List Char := (List.range 8).map fun j => hexDigit (w.toNat / 16 ^ (7 - j) % 16)

/-- A command in the assembler syntax, its operands as decimal numbers (R100, R102). -/
def instrText (i : Instr) : String :=
  match i.operands with
  | [] => i.mnemonic
  | ns => i.mnemonic ++ " " ++ String.intercalate ", " (ns.map Nat.repr)

/-- The disassembler: a legal word as its command, any other as `.word 0xXXXXXXXX` (R102). -/
def disassemble (w : Word) : String :=
  match decode w with
  | .ok i => instrText i
  | .error _ => ".word 0x" ++ String.ofList (hexWord w)

/-! ## Reading one line (R100) -/

/-- The parts of a line: a run of letters and digits, a comma, or a character literal. -/
inductive Token where
  | word (cs : List Char)
  | comma
  | literal (c : Char)
deriving DecidableEq, Repr

/-- A finished run of characters put before the tokens that follow it. -/
def endWord (acc : List Char) (ts : List Token) : List Token := if acc = [] then ts else .word acc.reverse :: ts

/-- The tokens of a line; a comment starts with `;`, outside a character literal. `acc` is the run being read, last character
first. -/
def tokenize : List Char → List Char → List Token
  | [], acc => endWord acc []
  | '\'' :: c :: '\'' :: rest, acc => endWord acc (.literal c :: tokenize rest [])
  | c :: rest, acc =>
    if c = ';' then endWord acc []
    else if c = ',' then endWord acc (.comma :: tokenize rest [])
    else if c = ' ' ∨ c = '\t' then endWord acc (tokenize rest [])
    else tokenize rest (c :: acc)

/-- The value of a digit in a base. -/
def digitValue (base : Nat) (c : Char) : Option Nat :=
  let n := c.toNat
  let v := if 48 ≤ n ∧ n ≤ 57 then n - 48 else if 65 ≤ n ∧ n ≤ 70 then n - 55 else if 97 ≤ n ∧ n ≤ 102 then n - 87 else base
  if v < base then some v else none

/-- The number that digits in a base write after those already read. -/
def digitsValue (base : Nat) : List Char → Nat → Option Nat
  | [], v => some v
  | c :: cs, v =>
    match digitValue base c with
    | none => none
    | some d => digitsValue base cs (base * v + d)

/-- A number: decimal, `0x` hexadecimal or `0b` binary (R100). -/
def numberValue : List Char → Option Nat
  | [] => none
  | ['0', 'x'] => none
  | ['0', 'b'] => none
  | '0' :: 'x' :: cs => digitsValue 16 cs 0
  | '0' :: 'b' :: cs => digitsValue 2 cs 0
  | cs => digitsValue 10 cs 0

/-- An operand: a number, or a character literal as its 8-bit ordinal (R100). -/
def operandValue : Token → Option Nat
  | .word cs => numberValue cs
  | .literal c => some c.toNat
  | .comma => none

/-- Operands separated by commas (R100). -/
def operandValues : List Token → Option (List Nat)
  | [] => none
  | [t] => (operandValue t).map ([·])
  | t :: .comma :: rest =>
    match operandValue t, operandValues rest with
    | some v, some vs => some (v :: vs)
    | _, _ => none
  | _ :: _ => none

/-- The value fits in a field of this many bits. -/
def fits (bits v : Nat) : Bool := decide (v < 2 ^ bits)

/-- The command of a mnemonic and its operands, if each fits its field. -/
def ofOperands (m : String) (vs : List Nat) : Option Instr :=
  match m, vs with
  | "NOP", [] => some .nop
  | "SRESET", [] => some .sreset
  | "CLR_ERR", [] => some .clrErr
  | "P_CLR", [] => some .pClr
  | "P_REWIND", [] => some .pRewind
  | "P_SETLEN", [b, p] => if fits 21 b && fits 3 p then some (.pSetlen (BitVec.ofNat 21 b) (BitVec.ofNat 3 p)) else none
  | "P_PUT", [n, v] => if fits 5 n && fits 16 v then some (.pPut (BitVec.ofNat 5 n) (BitVec.ofNat 16 v)) else none
  | "P_GET", [n] => if fits 5 n then some (.pGet (BitVec.ofNat 5 n)) else none
  | "P_WR", [a, d] => if fits 16 a && fits 8 d then some (.pWr (BitVec.ofNat 16 a) (BitVec.ofNat 8 d)) else none
  | "P_RD", [a] => if fits 16 a then some (.pRd (BitVec.ofNat 16 a)) else none
  | "M_CLR", [] => some .mClr
  | "M_REWIND", [] => some .mRewind
  | "M_SETLEN", [b, p] => if fits 21 b && fits 3 p then some (.mSetlen (BitVec.ofNat 21 b) (BitVec.ofNat 3 p)) else none
  | "M_PUT", [n, v] => if fits 5 n && fits 16 v then some (.mPut (BitVec.ofNat 5 n) (BitVec.ofNat 16 v)) else none
  | "M_GET", [n] => if fits 5 n then some (.mGet (BitVec.ofNat 5 n)) else none
  | "M_WR", [a, d] => if fits 16 a && fits 8 d then some (.mWr (BitVec.ofNat 16 a) (BitVec.ofNat 8 d)) else none
  | "M_RD", [a] => if fits 16 a then some (.mRd (BitVec.ofNat 16 a)) else none
  | "PROF_CLR", [] => some .profClr
  | "PROF_ADD", [s, k] => if fits 8 s && fits 16 k then some (.profAdd (BitVec.ofNat 8 s) (BitVec.ofNat 16 k)) else none
  | "FREQ_RD", [s] => if fits 8 s then some (.freqRd (BitVec.ofNat 8 s)) else none
  | "FL_BUILD", [] => some .flBuild
  | "FL_DEC", [] => some .flDec
  | "FL_MWRITE", [] => some .flMwrite
  | "FL_MREAD", [] => some .flMread
  | "HUF_BUILD", [] => some .hufBuild
  | "HUF_DEC", [] => some .hufDec
  | "HUF_MWRITE", [] => some .hufMwrite
  | "HUF_MREAD", [] => some .hufMread
  | "NODE_RD", [i] => if fits 9 i then some (.nodeRd (BitVec.ofNat 9 i)) else none
  | "NODE_WT", [i] => if fits 9 i then some (.nodeWt (BitVec.ofNat 9 i)) else none
  | "ENC", [s] => if fits 8 s then some (.enc (BitVec.ofNat 8 s)) else none
  | "CODE_LEN", [s] => if fits 8 s then some (.codeLen (BitVec.ofNat 8 s)) else none
  | "CODE_RD", [s, c] => if fits 8 s && fits 3 c then some (.codeRd (BitVec.ofNat 8 s) (BitVec.ofNat 3 c)) else none
  | "WSUM_CALC", [] => some .wsumCalc
  | _, _ => none

/-- The commands whose first operand is a symbol (30_encoding.md R92, formats S, SK and SC). -/
def symbolMnemonics : List String := ["PROF_ADD", "FREQ_RD", "ENC", "CODE_LEN", "CODE_RD"]

/-- The token is a character literal. -/
def Token.isLiteral : Token → Bool
  | .literal _ => true
  | _ => false

/-- A character literal may stand for a symbol only (R100): as the first operand of a command that takes one. -/
def literalsOk (m : String) : List Token → Bool
  | .literal _ :: rest => symbolMnemonics.contains m && !rest.any Token.isLiteral
  | ts => !ts.any Token.isLiteral

/-- The command that one line writes (R100): legal only if its fields meet the range constraints (R94). -/
def assemble (line : String) : Option Instr :=
  match tokenize line.toList [] with
  | .word m :: rest =>
    match if rest = [] then some [] else if literalsOk (String.ofList m) rest then operandValues rest else none with
    | none => none
    | some vs =>
      match ofOperands (String.ofList m) vs with
      | none => none
      | some i => if i.wf then some i else none
  | _ => none

/-! ## Pseudo-instructions (R101) -/

/-- The pseudo-instructions of R101; a text is the list of its bytes. -/
inductive Pseudo where
  | prof (s : Symbol)
  | profs (text : List Symbol)
  | encs (text : List Symbol)
  | pPutbit (b : Bool)
  | mPutbit (b : Bool)
  | pGetbit
  | mGetbit
  | pSetbits (k : Nat)
  | mSetbits (k : Nat)
  | pLoad (a : BitVec 16) (ds : List Byte)
  | mLoad (a : BitVec 16) (ds : List Byte)
deriving DecidableEq, Repr

/-- The value of a one-bit group. -/
def bitGroup (b : Bool) : BitVec 16 := (BitVec.ofBool b).setWidth 16

/-- The expansion of a pseudo-instruction (R101). -/
def Pseudo.expand : Pseudo → List Instr
  | .prof s => [.profAdd s 1#16]
  | .profs text => text.map fun c => .profAdd c 1#16
  | .encs text => text.map .enc
  | .pPutbit b => [.pPut 1#5 (bitGroup b)]
  | .mPutbit b => [.mPut 1#5 (bitGroup b)]
  | .pGetbit => [.pGet 1#5]
  | .mGetbit => [.mGet 1#5]
  | .pSetbits k => [.pSetlen (BitVec.ofNat 21 (bytesOf k)) (BitVec.ofNat 3 (padOf k))]
  | .mSetbits k => [.mSetlen (BitVec.ofNat 21 (bytesOf k)) (BitVec.ofNat 3 (padOf k))]
  | .pLoad a ds => ds.zipIdx.map fun e => .pWr (a + BitVec.ofNat 16 e.2) e.1
  | .mLoad a ds => ds.zipIdx.map fun e => .mWr (a + BitVec.ofNat 16 e.2) e.1

end Sys2Proof.Machine
end

