-- ==== Sys2Proof/Safety.lean ====
section
/-! DEFINITION. What a safe state of the HTB is: the invariants that the spec says hold at every idle time (10_state.md R27 to
R33 and R37, 60_exceptions.md R231 and R237), which every step keeps. -/

namespace Sys2Proof.Machine

/-! ## The streams and the profiler -/

/-- 10_state.md R33, R37 (b): 0 ≤ RPOS ≤ WBITS ≤ 8·CAP; and the buffer is in canonical form, within its capacity
of this many bytes. -/
structure StreamOk (capacity : Nat) (st : BitStream) : Prop where
  rpos_le : st.rpos ≤ st.wbits
  wbits_le : st.wbits ≤ 8 * capacity
  canonical : Memory.wf st.buf = true
  within : ∀ c ∈ st.buf, c.1 < capacity

/-- 10_state.md R27, R37 (a): TOTAL = Σ FREQ[s] ≤ 2^32 - 1. -/
def TotalOk (s : State) : Prop := s.total.toNat = sumOver fun a => (Table.at s.freq a).toNat

/-- 10_state.md R31: WSUM never exceeds (2^32 - 1) · 255. -/
def WsumOk (s : State) : Prop := s.wsum.toNat ≤ (2 ^ 32 - 1) * 255

/-! ## The error registers and the lock -/

/-- 60_exceptions.md R231: ERRCODE holds 0 or a code that the block raises; ERRCMD and ERRPOS are 0 while it holds 0. -/
structure ErrorOk (s : State) : Prop where
  code_listed : s.errcode = 0#8 ∨ ∃ e : ErrCode, s.errcode = e.code
  clear : s.errcode = 0#8 → s.errcmd = 0#32 ∧ s.errpos = 0#20

/-- 60_exceptions.md R235, R237: a locked block has latched one of the three control words or none. -/
def LockOk (s : State) : Prop := ∀ w, s.latched = some w → s.errcode ≠ 0#8 → w ∈ controlWords

/-! ## The code table in each mode -/

/-- 10_state.md R37 (c): with MODE = NONE every table register is 0. -/
structure NoneOk (s : State) : Prop where
  clen : ∀ a, Table.at s.clen a = 0#8
  cval : ∀ a, Table.at s.cval a = 0#255
  rvalid : ∀ v, Table.at s.rvalid v = false
  rsym : ∀ v, Table.at s.rsym v = 0#8
  alpha : s.alpha = 0#9
  width : s.width = 0#4
  root : s.root = 0#9
  nnodes : s.nnodes = 0#10
  maxlen : s.maxlen = 0#8
  arena : s.arena = []

/-- The symbols that have a code. -/
def State.coded (s : State) : List Symbol := allSymbols.filter fun a => decide (Table.at s.clen a ≠ 0#8)

/-- 10_state.md R29, R37 (d), 43_fixed_length.md R175: the code table and the reverse table of MODE FIXED. -/
structure FixedOk (s : State) : Prop where
  alpha_pos : 1 ≤ s.alpha.toNat
  alpha_le : s.alpha.toNat ≤ 256
  width_eq : s.width.toNat = codeWidth s.alpha.toNat
  maxlen_eq : s.maxlen.toNat = s.width.toNat
  root : s.root = 0#9
  nnodes : s.nnodes = 0#10
  arena : s.arena = []
  count : s.coded.length = s.alpha.toNat
  clen : ∀ a ∈ s.coded, (Table.at s.clen a).toNat = s.width.toNat
  cval_none : ∀ a, a ∉ s.coded → Table.at s.cval a = 0#255
  cval_lt : ∀ a ∈ s.coded, (Table.at s.cval a).toNat < 2 ^ s.width.toNat
  injective : ∀ a ∈ s.coded, ∀ b ∈ s.coded, Table.at s.cval a = Table.at s.cval b → a = b
  reverse : ∀ v a, (Table.at s.rvalid v = true ∧ Table.at s.rsym v = a) ↔
    (a ∈ s.coded ∧ (Table.at s.cval a).toNat = v.toNat)
  reverse_none : ∀ v, Table.at s.rvalid v = false → Table.at s.rsym v = 0#8

/-- A binary tree whose nodes carry their arena indices and whose leaves carry a symbol. -/
inductive Tree where
  | leaf (index : Nat) (sym : Symbol)
  | node (index : Nat) (left right : Tree)
deriving DecidableEq, Repr

/-- The arena index of a tree's root. -/
def Tree.root : Tree → Nat
  | .leaf i _ => i
  | .node i _ _ => i

/-- The arena indices of a tree's nodes, in pre-order. -/
def Tree.indices : Tree → List Nat
  | .leaf i _ => [i]
  | .node i l r => i :: (l.indices ++ r.indices)

/-- The leaves of a tree, each with the branch bits from the root to it: left 0, right 1 (44_huffman.md R192). -/
def Tree.paths : Tree → CodeList
  | .leaf _ a => [(a, [])]
  | .node _ l r => (l.paths.map fun e => (e.1, false :: e.2)) ++ (r.paths.map fun e => (e.1, true :: e.2))

/-- The symbols of a tree's leaves, from left to right. -/
def Tree.symbols (t : Tree) : List Symbol := t.paths.map (·.1)

/-- The codes of a tree: its paths, but for the one-leaf tree, whose code is the single bit 0 (44_huffman.md R192). -/
def Tree.codes : Tree → CodeList
  | .leaf _ a => [(a, [false])]
  | .node i l r => (Tree.node i l r).paths

/-- The arena holds this tree: each node at its index, with its symbol or its children's indices. -/
def Tree.InArena (arena : List Node) : Tree → Prop
  | .leaf i a => ∃ w, arena[i]? = some (.leaf a w)
  | .node i l r => (∃ w, arena[i]? = some (.internal w (BitVec.ofNat 9 l.root) (BitVec.ofNat 9 r.root))) ∧
      l.InArena arena ∧ r.InArena arena

/-- 10_state.md R30, R37 (e), 44_huffman.md R192, R199 (b): in MODE HUFF the arena's entries 0 to NNODES - 1 form one rooted
binary tree t with ALPHA leaves of distinct symbols, each index used once, and the code table holds the codes of t. -/
structure HuffTree (s : State) (t : Tree) : Prop where
  root : t.root = s.root.toNat
  inArena : t.InArena s.arena
  length : s.arena.length = s.nnodes.toNat
  indices : t.indices.Perm (List.range s.nnodes.toNat)
  distinct : t.symbols.Nodup
  alpha : s.alpha.toNat = t.symbols.length
  nnodes : s.nnodes.toNat + 1 = 2 * s.alpha.toNat
  clen : s.clen = clenOf t.codes
  cval : s.cval = cvalOf t.codes

/-- 10_state.md R37 (e): what holds in MODE HUFF. -/
structure HuffOk (s : State) : Prop where
  tree : ∃ t, HuffTree s t
  width : s.width = 0#4
  maxlen : s.maxlen = maxEntry s.clen
  rvalid : ∀ v, Table.at s.rvalid v = false
  rsym : ∀ v, Table.at s.rsym v = 0#8

/-- The code table meets the invariant of its mode (10_state.md R37 (c), (d), (e)). -/
def TableOk (s : State) : Prop :=
  match s.mode with
  | .none => NoneOk s
  | .fixed => FixedOk s
  | .huff => HuffOk s

/-! ## The whole invariant -/

/-- A safe state: every invariant of 10_state.md R37, with the ranges of R31 and R33, the error registers of 60_exceptions.md,
and legal parameters (00_scope.md R8). -/
structure Inv (s : State) : Prop where
  legal : s.config.Legal
  total : TotalOk s
  wsum : WsumOk s
  payload : StreamOk s.config.pcap s.p
  metadata : StreamOk s.config.mcap s.m
  error : ErrorOk s
  lock : LockOk s
  table : TableOk s

/-! ## What an instruction leaves unchanged -/

/-- The parts of the state that a frame speaks of. -/
inductive Part where
  /-- The instance's parameters, which no command writes. -/
  | config
  /-- STATUS.BUSY and the latched word. -/
  | latch
  /-- STATUS.OVR. -/
  | ovr
  /-- ERRCODE, ERRCMD and ERRPOS. -/
  | error
  /-- RESULT. -/
  | result
  /-- The loaded code table: MODE, ALPHA, WIDTH, ROOT, NNODES, MAXLEN, CLEN, CVAL, RVALID, RSYM and NODE. -/
  | table
  /-- FREQ and TOTAL. -/
  | profile
  /-- WSUM. -/
  | wsum
  /-- The write count of a stream. -/
  | wbits (S : StreamId)
  /-- The read cursor of a stream. -/
  | rpos (S : StreamId)
  /-- Every byte of a stream's buffer. -/
  | bytes (S : StreamId)
  /-- The model's own fields. -/
  | environment
deriving DecidableEq, Repr

/-- A part of the state is the same in t as in s. A buffer is compared byte by byte, through the read of one byte. -/
def Unchanged (q : Part) (s t : State) : Prop :=
  match q with
  | .config => t.config = s.config
  | .latch => t.latched = s.latched
  | .ovr => t.ovr = s.ovr
  | .error => t.errcode = s.errcode ∧ t.errcmd = s.errcmd ∧ t.errpos = s.errpos
  | .result => t.result = s.result
  | .table => t.mode = s.mode ∧ t.alpha = s.alpha ∧ t.width = s.width ∧ t.root = s.root ∧ t.nnodes = s.nnodes ∧
      t.maxlen = s.maxlen ∧ t.clen = s.clen ∧ t.cval = s.cval ∧ t.rvalid = s.rvalid ∧ t.rsym = s.rsym ∧ t.arena = s.arena
  | .profile => t.freq = s.freq ∧ t.total = s.total
  | .wsum => t.wsum = s.wsum
  | .wbits S => (t.stream S).wbits = (s.stream S).wbits
  | .rpos S => (t.stream S).rpos = (s.stream S).rpos
  | .bytes S => ∀ a, t.byte S a = s.byte S a
  | .environment => t.host = s.host ∧ t.reads = s.reads ∧ t.draws = s.draws ∧ t.powerOns = s.powerOns

/-- Every part of the state but these is the same in t as in s. -/
def OnlyChanges (parts : List Part) (s t : State) : Prop := ∀ q, q ∉ parts → Unchanged q s t

/-- A command answers a next state that is the error entry for this code and position (60_exceptions.md R234): the error
registers are written, BUSY is 0, and nothing else changes. -/
def Raises (i : Instr) (s : State) (code : BitVec 8) (pos : Nat) : Prop :=
  ∃ t, exec i s = .next t ∧ t.errcode = code ∧ t.errcmd = encode i ∧ t.errpos = BitVec.ofNat 20 pos ∧ t.latched = none ∧
    OnlyChanges [.error, .latch] s t

/-- The parts that a command may change when it completes (the pseudocode of files 40 to 45). -/
def partsWritten : Instr → List Part
  | .nop => []
  | .sreset => [.latch, .ovr, .error, .result, .table, .profile, .wsum, .wbits .P, .rpos .P, .wbits .M, .rpos .M]
  | .clrErr => [.error, .ovr]
  | .pClr => [.wbits .P, .rpos .P]
  | .pRewind => [.rpos .P]
  | .pSetlen _ _ => [.wbits .P, .rpos .P]
  | .pPut _ _ => [.wbits .P, .bytes .P]
  | .pGet _ => [.result, .rpos .P]
  | .pWr _ _ => [.bytes .P]
  | .pRd _ => [.result]
  | .mClr => [.wbits .M, .rpos .M]
  | .mRewind => [.rpos .M]
  | .mSetlen _ _ => [.wbits .M, .rpos .M]
  | .mPut _ _ => [.wbits .M, .bytes .M]
  | .mGet _ => [.result, .rpos .M]
  | .mWr _ _ => [.bytes .M]
  | .mRd _ => [.result]
  | .profClr => [.profile]
  | .profAdd _ _ => [.profile]
  | .freqRd _ => [.result]
  | .flBuild => [.table]
  | .flDec => [.result, .rpos .P]
  | .flMwrite => [.wbits .M, .rpos .M, .bytes .M]
  | .flMread => [.table, .rpos .M]
  | .hufBuild => [.table]
  | .hufDec => [.result, .rpos .P]
  | .hufMwrite => [.wbits .M, .rpos .M, .bytes .M]
  | .hufMread => [.table, .rpos .M]
  | .nodeRd _ => [.result]
  | .nodeWt _ => [.result]
  | .enc _ => [.wbits .P, .bytes .P]
  | .codeLen _ => [.result]
  | .codeRd _ _ => [.result]
  | .wsumCalc => [.wsum, .result]

/-- The bytes that a command stores to when it completes: the buffer, the first address, and the address after the last, computed
from the state before. WR stores one byte (41_bitstream.md R136); an append stores the bytes that hold its bits, from WBITS on
(20_memory.md R66; PUT R134, ENC 45_code_lookup.md R220); the two metadata writers append from bit 0 of a cleared M
(43_fixed_length.md R173, 44_huffman.md R195). -/
def storedRange (i : Instr) (s : State) : Option (StreamId × Nat × Nat) :=
  match i with
  | .nop => none
  | .sreset => none
  | .clrErr => none
  | .pClr => none
  | .pRewind => none
  | .pSetlen _ _ => none
  | .pPut n _ => some (.P, s.p.wbits / 8, bytesOf (s.p.wbits + n.toNat))
  | .pGet _ => none
  | .pWr a _ => some (.P, a.toNat, a.toNat + 1)
  | .pRd _ => none
  | .mClr => none
  | .mRewind => none
  | .mSetlen _ _ => none
  | .mPut n _ => some (.M, s.m.wbits / 8, bytesOf (s.m.wbits + n.toNat))
  | .mGet _ => none
  | .mWr a _ => some (.M, a.toNat, a.toNat + 1)
  | .mRd _ => none
  | .profClr => none
  | .profAdd _ _ => none
  | .freqRd _ => none
  | .flBuild => none
  | .flDec => none
  | .flMwrite => some (.M, 0, bytesOf s.fixedMetadata.length)
  | .flMread => none
  | .hufBuild => none
  | .hufDec => none
  | .hufMwrite => some (.M, 0, bytesOf ((serializeTree s.node Config.nnodeMax s.root.toNat).getD []).length)
  | .hufMread => none
  | .nodeRd _ => none
  | .nodeWt _ => none
  | .enc a => some (.P, s.p.wbits / 8, bytesOf (s.p.wbits + (Table.at s.clen a).toNat))
  | .codeLen _ => none
  | .codeRd _ _ => none
  | .wsumCalc => none

/-- The command stores to the byte of buffer S at this address. -/
def StoresTo (i : Instr) (s : State) (S : StreamId) (a : Nat) : Prop :=
  ∃ first past, storedRange i s = some (S, first, past) ∧ first ≤ a ∧ a < past

/-- The error codes that a legal command word can raise (60_exceptions.md R232). -/
def errorCodes : Instr → List (BitVec 8)
  | .nop => []
  | .sreset => []
  | .clrErr => []
  | .pClr => []
  | .pRewind => []
  | .pSetlen _ _ => [0x0C#8]
  | .pPut _ _ => [0x08#8]
  | .pGet _ => [0x0A#8]
  | .pWr _ _ => [0x0B#8]
  | .pRd _ => [0x0B#8]
  | .mClr => []
  | .mRewind => []
  | .mSetlen _ _ => [0x0C#8]
  | .mPut _ _ => [0x08#8]
  | .mGet _ => [0x0A#8]
  | .mWr _ _ => [0x0B#8]
  | .mRd _ => [0x0B#8]
  | .profClr => []
  | .profAdd _ _ => [0x08#8]
  | .freqRd _ => []
  | .flBuild => [0x06#8]
  | .flDec => [0x02#8, 0x04#8]
  | .flMwrite => [0x02#8]
  | .flMread => [0x03#8]
  | .hufBuild => [0x06#8]
  | .hufDec => [0x02#8, 0x04#8]
  | .hufMwrite => [0x02#8]
  | .hufMread => [0x03#8]
  | .nodeRd _ => [0x02#8, 0x0B#8]
  | .nodeWt _ => [0x02#8, 0x0B#8]
  | .enc _ => [0x02#8, 0x09#8, 0x08#8]
  | .codeLen _ => []
  | .codeRd _ _ => []
  | .wsumCalc => [0x02#8]

/-- The stream that a command reads through a cursor (60_exceptions.md R232: "P.RPOS at command start", "S.RPOS at command
start"). -/
def cursorStream : Instr → StreamId
  | .mGet _ => .M
  | _ => .P

/-- The mode that a command needs is not the one held (92_eei_decisions.md D33). -/
def modeMissing (i : Instr) (s : State) : Prop :=
  match i with
  | .enc _ => s.mode = .none
  | .wsumCalc => s.mode = .none
  | .flDec => s.mode ≠ .fixed
  | .flMwrite => s.mode ≠ .fixed
  | .hufDec => s.mode ≠ .huff
  | .hufMwrite => s.mode ≠ .huff
  | .nodeRd _ => s.mode ≠ .huff
  | .nodeWt _ => s.mode ≠ .huff
  | _ => False

/-! ## The words that statements about both streams and about metadata use -/

/-- P_CLR or M_CLR. -/
def clrCmd : StreamId → Instr
  | .P => .pClr
  | .M => .mClr
/-- P_REWIND or M_REWIND. -/
def rewindCmd : StreamId → Instr
  | .P => .pRewind
  | .M => .mRewind
/-- P_SETLEN or M_SETLEN. -/
def setlenCmd (b : BitVec 21) (p : BitVec 3) : StreamId → Instr
  | .P => .pSetlen b p
  | .M => .mSetlen b p
/-- P_PUT or M_PUT. -/
def putCmd (n : BitVec 5) (v : BitVec 16) : StreamId → Instr
  | .P => .pPut n v
  | .M => .mPut n v
/-- P_GET or M_GET. -/
def getCmd (n : BitVec 5) : StreamId → Instr
  | .P => .pGet n
  | .M => .mGet n
/-- P_WR or M_WR. -/
def wrCmd (a : BitVec 16) (d : Byte) : StreamId → Instr
  | .P => .pWr a d
  | .M => .mWr a d
/-- P_RD or M_RD. -/
def rdCmd (a : BitVec 16) : StreamId → Instr
  | .P => .pRd a
  | .M => .mRd a

/-- The stream bits from position k on are these. -/
def BitsAt (s : State) (S : StreamId) (k : Nat) (bits : List Bool) : Prop :=
  ∀ j (h : j < bits.length), s.bit S (k + j) = bits[j]

/-- The bits of a fixed-length metadata blob: the width in 8 bits, then for each entry the ordinal in 8 bits and the code in w
bits (43_fixed_length.md R173). -/
def fixedBlob (w : Nat) (entries : List (Symbol × Nat)) : List Bool :=
  natToBits 8 w ++ entries.flatMap fun e => natToBits 8 e.1.toNat ++ natToBits w e.2

/-- M holds, from bit 0 to WBITS, the legal fixed-length metadata blob of these entries (43_fixed_length.md R174). -/
structure HoldsFixedBlob (s : State) (w : Nat) (entries : List (Symbol × Nat)) : Prop where
  width_pos : 1 ≤ w
  width_le : w ≤ 8
  nonempty : entries ≠ []
  width_eq : w = codeWidth entries.length
  symbols : (entries.map (·.1)).Nodup
  codes : (entries.map (·.2)).Nodup
  codes_lt : ∀ e ∈ entries, e.2 < 2 ^ w
  length : s.m.wbits = (fixedBlob w entries).length
  bits : BitsAt s .M 0 (fixedBlob w entries)

/-- The bits of a Huffman metadata blob: pre-order, a leaf as 1 and its 8-bit ordinal, an internal node as 0 and its left and
right subtrees (44_huffman.md R195). -/
def Tree.blob : Tree → List Bool
  | .leaf _ a => true :: natToBits 8 a.toNat
  | .node _ l r => false :: (l.blob ++ r.blob)

/-- M holds, from bit 0 to WBITS, the Huffman metadata blob of this tree, whose leaf symbols are distinct (44_huffman.md
R196). -/
structure HoldsHuffBlob (s : State) (t : Tree) : Prop where
  distinct : t.symbols.Nodup
  length : s.m.wbits = t.blob.length
  bits : BitsAt s .M 0 t.blob

/-- Every register and table holds its reset value, and the block is idle and unlocked (70_reset_and_hazards.md R260). The
arena's entries are unspecified, and the buffer bytes are not spoken of here. -/
structure AtReset (t : State) : Prop where
  idle : t.latched = none
  ovr : t.ovr = false
  mode : t.mode = .none
  result : t.result = 0x00000000#32
  errcode : t.errcode = 0x00#8
  errcmd : t.errcmd = 0x00000000#32
  errpos : t.errpos = 0#20
  alpha : t.alpha = 0#9
  width : t.width = 0#4
  root : t.root = 0#9
  nnodes : t.nnodes = 0#10
  maxlen : t.maxlen = 0#8
  freq : ∀ a, Table.at t.freq a = 0#32
  total : t.total = 0x00000000#32
  clen : ∀ a, Table.at t.clen a = 0#8
  cval : ∀ a, Table.at t.cval a = 0#255
  rvalid : ∀ v, Table.at t.rvalid v = false
  rsym : ∀ v, Table.at t.rsym v = 0#8
  wsum : t.wsum = 0#64
  counts : ∀ S, (t.stream S).wbits = 0 ∧ (t.stream S).rpos = 0
  arena : t.arena = []
  status : t.register 0x04#8 = 0x00000000#32
  derived : t.register 0x40#8 = 0x00000000#32 ∧ t.register 0x44#8 = 0x00000000#32 ∧ t.register 0x50#8 = 0x00000000#32 ∧
    t.register 0x54#8 = 0x00000000#32
  constants : t.register 0x58#8 = 0x48544231#32 ∧ t.register 0x5C#8 = BitVec.ofNat 32 t.config.pcap ∧
    t.register 0x60#8 = BitVec.ofNat 32 t.config.mcap

/-- The key of arena node i, (weight, index), is less than that of node j (44_huffman.md R190). -/
def nodeKeyLess (s : State) (i j : Nat) : Prop :=
  (Node.weight (s.node i)).toNat < (Node.weight (s.node j)).toNat ∨
    ((Node.weight (s.node i)).toNat = (Node.weight (s.node j)).toNat ∧ i < j)

/-- Node i is a child of node j. -/
def childOf (s : State) (i j : Nat) : Prop :=
  match s.node j with
  | .leaf _ _ => False
  | .internal _ l r => i = l.toNat ∨ i = r.toNat

/-- Node i is in the builder's work-set when node k is made: it was made before k and no earlier internal node has taken it
(44_huffman.md R191). -/
def inWorkSet (s : State) (k i : Nat) : Prop := i < k ∧ ∀ j < k, ¬ childOf s i j

end Sys2Proof.Machine
end

