-- ==== Sys2Proof/Certificates/Slice0/Obligations.lean ====
section
/-! DEFINITION. The statements for the provers. Each docstring says which rule of spec/ it formalises. Statements about one
command say what it answers on the states and operands that meet the hypotheses, and what it leaves unchanged. -/

open Sys2Proof Sys2Proof.Machine

/-! ## Encoding -/

/-- 30_encoding.md R92, R93, R96: no bit of an encoding is dropped; every well-formed command, every operand at every value. -/
def Obligations.DecodingAnEncodedCommandGivesItBack : Prop :=
  ∀ i : Instr, i.wf = true → decode (encode i) = .ok i

/-- 30_encoding.md R97: "every word is either exactly one command of rule R96 or illegal". -/
def Obligations.EncodingADecodedWordGivesItBack : Prop :=
  ∀ (w : Word) (i : Instr), decode w = .ok i → i.wf = true ∧ encode i = w

/-- 30_encoding.md R98: the decoder is the search of R96's table by match and mask with the range checks, its fields are those
of R93, and no two rows match the same word. -/
def Obligations.DecoderIsTheTableSearch : Prop :=
  (∀ w : Word, (match decode w with
      | .ok i => some (i.mnemonic, i.operands)
      | .error _ => none) = decodeByTable w) ∧
  opcodeTable.Pairwise fun r q => ∀ w : Word, ¬ (r.matches w = true ∧ q.matches w = true)

/-- 30_encoding.md R97: the illegal words, by class, and that each raises ILLEGAL_COMMAND when executed unlocked. -/
def Obligations.IllegalWordsRaiseIllegalCommand : Prop :=
  (∀ w : Word, decode w = .error .unassignedOpcode ↔
    let op := (opcodeOf w).toNat
    (0x03 ≤ op ∧ op ≤ 0x0F) ∨ op = 0x17 ∨ op = 0x1F ∨ (0x23 ≤ op ∧ op ≤ 0x2F) ∨ (0x34 ≤ op ∧ op ≤ 0x3F) ∨
      (0x46 ≤ op ∧ op ≤ 0x4F) ∨ 0x54 ≤ op) ∧
  (∀ w : Word, decode w = .error .reservedBits ↔
    ∃ r ∈ opcodeTable, opcodeOf r.pattern = opcodeOf w ∧ w &&& r.mask ≠ r.pattern) ∧
  (∀ w : Word, decode w = .error .groupWidth ↔
    ∃ r ∈ opcodeTable, (r.format = .G ∨ r.format = .Q) ∧ w &&& r.mask = r.pattern ∧
      ¬ (1 ≤ (fieldN w).toNat ∧ (fieldN w).toNat ≤ 16)) ∧
  (∀ w : Word, decode w = .error .groupValue ↔
    ∃ r ∈ opcodeTable, r.format = .G ∧ w &&& r.mask = r.pattern ∧ 1 ≤ (fieldN w).toNat ∧ (fieldN w).toNat ≤ 16 ∧
      2 ^ (fieldN w).toNat ≤ (fieldV w).toNat) ∧
  (∀ (s : State) (w : Word) (r : Reject), decode w = .error r → s.latched = some w → s.errcode = 0#8 → s.host = [] →
    ∃ t, step s = .next t ∧ t.errcode = 0x07#8 ∧ t.errcmd = w ∧ t.errpos = 0#20 ∧ t.latched = none ∧
      OnlyChanges [.error, .latch] s t)

/-- 30_encoding.md R100, 95_test_vectors.md: words written out from the encodings, one of each family and format. -/
def Obligations.WordsOfEachFormatDecode : Prop :=
  decode 0x00000000#32 = .ok .nop ∧
  decode 0x21000361#32 = .ok (.profAdd 0x61#8 3#16) ∧
  decode 0x12200003#32 = .ok (.pSetlen 3#21 1#3) ∧
  decode 0x1D000562#32 = .ok (.mWr 5#16 0x62#8) ∧
  decode 0x13060033#32 = .ok (.pPut 6#5 0x33#16) ∧
  decode 0x1C090000#32 = .ok (.mGet 9#5) ∧
  decode 0x1E000100#32 = .ok (.mRd 1#16) ∧
  decode 0x31000000#32 = .ok .flDec ∧
  decode 0x440001FF#32 = .ok (.nodeRd 511#9) ∧
  decode 0x520007FE#32 = .ok (.codeRd 0xFE#8 7#3) ∧
  decode 0x50000061#32 = .ok (.enc 0x61#8) ∧
  decode 0x13020004#32 = .error .groupValue ∧
  decode 0x1E000101#32 = .error .reservedBits

/-! ## The step and the host port -/

/-- 10_state.md R36: a step with a latched legal word, the host waiting or doing nothing more, is that command's meaning at
that state, after which BUSY is 0. -/
def Obligations.StepRunsTheLatchedCommand : Prop :=
  ∀ (s : State) (w : Word) (i : Instr), s.latched = some w → decode w = .ok i →
    (s.host = [] → step s = complete (exec i s)) ∧
    (∀ rest, s.host = .awaitIdle :: rest → step s = complete (exec i (s.setHost rest))) ∧
    (∀ t, complete (.next t) = .next (t.setLatched none)) ∧
    (∀ f, complete (.fault f) = .fault f)

/-- 10_state.md R36: the command lifecycle. The three outcomes of a CMD write; the run of a latched word by its rule in the state
that holds it, an unassigned or malformed one raising ILLEGAL_COMMAND, after which BUSY = 0; and what a host read returns in any
state, while BUSY = 1 (unspecified values are free values, log 5) and while BUSY = 0. The host's event list is log 6. -/
def Obligations.CmdWriteFollowsTheLifecycle : Prop :=
  (∀ (s : State) (w : Word) (rest : List HostEvent), s.host = .write 32 0x00#8 w :: rest →
    (s.busy = true → ∃ t, step s = .next t ∧ t.ovr = true ∧ t.host = rest ∧ OnlyChanges [.ovr, .environment] s t) ∧
    (s.busy = false → s.errcode ≠ 0#8 → w ∉ [0x00000000#32, 0x01000000#32, 0x02000000#32] →
      step s = .next (s.setHost rest)) ∧
    (s.busy = false → (s.errcode = 0#8 ∨ w ∈ [0x00000000#32, 0x01000000#32, 0x02000000#32]) →
      ∃ t, step s = .next t ∧ t.latched = some w ∧ t.busy = true ∧ t.host = rest ∧
        OnlyChanges [.latch, .environment] s t)) ∧
  (∀ (s : State) (w : Word), s.latched = some w →
    (s.host = [] → step s = runCommand w s) ∧
    (∀ rest, s.host = .awaitIdle :: rest → step s = runCommand w (s.setHost rest))) ∧
  (∀ (w : Word) (s : State),
    (∀ i t, decode w = .ok i → exec i s = .next t → runCommand w s = .next (t.setLatched none)) ∧
    (∀ r, decode w = .error r → ∃ t, runCommand w s = .next t ∧ t.errcode = 0x07#8 ∧ t.errcmd = w ∧ t.errpos = 0#20 ∧
      t.busy = false ∧ OnlyChanges [.error, .latch] s t) ∧
    (∀ t, runCommand w s = .next t → t.busy = false)) ∧
  (∀ s : State, s.busy = true →
    (s.hostValue 0x04#8).getLsbD 0 = true ∧ (s.hostValue 0x04#8).getLsbD 2 = s.ovr ∧
    ∀ offset : BitVec 8, offset ≠ 0x04#8 → offset.toNat < 0x64 → s.hostValue offset = Config.busyRead s.draws offset) ∧
  (∀ (s : State) (offset : BitVec 8), 0x64 ≤ offset.toNat → s.hostValue offset = 0x00000000#32) ∧
  (∀ s : State, s.busy = false → ∀ offset, s.hostValue offset = s.register offset)

/-- 60_exceptions.md R235: a word written to CMD while locked and idle is latched only if it is one of the three control
words; any other word changes no state at all. -/
def Obligations.LockedBlockDropsEveryOtherWord : Prop :=
  ∀ (s : State) (w : Word) (rest : List HostEvent), s.host = .write 32 0x00#8 w :: rest → s.latched = none →
    s.errcode ≠ 0#8 →
    ((w = 0x00000000#32 ∨ w = 0x01000000#32 ∨ w = 0x02000000#32) → ∃ t, step s = .next t ∧ t.latched = some w ∧
      t.host = rest ∧ OnlyChanges [.latch, .environment] s t ∧ (rest = [] → step t = runCommand w t)) ∧
    (¬ (w = 0x00000000#32 ∨ w = 0x01000000#32 ∨ w = 0x02000000#32) → step s = .next (s.setHost rest))

/-- 60_exceptions.md R237: while locked, no step but the run of CLR_ERR or SRESET and a power-on reset changes the error
registers, so ERRCODE holds the first error; the premise is LockOk, an invariant (StepKeepsEveryInvariant). -/
def Obligations.LockKeepsTheFirstError : Prop :=
  ∀ (s t : State), LockOk s → s.errcode ≠ 0#8 → step s = .next t →
    LockOk t ∧
    ((t.errcode = s.errcode ∧ t.errcmd = s.errcmd ∧ t.errpos = s.errpos) ∨
      (t.errcode = 0#8 ∧ t.ovr = false ∧
        (s.latched = some 0x01000000#32 ∨ s.latched = some 0x02000000#32 ∨ s.host.head? = some .powerOn)))

/-- 20_memory.md R73: a host read changes no state of the block, and reading the same register twice with no command between
returns the same value. Where the read value goes is the model's own (log 6). -/
def Obligations.HostReadHasNoSideEffect : Prop :=
  ∀ (s : State) (offset : BitVec 8) (rest : List HostEvent), offset.toNat % 4 = 0 →
    s.host = .read 32 offset :: .read 32 offset :: rest →
    ∃ t u, step s = .next t ∧ step t = .next u ∧ u.reads = s.hostValue offset :: s.hostValue offset :: s.reads ∧
      u.host = rest ∧ u.draws = s.draws ∧ u.powerOns = s.powerOns ∧
      OnlyChanges [.environment] s t ∧ OnlyChanges [.environment] s u

/-- 10_state.md R24: a host write to any offset but 0x00 is ignored. -/
def Obligations.WriteToAnyOffsetButCmdIsIgnored : Prop :=
  ∀ (s : State) (offset : BitVec 8) (x : Word) (rest : List HostEvent), offset.toNat % 4 = 0 → offset ≠ 0x00#8 →
    s.host = .write 32 offset x :: rest → step s = .next (s.setHost rest)

/-- 20_memory.md R71: an access of another width, or at an offset that is not a multiple of 4, is refused. -/
def Obligations.UndefinedHostAccessIsRefused : Prop :=
  ∀ (s : State) (bits : Nat) (offset : BitVec 8) (x : Word) (rest : List HostEvent),
    (bits ≠ 32 ∨ offset.toNat % 4 ≠ 0) →
    (s.host = .write bits offset x :: rest → step s = .refused .undefinedHostAccess) ∧
    (s.host = .read bits offset :: rest → step s = .refused .undefinedHostAccess)

/-- 10_state.md R24 and R37: in a state that meets the invariants, the bits of each register above its used bits read 0, the
streams' counts, the derived registers and the constants are read exactly, CMD and the reserved offsets read 0. -/
def Obligations.RegistersReadZeroAboveTheirUsedBits : Prop :=
  ∀ s : State, Inv s →
    (s.register 0x00#8).toNat = 0 ∧ (s.register 0x04#8).toNat < 2 ^ 6 ∧ (s.register 0x04#8).getLsbD 3 = false ∧
    (s.register 0x0C#8).toNat < 2 ^ 8 ∧ (s.register 0x14#8).toNat < 2 ^ 20 ∧ (s.register 0x18#8).toNat ≤ 256 ∧
    (s.register 0x1C#8).toNat < 2 ^ 4 ∧ (s.register 0x20#8).toNat < 2 ^ 9 ∧ (s.register 0x24#8).toNat < 2 ^ 10 ∧
    (s.register 0x28#8).toNat < 2 ^ 8 ∧ (s.register 0x34#8).toNat < 2 ^ 8 ∧
    (s.register 0x38#8).toNat = s.p.wbits ∧ (s.register 0x38#8).toNat < 2 ^ 20 ∧
    (s.register 0x3C#8).toNat = s.p.rpos ∧ (s.register 0x3C#8).toNat < 2 ^ 20 ∧
    (s.register 0x40#8).toNat = (s.p.wbits + 7) / 8 ∧ (s.register 0x40#8).toNat < 2 ^ 17 ∧
    (s.register 0x44#8).toNat = (8 - s.p.wbits % 8) % 8 ∧ (s.register 0x44#8).toNat < 2 ^ 3 ∧
    (s.register 0x48#8).toNat = s.m.wbits ∧ (s.register 0x48#8).toNat < 2 ^ 20 ∧
    (s.register 0x4C#8).toNat = s.m.rpos ∧ (s.register 0x4C#8).toNat < 2 ^ 20 ∧
    (s.register 0x50#8).toNat = (s.m.wbits + 7) / 8 ∧ (s.register 0x50#8).toNat < 2 ^ 17 ∧
    (s.register 0x54#8).toNat = (8 - s.m.wbits % 8) % 8 ∧ (s.register 0x54#8).toNat < 2 ^ 3 ∧
    s.register 0x58#8 = 0x48544231#32 ∧
    (s.register 0x5C#8).toNat = s.config.pcap ∧ (s.register 0x5C#8).toNat < 2 ^ 17 ∧
    (s.register 0x60#8).toNat = s.config.mcap ∧ (s.register 0x60#8).toNat < 2 ^ 17 ∧
    (∀ offset : BitVec 8, 0x64 ≤ offset.toNat → s.register offset = 0x00000000#32)

/-- 10_state.md R25: the fields of STATUS while BUSY = 0 and what each reads; MODE never reads 3; every other bit reads 0. -/
def Obligations.StatusReadsItsFields : Prop :=
  ∀ s : State,
    (s.register 0x04#8).getLsbD 0 = s.latched.isSome ∧
    ((s.register 0x04#8).getLsbD 1 = true ↔ s.errcode ≠ 0#8) ∧
    (s.register 0x04#8).getLsbD 2 = s.ovr ∧
    ((s.register 0x04#8).extractLsb' 4 2).toNat = (match s.mode with | .none => 0 | .fixed => 1 | .huff => 2) ∧
    (∀ k, k ≠ 0 → k ≠ 1 → k ≠ 2 → k ≠ 4 → k ≠ 5 → (s.register 0x04#8).getLsbD k = false)

/-! ## Reset and the control commands -/

/-- 70_reset_and_hazards.md R260, both columns, for an instance with any parameters: power-on reset, and SRESET, which keeps the
buffer bytes. After power-on the buffer bytes are unspecified: each is the free value of its address and of this power-on (the
model's form, log 3; an arena with no entry is log 4, power-on as an event that can come at any step is log 9). The reserved
offsets read 0 at all times, and the constants read the same whenever BUSY = 0. -/
def Obligations.EveryItemHoldsItsResetValue : Prop :=
  State.reset = State.resetOf { pcap := 65536, mcap := 1024 } ∧
  (∀ c, AtReset (State.resetOf c) ∧ (State.resetOf c).config = c ∧
    ∀ S a, (State.resetOf c).byte S a = Config.powerOnByte 0 S a) ∧
  (∀ (s : State) (rest : List HostEvent), s.host = .powerOn :: rest → ∃ t, step s = .next t ∧ AtReset t ∧
    t.config = s.config ∧ ∀ S a, t.byte S a = Config.powerOnByte (s.powerOns + 1) S a) ∧
  (∀ s : State, ∃ t, exec .sreset s = .next t ∧ AtReset t ∧ t.config = s.config ∧ (∀ S a, t.byte S a = s.byte S a) ∧
    Unchanged .environment s t) ∧
  (∀ (s : State) (offset : BitVec 8), 0x64 ≤ offset.toNat → s.hostValue offset = 0x00000000#32) ∧
  (∀ s : State, s.busy = false → s.hostValue 0x58#8 = 0x48544231#32 ∧
    s.hostValue 0x5C#8 = BitVec.ofNat 32 s.config.pcap ∧ s.hostValue 0x60#8 = BitVec.ofNat 32 s.config.mcap)

/-- 40_control.md R120 and R122, 60_exceptions.md R236: NOP has no effect, locked or not; CLR_ERR is the return from an
error. -/
def Obligations.NopAndClrErrDoOnlyTheirEffect : Prop :=
  ∀ s : State, exec .nop s = .next s ∧
    ∃ t, exec .clrErr s = .next t ∧ t.errcode = 0x00#8 ∧ t.errcmd = 0x00000000#32 ∧ t.errpos = 0#20 ∧
      t.ovr = false ∧ OnlyChanges [.error, .ovr] s t

/-! ## Errors and frames, over every command -/

/-- 60_exceptions.md R234: errors are precise. Whatever a command but SRESET and CLR_ERR answers, either the error registers
are as they were, or the state is the one before the command except for the three error registers, with the command's own
word in ERRCMD and BUSY = 0. -/
def Obligations.ErrorsArePrecise : Prop :=
  ∀ (i : Instr) (s t : State), i ≠ .sreset → i ≠ .clrErr → exec i s = .next t →
    (t.errcode = s.errcode ∧ t.errcmd = s.errcmd ∧ t.errpos = s.errpos ∧ t.latched = s.latched) ∨
    (t.errcode ≠ 0#8 ∧
      t = { s with errcode := t.errcode, errcmd := encode i, errpos := t.errpos, latched := none })

/-- 60_exceptions.md R232: a legal command raises only the errors that the table gives it, ERRCMD records its whole word,
and ERRPOS is the read cursor at its start for STREAM_UNDERRUN and CORRUPT_DATA and 0 for every other error. -/
def Obligations.EachCommandRaisesOnlyItsErrors : Prop :=
  ∀ (i : Instr) (s t : State), i.wf = true → s.errcode = 0#8 → exec i s = .next t → t.errcode ≠ 0#8 →
    t.errcode ∈ errorCodes i ∧ t.errcmd = encode i ∧
    t.errpos = (if t.errcode = 0x0A#8 ∨ t.errcode = 0x04#8 then BitVec.ofNat 20 (s.stream (cursorStream i)).rpos else 0#20)

/-- 92_eei_decisions.md D33 and 60_exceptions.md R233: from an unlocked state a legal command raises UNINITIALIZED_STATE
exactly when the mode it needs is missing, whatever else fails. -/
def Obligations.UninitializedExactlyWhenTheModeIsMissing : Prop :=
  ∀ (i : Instr) (s : State), i.wf = true → s.errcode = 0#8 →
    (Raises i s 0x02#8 0 ↔ modeMissing i s)

/-- The frame of every command (files 40 to 45): when it answers a next state, either it has raised an error and changed
nothing else, or it has changed only the parts that its rule writes, and of the buffers only the bytes that it stores to: the
addressed byte for WR, the bytes that hold the appended bits for PUT, ENC, FL_MWRITE and HUF_MWRITE (storedRange, computed
from the state before). -/
def Obligations.EveryCommandChangesOnlyWhatItWrites : Prop :=
  ∀ (i : Instr) (s t : State), exec i s = .next t →
    (OnlyChanges (partsWritten i) s t ∧ ∀ S a, ¬ StoresTo i s S a → t.byte S a = s.byte S a) ∨
    (t.errcode ≠ 0#8 ∧ t.errcmd = encode i ∧ t.latched = none ∧ OnlyChanges [.error, .latch] s t)

/-- 92_eei_decisions.md D27: only the commands that return a value write RESULT; every other command, and a command that
raises, leaves it unchanged (SRESET resets it). -/
def Obligations.OnlyValueCommandsWriteResult : Prop :=
  ∀ (i : Instr) (s t : State), exec i s = .next t → i ≠ .sreset → t.result ≠ s.result →
    t.errcode = s.errcode ∧
    ((∃ n, i = .pGet n) ∨ (∃ n, i = .mGet n) ∨ (∃ a, i = .pRd a) ∨ (∃ a, i = .mRd a) ∨ (∃ a, i = .freqRd a) ∨ i = .flDec ∨
      i = .hufDec ∨ (∃ j, i = .nodeRd j) ∨ (∃ j, i = .nodeWt j) ∨ (∃ a, i = .codeLen a) ∨ (∃ a c, i = .codeRd a c) ∨
      i = .wsumCalc)

/-! ## The bit streams -/

/-- 20_memory.md R64 and R65: StreamBit(S, k) is bit 7 - (k mod 8) of byte k div 8, and StreamBits(S, k, n) is the sum of its
bits, the first most significant. -/
def Obligations.StreamBitsAreMostSignificantFirst : Prop :=
  ∀ (s : State) (S : StreamId) (k n : Nat),
    (s.bit S k).toNat = (s.byte S (k / 8)).toNat / 2 ^ (7 - k % 8) % 2 ∧
    s.number S k n = ((List.range n).map fun j => (s.bit S (k + j)).toNat * 2 ^ (n - 1 - j)).sum

/-- 41_bitstream.md R131 (P_CLR R140, M_CLR R147) and R132 (P_REWIND R141, M_REWIND R148). -/
def Obligations.ClrEmptiesAndRewindRestartsTheStream : Prop :=
  ∀ (S : StreamId) (s : State),
    (∃ t, exec (clrCmd S) s = .next t ∧ (t.stream S).wbits = 0 ∧ (t.stream S).rpos = 0 ∧
      OnlyChanges [.wbits S, .rpos S] s t) ∧
    (∃ t, exec (rewindCmd S) s = .next t ∧ (t.stream S).rpos = 0 ∧ OnlyChanges [.rpos S] s t)

/-- 41_bitstream.md R133 (P_SETLEN R142, M_SETLEN R149): 8·b - p bits, or BAD_LENGTH. -/
def Obligations.SetlenDeclaresTheLength : Prop :=
  ∀ (S : StreamId) (b : BitVec 21) (p : BitVec 3) (s : State),
    ((b.toNat ≤ s.config.cap S ∧ ¬ (b.toNat = 0 ∧ p.toNat ≠ 0)) →
      ∃ t, exec (setlenCmd b p S) s = .next t ∧ (t.stream S).wbits + p.toNat = 8 * b.toNat ∧ (t.stream S).rpos = 0 ∧
        OnlyChanges [.wbits S, .rpos S] s t) ∧
    ((s.config.cap S < b.toNat ∨ (b.toNat = 0 ∧ p.toNat ≠ 0)) → Raises (setlenCmd b p S) s 0x0C#8 0)

/-- 41_bitstream.md R134 with 20_memory.md R66, R67 (P_PUT R143, M_PUT R150): the n bits of v stand at WBITS and on, most
significant first, every earlier stream bit is kept, the rest of the last byte is filler 0, and no byte outside the bytes that
hold the new bits changes; a group that does not fit raises CAPACITY_EXCEEDED. -/
def Obligations.PutAppendsTheGroup : Prop :=
  ∀ (S : StreamId) (n : BitVec 5) (v : BitVec 16) (s : State), 1 ≤ n.toNat → n.toNat ≤ 16 → v.toNat < 2 ^ n.toNat →
    ((s.stream S).wbits + n.toNat ≤ 8 * s.config.cap S →
      ∃ t, exec (putCmd n v S) s = .next t ∧ (t.stream S).wbits = (s.stream S).wbits + n.toNat ∧
        (∀ k, k < (s.stream S).wbits → t.bit S k = s.bit S k) ∧
        (∀ j, j < n.toNat → t.bit S ((s.stream S).wbits + j) = v.getLsbD (n.toNat - 1 - j)) ∧
        (∀ k, (t.stream S).wbits ≤ k → k < 8 * bytesOf (t.stream S).wbits → t.bit S k = false) ∧
        (∀ a, (a < (s.stream S).wbits / 8 ∨ bytesOf (t.stream S).wbits ≤ a) → t.byte S a = s.byte S a) ∧
        OnlyChanges [.wbits S, .bytes S] s t) ∧
    (8 * s.config.cap S < (s.stream S).wbits + n.toNat → Raises (putCmd n v S) s 0x08#8 0)

/-- 41_bitstream.md R135 (P_GET R144, M_GET R151): the next n bits as a number, first bit most significant, or
STREAM_UNDERRUN with the cursor. -/
def Obligations.GetConsumesTheNextBits : Prop :=
  ∀ (S : StreamId) (n : BitVec 5) (s : State), 1 ≤ n.toNat → n.toNat ≤ 16 →
    (n.toNat ≤ (s.stream S).wbits - (s.stream S).rpos →
      ∃ t, exec (getCmd n S) s = .next t ∧ (t.stream S).rpos = (s.stream S).rpos + n.toNat ∧
        (∀ j, j < n.toNat → t.result.getLsbD (n.toNat - 1 - j) = s.bit S ((s.stream S).rpos + j)) ∧
        t.result.toNat < 2 ^ n.toNat ∧ OnlyChanges [.result, .rpos S] s t) ∧
    ((s.stream S).wbits - (s.stream S).rpos < n.toNat → Raises (getCmd n S) s 0x0A#8 (s.stream S).rpos)

/-- The model's own choice (log 8): exec of an ill-formed PUT or GET term, which no legal word stands for and no step runs, raises
ILLEGAL_COMMAND before any other check, as the illegal word of that width and value does (IllegalWordsRaiseIllegalCommand states
the rule for words). -/
def Obligations.IllegalGroupsRaiseIllegalCommand : Prop :=
  ∀ (S : StreamId) (n : BitVec 5) (v : BitVec 16) (s : State),
    ((n.toNat = 0 ∨ 16 < n.toNat ∨ 2 ^ n.toNat ≤ v.toNat) → Raises (putCmd n v S) s 0x07#8 0) ∧
    ((n.toNat = 0 ∨ 16 < n.toNat) → Raises (getCmd n S) s 0x07#8 0)

/-- 20_memory.md R83: first in, first out. With the cursor at the end of the stream, the group that a PUT appends is the value
that the next GET of its width returns. -/
def Obligations.PutThenGetReturnsTheGroup : Prop :=
  ∀ (S : StreamId) (n : BitVec 5) (v : BitVec 16) (s : State), 1 ≤ n.toNat → n.toNat ≤ 16 → v.toNat < 2 ^ n.toNat →
    (s.stream S).wbits + n.toNat ≤ 8 * s.config.cap S → (s.stream S).rpos = (s.stream S).wbits →
    ∃ t u, exec (putCmd n v S) s = .next t ∧ exec (getCmd n S) t = .next u ∧ u.result = v.setWidth 32 ∧
      (u.stream S).rpos = (u.stream S).wbits

/-- 41_bitstream.md R136 (P_WR R145, M_WR R152): one byte written, every other byte, both counts and all else unchanged, or
BAD_ADDRESS. -/
def Obligations.WrWritesOneByte : Prop :=
  ∀ (S : StreamId) (a : BitVec 16) (d : Byte) (s : State),
    (a.toNat < s.config.cap S → ∃ t, exec (wrCmd a d S) s = .next t ∧ t.byte S a.toNat = d ∧
      (∀ x, x ≠ a.toNat → t.byte S x = s.byte S x) ∧ OnlyChanges [.bytes S] s t) ∧
    (s.config.cap S ≤ a.toNat → Raises (wrCmd a d S) s 0x0B#8 0)

/-- 41_bitstream.md R137 (P_RD R146, M_RD R153): RESULT is the byte, whatever the stream's length, or BAD_ADDRESS; so a byte
just written reads back. -/
def Obligations.RdReadsOneByte : Prop :=
  ∀ (S : StreamId) (a : BitVec 16) (s : State),
    (a.toNat < s.config.cap S → ∃ t, exec (rdCmd a S) s = .next t ∧ t.result.toNat = (s.byte S a.toNat).toNat ∧
      OnlyChanges [.result] s t) ∧
    (s.config.cap S ≤ a.toNat → Raises (rdCmd a S) s 0x0B#8 0) ∧
    (∀ (d : Byte) (t u : State), exec (wrCmd a d S) s = .next t → t.errcode = 0#8 → s.errcode = 0#8 →
      exec (rdCmd a S) t = .next u → u.result = d.setWidth 32)

/-- 41_bitstream.md R130: opcode bit 27 selects the stream and bits 26:24 the operation, 7 being illegal; no stream command
has a MODE requirement, and none touches the other stream, the tables, MODE or FREQ. -/
def Obligations.StreamCommandsTouchOneStream : Prop :=
  ∀ (S : StreamId) (b : BitVec 21) (p : BitVec 3) (n : BitVec 5) (v : BitVec 16) (a : BitVec 16) (d : Byte) (k : Nat) (i : Instr),
    [clrCmd S, rewindCmd S, setlenCmd b p S, putCmd n v S, getCmd n S, wrCmd a d S, rdCmd a S][k]? = some i →
    (encode i).extractLsb' 28 4 = 1#4 ∧ (encode i).getLsbD 27 = decide (S = .M) ∧ ((encode i).extractLsb' 24 3).toNat = k ∧
    (∀ w : Word, w.extractLsb' 28 4 = 1#4 → w.extractLsb' 24 3 = 7#3 → decode w = .error .unassignedOpcode) ∧
    ∀ (s t : State), exec i s = .next t →
      (s.errcode = 0#8 → t.errcode ≠ 0x02#8) ∧ OnlyChanges [.error, .latch, .result, .wbits S, .rpos S, .bytes S] s t

/-- 20_memory.md R86: two states that differ only in buffer contents outside the streams (bits at positions WBITS and above)
are told apart by no command, P_RD and M_RD apart: whatever one answers, the other answers the same but for buffer bytes. The
premise on the cursor is an invariant (R33; StepKeepsEveryInvariant). -/
def Obligations.BitsBeyondTheStreamNeverMatter : Prop :=
  ∀ (i : Instr) (s s' t : State), (∀ a, i ≠ .pRd a) → (∀ a, i ≠ .mRd a) → s.p.rpos ≤ s.p.wbits →
    (∀ q, (∀ S, q ≠ .bytes S) → Unchanged q s s') →
    (∀ S k, k < (s.stream S).wbits → s'.bit S k = s.bit S k) →
    exec i s = .next t →
    ∃ t', exec i s' = .next t' ∧ ∀ q, (∀ S, q ≠ .bytes S) → Unchanged q t t'

/-! ## The symbol profiler -/

/-- 42_profiler.md R160. -/
def Obligations.ProfClrClearsEveryCounter : Prop :=
  ∀ s : State, ∃ t, exec .profClr s = .next t ∧ (∀ a, Table.at t.freq a = 0x00000000#32) ∧ t.total = 0x00000000#32 ∧
    OnlyChanges [.profile] s t

/-- 42_profiler.md R161: FREQ[s] and TOTAL grow by k, exactly, or CAPACITY_EXCEEDED. The counter cannot overflow because TOTAL
is the sum of all counters (TotalOk, an invariant: TotalIsAlwaysTheSum). -/
def Obligations.ProfAddCountsK : Prop :=
  ∀ (a : Symbol) (k : BitVec 16) (s : State), TotalOk s →
    (s.total.toNat + k.toNat ≤ 2 ^ 32 - 1 →
      ∃ t, exec (.profAdd a k) s = .next t ∧ (Table.at t.freq a).toNat = (Table.at s.freq a).toNat + k.toNat ∧
        (∀ b, b ≠ a → Table.at t.freq b = Table.at s.freq b) ∧ t.total.toNat = s.total.toNat + k.toNat ∧
        OnlyChanges [.profile] s t) ∧
    (2 ^ 32 - 1 < s.total.toNat + k.toNat → Raises (.profAdd a k) s 0x08#8 0)

/-- 42_profiler.md R162. -/
def Obligations.FreqRdReturnsTheCounter : Prop :=
  ∀ (a : Symbol) (s : State), ∃ t, exec (.freqRd a) s = .next t ∧ t.result = Table.at s.freq a ∧ OnlyChanges [.result] s t

/-- 10_state.md R27: TOTAL always equals the sum of all FREQ entries, and is 0 at reset. -/
def Obligations.TotalIsAlwaysTheSum : Prop :=
  TotalOk State.reset ∧ ∀ s t : State, TotalOk s → step s = .next t → TotalOk t

/-! ## The fixed-length codec -/

/-- 00_scope.md R9: the width function, on 1 to 256. -/
def Obligations.WidthIsTheCeilingOfLog2 : Prop :=
  codeWidth 1 = 1 ∧
  (∀ n, 2 ≤ n → n ≤ 256 → n ≤ 2 ^ codeWidth n ∧ 2 ^ (codeWidth n - 1) < n) ∧
  (∀ n, 2 ≤ n → n ≤ 256 → (n - 1).testBit (codeWidth n - 1) = true ∧ n - 1 < 2 ^ codeWidth n) ∧
  (∀ n, 1 ≤ n → n ≤ 256 → 1 ≤ codeWidth n ∧ codeWidth n ≤ 8) ∧
  codeWidth 2 = 1 ∧ codeWidth 3 = 2 ∧ codeWidth 4 = 2 ∧ codeWidth 5 = 3 ∧ codeWidth 8 = 3 ∧ codeWidth 9 = 4 ∧
  codeWidth 16 = 4 ∧ codeWidth 17 = 5 ∧ codeWidth 32 = 5 ∧ codeWidth 33 = 6 ∧ codeWidth 64 = 6 ∧ codeWidth 65 = 7 ∧
  codeWidth 128 = 7 ∧ codeWidth 129 = 8 ∧ codeWidth 256 = 8

/-- 43_fixed_length.md R170 (b): the ranks number the alphabet as 0 to n - 1, in descending frequency with ties in ascending
ordinal. -/
def Obligations.RanksNumberTheAlphabet : Prop :=
  ∀ freq : Table Word,
    (∀ a ∈ alphabet freq, rank freq a < (alphabet freq).length) ∧
    (∀ r < (alphabet freq).length, ∃ a ∈ alphabet freq, rank freq a = r) ∧
    (∀ a ∈ alphabet freq, ∀ b ∈ alphabet freq, rank freq a < rank freq b ↔
      ((Table.at freq b).toNat < (Table.at freq a).toNat ∨
        ((Table.at freq b).toNat = (Table.at freq a).toNat ∧ a.toNat < b.toNat)))

/-- 43_fixed_length.md R171: FL_BUILD replaces the table by the ranks in width(n) bits, or raises EMPTY_INPUT. -/
def Obligations.FlBuildAssignsTheRanks : Prop :=
  ∀ s : State,
    ((∃ a, Table.at s.freq a ≠ 0#32) →
      ∃ t, exec .flBuild s = .next t ∧ t.mode = .fixed ∧ t.alpha.toNat = (alphabet s.freq).length ∧
        t.width.toNat = codeWidth (alphabet s.freq).length ∧ t.maxlen.toNat = codeWidth (alphabet s.freq).length ∧
        t.root = 0#9 ∧ t.nnodes = 0#10 ∧
        (∀ a, Table.at s.freq a ≠ 0#32 → (Table.at t.clen a).toNat = t.width.toNat ∧
          (Table.at t.cval a).toNat = rank s.freq a ∧
          Table.at t.rvalid (BitVec.ofNat 8 (rank s.freq a)) = true ∧ Table.at t.rsym (BitVec.ofNat 8 (rank s.freq a)) = a) ∧
        (∀ a, Table.at s.freq a = 0#32 → Table.at t.clen a = 0#8 ∧ Table.at t.cval a = 0#255) ∧
        (∀ v : BitVec 8, (alphabet s.freq).length ≤ v.toNat → Table.at t.rvalid v = false ∧ Table.at t.rsym v = 0#8) ∧
        OnlyChanges [.table] s t) ∧
    ((∀ a, Table.at s.freq a = 0#32) → Raises .flBuild s 0x06#8 0)

/-- 43_fixed_length.md R172: FL_DEC. The group is read forward, most significant bit first; v is its value. -/
def Obligations.FlDecDecodesOneGroup : Prop :=
  ∀ s : State,
    (s.mode ≠ .fixed → Raises .flDec s 0x02#8 0) ∧
    (s.mode = .fixed → s.p.rpos = s.p.wbits →
      ∃ t, exec .flDec s = .next t ∧ t.result = 0x00000100#32 ∧ OnlyChanges [.result] s t) ∧
    (s.mode = .fixed → s.p.rpos < s.p.wbits → s.p.wbits - s.p.rpos < s.width.toNat → Raises .flDec s 0x04#8 s.p.rpos) ∧
    (∀ v : BitVec 8, s.mode = .fixed → s.p.rpos < s.p.wbits → s.width.toNat ≤ s.p.wbits - s.p.rpos →
      v.toNat < 2 ^ s.width.toNat → BitsAt s .P s.p.rpos (natToBits s.width.toNat v.toNat) →
      (Table.at s.rvalid v = false → Raises .flDec s 0x04#8 s.p.rpos) ∧
      (Table.at s.rvalid v = true → ∃ t, exec .flDec s = .next t ∧ t.result.toNat = (Table.at s.rsym v).toNat ∧
        t.p.rpos = s.p.rpos + s.width.toNat ∧ OnlyChanges [.result, .rpos .P] s t))

/-- 43_fixed_length.md R173: FL_MWRITE writes the width and then, in ascending code value, the ordinal and the code of every
valid reverse entry, from bit 0 of a cleared M. FixedOk is the invariant of MODE FIXED. -/
def Obligations.FlMwriteSerializesTheTable : Prop :=
  ∀ s : State,
    (s.mode ≠ .fixed → Raises .flMwrite s 0x02#8 0) ∧
    (s.mode = .fixed → FixedOk s →
      ∃ t entries, exec .flMwrite s = .next t ∧
        entries = ((List.range (2 ^ s.width.toNat)).filter fun c => Table.at s.rvalid (BitVec.ofNat 8 c)).map
          (fun c => (Table.at s.rsym (BitVec.ofNat 8 c), c)) ∧
        t.m.wbits = 8 + s.alpha.toNat * (8 + s.width.toNat) ∧ t.m.rpos = 0 ∧
        t.m.wbits = (fixedBlob s.width.toNat entries).length ∧ BitsAt t .M 0 (fixedBlob s.width.toNat entries) ∧
        (∀ a, bytesOf t.m.wbits ≤ a → t.byte .M a = s.byte .M a) ∧
        OnlyChanges [.wbits .M, .rpos .M, .bytes .M] s t)

/-- 43_fixed_length.md R174: FL_MREAD loads exactly the legal blobs, in any order of entries and with any distinct codes, and
raises CORRUPT_METADATA for anything else, the old table kept. -/
def Obligations.FlMreadLoadsExactlyTheLegalBlobs : Prop :=
  ∀ s : State,
    (∀ (w : Nat) (entries : List (Symbol × Nat)), HoldsFixedBlob s w entries →
      ∃ t, exec .flMread s = .next t ∧ t.mode = .fixed ∧ t.alpha.toNat = entries.length ∧ t.width.toNat = w ∧
        t.maxlen.toNat = w ∧ t.root = 0#9 ∧ t.nnodes = 0#10 ∧
        (∀ e ∈ entries, (Table.at t.clen e.1).toNat = w ∧ (Table.at t.cval e.1).toNat = e.2 ∧
          Table.at t.rvalid (BitVec.ofNat 8 e.2) = true ∧ Table.at t.rsym (BitVec.ofNat 8 e.2) = e.1) ∧
        (∀ a, a ∉ entries.map (·.1) → Table.at t.clen a = 0#8 ∧ Table.at t.cval a = 0#255) ∧
        (∀ v : BitVec 8, v.toNat ∉ entries.map (·.2) → Table.at t.rvalid v = false ∧ Table.at t.rsym v = 0#8) ∧
        t.m.rpos = s.m.wbits ∧ OnlyChanges [.table, .rpos .M] s t) ∧
    ((¬ ∃ w entries, HoldsFixedBlob s w entries) → Raises .flMread s 0x03#8 0)

/-- 43_fixed_length.md R175, R176: a table written by FL_MWRITE loads back as it was. -/
def Obligations.FlMreadRestoresTheWrittenTable : Prop :=
  ∀ s : State, s.mode = .fixed → FixedOk s →
    ∃ t u, exec .flMwrite s = .next t ∧ exec .flMread t = .next u ∧ Unchanged .table s u ∧ u.m.rpos = u.m.wbits

/-- 43_fixed_length.md R175: ENC s followed by FL_DEC at the same position returns s. -/
def Obligations.EncThenFlDecReturnsTheSymbol : Prop :=
  ∀ (s : State) (a : Symbol), s.mode = .fixed → FixedOk s → Table.at s.clen a ≠ 0#8 → s.p.rpos = s.p.wbits →
    s.p.wbits + s.width.toNat ≤ 8 * s.config.pcap →
    ∃ t u, exec (.enc a) s = .next t ∧ exec .flDec t = .next u ∧ u.result.toNat = a.toNat ∧
      u.p.rpos = u.p.wbits ∧ u.p.wbits = s.p.wbits + s.width.toNat

/-! ## The Huffman codec -/

/-- 44_huffman.md R191: HUF_BUILD. Leaf j is the j-th symbol of the alphabet with its count, the arena is one tree of 2n - 1
nodes rooted at 2n - 2 whose codes are the table, or EMPTY_INPUT. -/
def Obligations.HufBuildBuildsOneTree : Prop :=
  ∀ s : State,
    ((∃ a, Table.at s.freq a ≠ 0#32) →
      ∃ t, exec .hufBuild s = .next t ∧ t.mode = .huff ∧ t.alpha.toNat = (alphabet s.freq).length ∧
        t.nnodes.toNat + 1 = 2 * (alphabet s.freq).length ∧ t.root.toNat + 2 = 2 * (alphabet s.freq).length ∧
        (∀ j (h : j < (alphabet s.freq).length),
          t.arena[j]? = some (.leaf (alphabet s.freq)[j] (Table.at s.freq (alphabet s.freq)[j]))) ∧
        HuffOk t ∧ (∀ a, Table.at t.clen a ≠ 0#8 ↔ Table.at s.freq a ≠ 0#32) ∧ OnlyChanges [.table] s t) ∧
    ((∀ a, Table.at s.freq a = 0#32) → Raises .hufBuild s 0x06#8 0)

/-- 44_huffman.md R190, R191: each internal node merges the two nodes of least key in the work-set, the first removed on the
left, and its weight is the sum of theirs. -/
def Obligations.HufBuildMergesTheTwoLeastKeys : Prop :=
  ∀ s t : State, (∃ a, Table.at s.freq a ≠ 0#32) → exec .hufBuild s = .next t →
    ∀ k, (alphabet s.freq).length ≤ k → k < t.nnodes.toNat →
      ∃ x y, t.node k = .internal (Node.weight (t.node x) + Node.weight (t.node y)) (BitVec.ofNat 9 x) (BitVec.ofNat 9 y) ∧
        inWorkSet t k x ∧ inWorkSet t k y ∧ x ≠ y ∧
        (∀ z, inWorkSet t k z → z ≠ x → nodeKeyLess t x z) ∧
        (∀ z, inWorkSet t k z → z ≠ x → z ≠ y → nodeKeyLess t y z)

/-- 44_huffman.md R199 (c): after HUF_BUILD the root's weight is TOTAL at build time. TotalOk is an invariant. -/
def Obligations.RootWeightIsTotal : Prop :=
  ∀ s t : State, TotalOk s → (∃ a, Table.at s.freq a ≠ 0#32) → exec .hufBuild s = .next t →
    Node.weight (t.node t.root.toNat) = s.total

/-- 44_huffman.md R194: HUF_DEC over the tree that the arena holds. It returns the symbol whose code stands at the cursor,
EOS at the end of the stream, and CORRUPT_DATA when no code stands there within the stream. -/
def Obligations.HufDecDecodesOneCode : Prop :=
  ∀ s : State,
    (s.mode ≠ .huff → Raises .hufDec s 0x02#8 0) ∧
    (s.mode = .huff → s.p.rpos = s.p.wbits →
      ∃ t, exec .hufDec s = .next t ∧ t.result = 0x00000100#32 ∧ OnlyChanges [.result] s t) ∧
    (∀ tree, s.mode = .huff → HuffTree s tree → s.p.rpos < s.p.wbits →
      (∀ e ∈ tree.codes, s.p.rpos + e.2.length ≤ s.p.wbits → BitsAt s .P s.p.rpos e.2 →
        ∃ t, exec .hufDec s = .next t ∧ t.result.toNat = e.1.toNat ∧ t.p.rpos = s.p.rpos + e.2.length ∧
          OnlyChanges [.result, .rpos .P] s t) ∧
      ((∀ e ∈ tree.codes, s.p.rpos + e.2.length ≤ s.p.wbits → ¬ BitsAt s .P s.p.rpos e.2) →
        Raises .hufDec s 0x04#8 s.p.rpos))

/-- 44_huffman.md R194 with 45_code_lookup.md R220: ENC s followed by HUF_DEC at the same position returns s. -/
def Obligations.EncThenHufDecReturnsTheSymbol : Prop :=
  ∀ (s : State) (a : Symbol), s.mode = .huff → HuffOk s → Table.at s.clen a ≠ 0#8 → s.p.rpos = s.p.wbits →
    s.p.wbits + (Table.at s.clen a).toNat ≤ 8 * s.config.pcap →
    ∃ t u, exec (.enc a) s = .next t ∧ exec .hufDec t = .next u ∧ u.result.toNat = a.toNat ∧
      u.p.rpos = u.p.wbits ∧ u.p.wbits = s.p.wbits + (Table.at s.clen a).toNat

/-- 44_huffman.md R195: HUF_MWRITE writes the tree in pre-order from bit 0 of a cleared M, 10·ALPHA - 1 bits. -/
def Obligations.HufMwriteSerializesTheTree : Prop :=
  ∀ s : State,
    (s.mode ≠ .huff → Raises .hufMwrite s 0x02#8 0) ∧
    (∀ tree, s.mode = .huff → HuffTree s tree →
      ∃ t, exec .hufMwrite s = .next t ∧ t.m.wbits + 1 = 10 * s.alpha.toNat ∧ t.m.rpos = 0 ∧
        t.m.wbits = tree.blob.length ∧ BitsAt t .M 0 tree.blob ∧
        (∀ a, bytesOf t.m.wbits ≤ a → t.byte .M a = s.byte .M a) ∧
        OnlyChanges [.wbits .M, .rpos .M, .bytes .M] s t)

/-- 44_huffman.md R196: HUF_MREAD loads exactly the serialized trees with distinct leaf symbols: the same shape, nodes
numbered in pre-order from 0, every weight 0. Anything else raises CORRUPT_METADATA, the old tree and table kept. -/
def Obligations.HufMreadLoadsExactlyTheSerializedTrees : Prop :=
  ∀ s : State,
    (∀ tree, HoldsHuffBlob s tree →
      ∃ t loaded, exec .hufMread s = .next t ∧ t.mode = .huff ∧ HuffTree t loaded ∧ loaded.blob = tree.blob ∧
        loaded.indices = List.range t.nnodes.toNat ∧ t.root = 0#9 ∧ t.clen = clenOf tree.codes ∧ t.cval = cvalOf tree.codes ∧
        (∀ j < t.nnodes.toNat, Node.weight (t.node j) = 0x00000000#32) ∧ HuffOk t ∧ t.m.rpos = s.m.wbits ∧
        OnlyChanges [.table, .rpos .M] s t) ∧
    ((¬ ∃ tree, HoldsHuffBlob s tree) → Raises .hufMread s 0x03#8 0)

/-- 44_huffman.md R199 (e): HUF_MWRITE followed by HUF_MREAD reproduces every CLEN and CVAL entry. -/
def Obligations.HufMreadRestoresTheWrittenCodes : Prop :=
  ∀ s : State, s.mode = .huff → HuffOk s →
    ∃ t u, exec .hufMwrite s = .next t ∧ exec .hufMread t = .next u ∧ u.clen = s.clen ∧ u.cval = s.cval ∧
      u.alpha = s.alpha ∧ u.nnodes = s.nnodes ∧ u.maxlen = s.maxlen ∧ u.mode = .huff

/-- 44_huffman.md R197, R198: NODE_RD and NODE_WT return the shape and the weight of a node of the arena, or
UNINITIALIZED_STATE, or BAD_ADDRESS at NNODES and above. -/
def Obligations.NodeReadsReturnTheArenaEntry : Prop :=
  ∀ (s : State) (j : BitVec 9),
    (s.mode ≠ .huff → Raises (.nodeRd j) s 0x02#8 0 ∧ Raises (.nodeWt j) s 0x02#8 0) ∧
    (s.mode = .huff → s.nnodes.toNat ≤ j.toNat → Raises (.nodeRd j) s 0x0B#8 0 ∧ Raises (.nodeWt j) s 0x0B#8 0) ∧
    (s.mode = .huff → j.toNat < s.nnodes.toNat →
      (∃ t, exec (.nodeRd j) s = .next t ∧ OnlyChanges [.result] s t ∧
        (∀ a w, s.node j.toNat = .leaf a w → t.result.toNat = 2 ^ 31 + a.toNat) ∧
        (∀ w l r, s.node j.toNat = .internal w l r → t.result.toNat = l.toNat * 2 ^ 9 + r.toNat)) ∧
      (∃ t, exec (.nodeWt j) s = .next t ∧ OnlyChanges [.result] s t ∧
        (∀ a w, s.node j.toNat = .leaf a w → t.result = w) ∧
        (∀ w l r, s.node j.toNat = .internal w l r → t.result = w)))

/-- 44_huffman.md R199 (a): in MODE HUFF no symbol's code is an initial part of another symbol's code. -/
def Obligations.HuffmanCodesArePrefixFree : Prop :=
  ∀ (s : State) (a b : Symbol), s.mode = .huff → HuffOk s → Table.at s.clen a ≠ 0#8 → Table.at s.clen b ≠ 0#8 → a ≠ b →
    ¬ s.codeBits a <+: s.codeBits b

/-! ## Code lookup and encode -/

/-- 45_code_lookup.md R220: ENC appends CVAL[s] in CLEN[s] bits, most significant first, at P.WBITS, and does not move
P.RPOS; or UNINITIALIZED_STATE, UNKNOWN_SYMBOL or CAPACITY_EXCEEDED, in that order. -/
def Obligations.EncAppendsTheCode : Prop :=
  ∀ (s : State) (a : Symbol),
    (s.mode = .none → Raises (.enc a) s 0x02#8 0) ∧
    (s.mode ≠ .none → Table.at s.clen a = 0#8 → Raises (.enc a) s 0x09#8 0) ∧
    (s.mode ≠ .none → Table.at s.clen a ≠ 0#8 → 8 * s.config.pcap < s.p.wbits + (Table.at s.clen a).toNat →
      Raises (.enc a) s 0x08#8 0) ∧
    (s.mode ≠ .none → Table.at s.clen a ≠ 0#8 → s.p.wbits + (Table.at s.clen a).toNat ≤ 8 * s.config.pcap →
      ∃ t, exec (.enc a) s = .next t ∧ t.p.wbits = s.p.wbits + (Table.at s.clen a).toNat ∧
        (∀ k, k < s.p.wbits → t.bit .P k = s.bit .P k) ∧
        (∀ j, j < (Table.at s.clen a).toNat →
          t.bit .P (s.p.wbits + j) = (Table.at s.cval a).getLsbD ((Table.at s.clen a).toNat - 1 - j)) ∧
        (∀ k, t.p.wbits ≤ k → k < 8 * bytesOf t.p.wbits → t.bit .P k = false) ∧
        (∀ x, (x < s.p.wbits / 8 ∨ bytesOf t.p.wbits ≤ x) → t.byte .P x = s.byte .P x) ∧
        OnlyChanges [.wbits .P, .bytes .P] s t)

/-- 45_code_lookup.md R221, R222: CODE_LEN returns the length; CODE_RD returns 32 bits of the value, so the eight chunks write
the whole code value. -/
def Obligations.CodeReadsReturnTheCode : Prop :=
  ∀ (s : State) (a : Symbol),
    (∃ t, exec (.codeLen a) s = .next t ∧ t.result.toNat = (Table.at s.clen a).toNat ∧ OnlyChanges [.result] s t) ∧
    (∀ c : BitVec 3, ∃ t, exec (.codeRd a c) s = .next t ∧
      t.result.toNat = (Table.at s.cval a).toNat / 2 ^ (32 * c.toNat) % 2 ^ 32 ∧ OnlyChanges [.result] s t) ∧
    (∀ chunk : Nat → State, (∀ c : BitVec 3, exec (.codeRd a c) s = .next (chunk c.toNat)) →
      (Table.at s.cval a).toNat = ((List.range 8).map fun c => (chunk c).result.toNat * 2 ^ (32 * c)).sum)

/-- 45_code_lookup.md R223: WSUM is the weighted sum, exactly, and RESULT its low word; or UNINITIALIZED_STATE. TotalOk is an
invariant. -/
def Obligations.WsumCalcSumsTheWeightedLengths : Prop :=
  ∀ s : State,
    (s.mode = .none → Raises .wsumCalc s 0x02#8 0) ∧
    (s.mode ≠ .none → TotalOk s →
      ∃ t, exec .wsumCalc s = .next t ∧
        t.wsum.toNat = sumOver (fun a => (Table.at s.freq a).toNat * (Table.at s.clen a).toNat) ∧
        t.result.toNat = t.wsum.toNat % 2 ^ 32 ∧ t.wsum.toNat ≤ (2 ^ 32 - 1) * 255 ∧ OnlyChanges [.wsum, .result] s t)

/-! ## The invariants of the machine -/

/-- 10_state.md R37 (a) to (e), R31, R33, 60_exceptions.md R231, R235: the reset state of every instance with legal parameters
(00_scope.md R8) meets every invariant, that of this hardware among them. -/
def Obligations.ResetMeetsEveryInvariant : Prop := (∀ c : Config.Params, c.Legal → Inv (State.resetOf c)) ∧ Inv State.reset

/-- 10_state.md R37 (a) to (e), R31, R33, 60_exceptions.md R231, R235: from every state that meets the invariants, every step,
of whatever command or host event, gives a state that meets them, and the parameters stay the instance's (R21). -/
def Obligations.StepKeepsEveryInvariant : Prop :=
  ∀ s t : State, Inv s → step s = .next t → Inv t ∧ t.config = s.config

/-- 10_state.md R36, 70_reset_and_hazards.md R281: in a state that meets the invariants no step faults, and only a host access
that the spec does not define is refused; and whatever word is run there, its run completes and leaves BUSY = 0. -/
def Obligations.SafeStatesHaveANextStep : Prop :=
  ∀ s : State, Inv s →
    ((∃ t, step s = .next t) ∨
      (step s = .refused .undefinedHostAccess ∧ ∃ bits offset rest, (bits ≠ 32 ∨ offset.toNat % 4 ≠ 0) ∧
        (s.host = .read bits offset :: rest ∨ ∃ x, s.host = .write bits offset x :: rest))) ∧
    (∀ w : Word, ∃ t, runCommand w s = .next t ∧ t.busy = false)
end

