-- ==== Sys2Proof/Laws/Bits.lean ====
section
/-! SUPPORT. Lemmas of the bits and numbers of 20_memory.md R60 to R67, of the width function (00_scope.md R9), and of the
tables indexed by a symbol. -/

namespace Sys2Proof.Machine

/-! ## Bits and numbers -/

@[simp] theorem bitsToNat_nil : bitsToNat [] = 0 := rfl

theorem bitsToNat_foldl (bits : List Bool) (acc : Nat) :
    bits.foldl (fun acc b => 2 * acc + b.toNat) acc = acc * 2 ^ bits.length + bitsToNat bits := by
  induction bits generalizing acc with
  | nil => simp
  | cons b bs ih =>
    have h0 : bitsToNat (b :: bs) = (2 * 0 + b.toNat) * 2 ^ bs.length + bitsToNat bs := ih (2 * 0 + b.toNat)
    rw [h0, List.foldl_cons, ih, List.length_cons]
    ring

theorem bitsToNat_cons (b : Bool) (bs : List Bool) :
    bitsToNat (b :: bs) = b.toNat * 2 ^ bs.length + bitsToNat bs := by
  simpa [bitsToNat] using bitsToNat_foldl bs b.toNat

theorem bitsToNat_append (xs ys : List Bool) :
    bitsToNat (xs ++ ys) = bitsToNat xs * 2 ^ ys.length + bitsToNat ys := by
  simpa [bitsToNat, List.foldl_append] using bitsToNat_foldl ys (bitsToNat xs)

theorem bitsToNat_lt (bits : List Bool) : bitsToNat bits < 2 ^ bits.length := by
  induction bits with
  | nil => simp
  | cons b bs ih =>
    rw [bitsToNat_cons, List.length_cons, pow_succ]
    cases b
    · simp; omega
    · simp; omega

@[simp] theorem natToBits_length (n v : Nat) : (natToBits n v).length = n := by simp [natToBits]

@[simp] theorem natToBits_zero (v : Nat) : natToBits 0 v = [] := rfl

theorem natToBits_getElem (n v j : Nat) (h : j < (natToBits n v).length) :
    (natToBits n v)[j] = v.testBit (n - 1 - j) := by simp [natToBits]

theorem natToBits_succ (n v : Nat) : natToBits (n + 1) v = v.testBit n :: natToBits n v := by
  apply List.ext_getElem
  · simp
  intro j h1 h2
  rw [natToBits_getElem]
  cases j with
  | zero => simp
  | succ j =>
    rw [List.getElem_cons_succ, natToBits_getElem]
    congr 1
    omega

/-- Reading back the bits of a number gives its n low bits. -/
theorem bitsToNat_natToBits (n v : Nat) : bitsToNat (natToBits n v) = v % 2 ^ n := by
  induction n with
  | zero => simp [Nat.mod_one]
  | succ n ih =>
    rw [natToBits_succ, bitsToNat_cons, natToBits_length, ih, pow_succ, Nat.mod_mul, Nat.testBit_eq_decide_div_mod_eq]
    rcases Nat.mod_two_eq_zero_or_one (v / 2 ^ n) with h | h
    · simp [h]
    · simp [h]; ring

theorem bitsToNat_natToBits_of_lt {n v : Nat} (h : v < 2 ^ n) : bitsToNat (natToBits n v) = v := by
  rw [bitsToNat_natToBits, Nat.mod_eq_of_lt h]

theorem bitsToNat_testBit (bits : List Bool) (j : Nat) (h : j < bits.length) :
    (bitsToNat bits).testBit (bits.length - 1 - j) = bits[j] := by
  induction bits generalizing j with
  | nil => simp at h
  | cons b bs ih =>
    rw [bitsToNat_cons]
    cases j with
    | zero =>
      have hlt := bitsToNat_lt bs
      cases b with
      | false => simpa using Nat.testBit_lt_two_pow hlt
      | true => simp [Nat.testBit_two_pow_add_eq, Nat.testBit_lt_two_pow hlt]
    | succ j =>
      have hj : j < bs.length := by simpa using h
      have he : (b :: bs).length - 1 - (j + 1) = bs.length - 1 - j := by simp; omega
      rw [he, List.getElem_cons_succ, ← ih j hj]
      cases b with
      | false => simp
      | true => simp [Nat.testBit_two_pow_add_gt (show bs.length - 1 - j < bs.length by omega)]

/-- The bits of the number that bits write are those bits. -/
theorem natToBits_bitsToNat (bits : List Bool) : natToBits bits.length (bitsToNat bits) = bits := by
  apply List.ext_getElem
  · simp
  intro j h1 h2
  rw [natToBits_getElem, bitsToNat_testBit]

/-- A list of bits is fixed by its length and the number that it writes. -/
theorem bits_ext {xs ys : List Bool} (hl : xs.length = ys.length) (hv : bitsToNat xs = bitsToNat ys) : xs = ys := by
  rw [← natToBits_bitsToNat xs, ← natToBits_bitsToNat ys, hl, hv]

/-! ## The width function -/

theorem codeWidth_one : codeWidth 1 = 1 := rfl

theorem codeWidth_pos (n : Nat) : 1 ≤ codeWidth n := by
  unfold codeWidth
  split <;> omega

theorem lt_two_pow_codeWidth (n : Nat) : n ≤ 2 ^ codeWidth n := by
  unfold codeWidth
  split
  · omega
  · have := Nat.lt_log2_self (n := n - 1)
    omega

/-! ## Tables -/

@[simp] theorem Table.at_ofFun {α : Type} (f : BitVec 8 → α) (a : BitVec 8) : Table.at (Table.ofFun f) a = f a := by
  simp [Table.at, Table.ofFun]

@[simp] theorem Table.at_replicate {α : Type} (x : α) (a : BitVec 8) : Table.at (Vector.replicate 256 x) a = x := by
  simp [Table.at]

@[simp] theorem Table.at_put_same {α : Type} (t : Table α) (a : BitVec 8) (x : α) : Table.at (Table.put t a x) a = x := by
  simp [Table.at, Table.put]

theorem Table.at_put_other {α : Type} (t : Table α) (a b : BitVec 8) (x : α) (h : b ≠ a) :
    Table.at (Table.put t a x) b = Table.at t b := by
  have : a.toNat ≠ b.toNat := fun e => h (BitVec.eq_of_toNat_eq e.symm)
  simp [Table.at, Table.put, this]

/-- Two tables with the same entries are equal. -/
theorem Table.ext {α : Type} {t u : Table α} (h : ∀ a, Table.at t a = Table.at u a) : t = u := by
  apply Vector.ext
  intro i hi
  have := h (BitVec.ofNat 8 i)
  simpa [Table.at, Nat.mod_eq_of_lt hi] using this

/-! ## The symbols -/

@[simp] theorem mem_allSymbols (a : Symbol) : a ∈ allSymbols := by
  simp only [allSymbols, List.mem_map, List.mem_range]
  exact ⟨a.toNat, a.isLt, by simp⟩

theorem allSymbols_nodup : allSymbols.Nodup := by
  apply List.Nodup.map_on _ List.nodup_range
  intro x hx y hy h
  simp only [List.mem_range] at hx hy
  have := congrArg BitVec.toNat h
  simpa [Nat.mod_eq_of_lt hx, Nat.mod_eq_of_lt hy] using this

@[simp] theorem allSymbols_length : allSymbols.length = 256 := by simp [allSymbols]

@[simp] theorem mem_alphabet (freq : Table Word) (a : Symbol) : a ∈ alphabet freq ↔ Table.at freq a ≠ 0#32 := by
  simp [alphabet]

theorem alphabet_nodup (freq : Table Word) : (alphabet freq).Nodup := allSymbols_nodup.filter _

theorem alphabet_length_le (freq : Table Word) : (alphabet freq).length ≤ 256 := by
  have := List.length_filter_le (fun a => decide (Table.at freq a ≠ 0#32)) allSymbols
  rw [allSymbols_length] at this
  exact this

/-- The sum over all symbols when one term grows by k. -/
theorem sumOver_update (f g : Symbol → Nat) (a : Symbol) (k : Nat) (hg : ∀ b, g b = if b = a then f b + k else f b) :
    sumOver g = sumOver f + k := by
  have key : ∀ l : List Symbol, l.Nodup → (l.map g).sum = (l.map f).sum + if a ∈ l then k else 0 := by
    intro l
    induction l with
    | nil => simp
    | cons b l ih =>
      intro hn
      obtain ⟨hb, hl⟩ := List.nodup_cons.1 hn
      simp only [List.map_cons, List.sum_cons, ih hl, hg b, List.mem_cons]
      by_cases hab : b = a
      · subst hab
        simp [hb]; omega
      · have : ¬ a = b := fun e => hab e.symm
        simp [hab, this]; omega
  have := key allSymbols allSymbols_nodup
  simpa [sumOver] using this

theorem sumOver_le (f g : Symbol → Nat) (h : ∀ a, f a ≤ g a) : sumOver f ≤ sumOver g := by
  unfold sumOver
  generalize allSymbols = l
  induction l with
  | nil => simp
  | cons b l ih => simp only [List.map_cons, List.sum_cons]; have := h b; omega

end Sys2Proof.Machine
end

