-- ==== Sys2Proof/Laws/Decode.lean ====
section
/-! SUPPORT. Reading and writing the ten formats of 30_encoding.md R92: each format's word as a number, its fields and reserved
bits, that a format's reader gives back what was put into its word, and that a word accepted is the word of its fields. -/

namespace Sys2Proof

/-- A field of a word, as a number. -/
theorem extract_toNat (w : Word) (lo len : Nat) : (w.extractLsb' lo len).toNat = w.toNat / 2 ^ lo % 2 ^ len := by
  simp [BitVec.extractLsb'_toNat, Nat.shiftRight_eq_div_pow]

/-- A field placed at bit `lo` of a word, as a number. -/
theorem placed_toNat {n : Nat} (x : BitVec n) (lo : Nat) (h : n + lo ≤ 32) :
    (x.setWidth 32 <<< lo : Word).toNat = x.toNat * 2 ^ lo := by
  have hx : x.toNat * 2 ^ lo < 2 ^ 32 := by
    calc x.toNat * 2 ^ lo < 2 ^ n * 2 ^ lo := Nat.mul_lt_mul_of_pos_right x.isLt (Nat.two_pow_pos lo)
      _ = 2 ^ (n + lo) := (Nat.pow_add 2 n lo).symm
      _ ≤ 2 ^ 32 := Nat.pow_le_pow_right (by omega) h
  have hx' : x.toNat < 2 ^ 32 := lt_of_lt_of_le x.isLt (Nat.pow_le_pow_right (by omega) (by omega))
  rw [BitVec.toNat_shiftLeft, BitVec.toNat_setWidth, Nat.mod_eq_of_lt hx', Nat.shiftLeft_eq, Nat.mod_eq_of_lt hx]

theorem unplaced_toNat {n : Nat} (x : BitVec n) (h : n ≤ 32) : (x.setWidth 32 : Word).toNat = x.toNat := by
  rw [BitVec.toNat_setWidth, Nat.mod_eq_of_lt (lt_of_lt_of_le x.isLt (Nat.pow_le_pow_right (by omega) h))]

/-- Two words whose set bits lie above and below bit `lo`: their union is their sum. -/
theorem or_toNat (hi low : Word) (lo k : Nat) (hhi : hi.toNat = k * 2 ^ lo) (hlow : low.toNat < 2 ^ lo) :
    (hi ||| low).toNat = k * 2 ^ lo + low.toNat := by
  rw [BitVec.toNat_or, hhi, ← Nat.shiftLeft_eq, Nat.shiftLeft_add_eq_or_of_lt hlow]

/-! ## Format N -/

theorem wordN_toNat (op : BitVec 8) : (wordN op).toNat = op.toNat * 2 ^ 24 := by
  rw [wordN, placed_toNat op 24 (by omega)]

@[simp] theorem opcodeOf_wordN (op : BitVec 8) : opcodeOf (wordN op) = op := by
  have hop := op.isLt
  apply BitVec.eq_of_toNat_eq
  simp only [opcodeOf, extract_toNat, wordN_toNat]
  omega

@[simp] theorem reserved0_wordN (op : BitVec 8) : (wordN op).extractLsb' 0 24 = 0#24 := by
  have hop := op.isLt
  apply BitVec.eq_of_toNat_eq
  simp only [extract_toNat, wordN_toNat]
  simp only [BitVec.toNat_ofNat]
  omega

@[simp] theorem readN_wordN (op : BitVec 8) (i : Instr) : readN (wordN op) i = .ok i := by simp [readN]

theorem eq_wordN_of_readN (w : Word) (i j : Instr) (h : readN w i = .ok j) : j = i ∧ w = wordN (opcodeOf w) := by
  unfold readN at h
  split at h
  · rename_i h0
    refine ⟨by injection h with h; exact h.symm, BitVec.eq_of_toNat_eq ?_⟩
    have h0 : (w.extractLsb' 0 24).toNat = 0 := by rw [h0]; rfl
    have := w.isLt
    simp only [extract_toNat, wordN_toNat, opcodeOf] at h0 ⊢
    omega
  · cases h

/-! ## Format S -/

theorem wordS_toNat (op : BitVec 8) (s : BitVec 8) : (wordS op s).toNat = op.toNat * 2 ^ 24 + s.toNat := by
  have hs := s.isLt
  rw [wordS, or_toNat _ _ 24 op.toNat (wordN_toNat op) (by rw [unplaced_toNat s (by omega)]; omega), unplaced_toNat s (by omega)]

@[simp] theorem opcodeOf_wordS (op : BitVec 8) (s : BitVec 8) : opcodeOf (wordS op s) = op := by
  have hop := op.isLt
  have hs := s.isLt
  apply BitVec.eq_of_toNat_eq
  simp only [opcodeOf, extract_toNat, wordS_toNat]
  omega

@[simp] theorem fieldS_wordS (op : BitVec 8) (s : BitVec 8) : fieldS (wordS op s) = s := by
  have hop := op.isLt
  have hs := s.isLt
  apply BitVec.eq_of_toNat_eq
  simp only [fieldS, extract_toNat, wordS_toNat]
  omega

@[simp] theorem reserved8_wordS (op : BitVec 8) (s : BitVec 8) : (wordS op s).extractLsb' 8 16 = 0#16 := by
  have hop := op.isLt
  have hs := s.isLt
  apply BitVec.eq_of_toNat_eq
  simp only [extract_toNat, wordS_toNat]
  simp only [BitVec.toNat_ofNat]
  omega

@[simp] theorem readS_wordS (op : BitVec 8) (s : BitVec 8) (f : Symbol → Instr) :
    readS (wordS op s) f = .ok (f s) := by
  simp [readS]

theorem eq_wordS_of_readS (w : Word) (f : Symbol → Instr) (j : Instr) (h : readS w f = .ok j) :
    j = f (fieldS w) ∧ w = wordS (opcodeOf w) (fieldS w) := by
  unfold readS at h
  split at h
  · rename_i h0
    refine ⟨by injection h with h; exact h.symm, BitVec.eq_of_toNat_eq ?_⟩
    have h0 : (w.extractLsb' 8 16).toNat = 0 := by rw [h0]; rfl
    have := w.isLt
    simp only [extract_toNat, wordS_toNat, opcodeOf, fieldS] at h0 ⊢
    omega
  · cases h

/-! ## Format SK -/

theorem wordSK_toNat (op : BitVec 8) (k : BitVec 16) (s : BitVec 8) : (wordSK op k s).toNat = op.toNat * 2 ^ 24 + k.toNat * 2 ^ 8 + s.toNat := by
  have hk := k.isLt
  have hs := s.isLt
  have h : (wordN op ||| (k.setWidth 32 <<< 8 : Word)).toNat = (op.toNat * 2 ^ 16 + k.toNat) * 2 ^ 8 := by
    rw [or_toNat _ _ 24 op.toNat (wordN_toNat op) (by rw [placed_toNat k 8 (by omega)]; omega), placed_toNat k 8 (by omega)]
    omega
  rw [wordSK, or_toNat _ _ 8 _ h (by rw [unplaced_toNat s (by omega)]; omega), unplaced_toNat s (by omega)]
  omega

@[simp] theorem opcodeOf_wordSK (op : BitVec 8) (k : BitVec 16) (s : BitVec 8) : opcodeOf (wordSK op k s) = op := by
  have hop := op.isLt
  have hk := k.isLt
  have hs := s.isLt
  apply BitVec.eq_of_toNat_eq
  simp only [opcodeOf, extract_toNat, wordSK_toNat]
  omega

@[simp] theorem fieldK_wordSK (op : BitVec 8) (k : BitVec 16) (s : BitVec 8) : fieldK (wordSK op k s) = k := by
  have hop := op.isLt
  have hk := k.isLt
  have hs := s.isLt
  apply BitVec.eq_of_toNat_eq
  simp only [fieldK, extract_toNat, wordSK_toNat]
  omega

@[simp] theorem fieldS_wordSK (op : BitVec 8) (k : BitVec 16) (s : BitVec 8) : fieldS (wordSK op k s) = s := by
  have hop := op.isLt
  have hk := k.isLt
  have hs := s.isLt
  apply BitVec.eq_of_toNat_eq
  simp only [fieldS, extract_toNat, wordSK_toNat]
  omega

@[simp] theorem readSK_wordSK (op : BitVec 8) (k : BitVec 16) (s : BitVec 8) (f : Symbol → BitVec 16 → Instr) :
    readSK (wordSK op k s) f = .ok (f s k) := by
  simp [readSK]

theorem eq_wordSK_of_readSK (w : Word) (f : Symbol → BitVec 16 → Instr) (j : Instr) (h : readSK w f = .ok j) :
    j = f (fieldS w) (fieldK w) ∧ w = wordSK (opcodeOf w) (fieldK w) (fieldS w) := by
  unfold readSK at h
  refine ⟨by injection h with h; exact h.symm, BitVec.eq_of_toNat_eq ?_⟩
  have := w.isLt
  simp only [extract_toNat, wordSK_toNat, opcodeOf, fieldK, fieldS]
  omega

/-! ## Format SC -/

theorem wordSC_toNat (op : BitVec 8) (c : BitVec 3) (s : BitVec 8) : (wordSC op c s).toNat = op.toNat * 2 ^ 24 + c.toNat * 2 ^ 8 + s.toNat := by
  have hc := c.isLt
  have hs := s.isLt
  have h : (wordN op ||| (c.setWidth 32 <<< 8 : Word)).toNat = (op.toNat * 2 ^ 16 + c.toNat) * 2 ^ 8 := by
    rw [or_toNat _ _ 24 op.toNat (wordN_toNat op) (by rw [placed_toNat c 8 (by omega)]; omega), placed_toNat c 8 (by omega)]
    omega
  rw [wordSC, or_toNat _ _ 8 _ h (by rw [unplaced_toNat s (by omega)]; omega), unplaced_toNat s (by omega)]
  omega

@[simp] theorem opcodeOf_wordSC (op : BitVec 8) (c : BitVec 3) (s : BitVec 8) : opcodeOf (wordSC op c s) = op := by
  have hop := op.isLt
  have hc := c.isLt
  have hs := s.isLt
  apply BitVec.eq_of_toNat_eq
  simp only [opcodeOf, extract_toNat, wordSC_toNat]
  omega

@[simp] theorem fieldC_wordSC (op : BitVec 8) (c : BitVec 3) (s : BitVec 8) : fieldC (wordSC op c s) = c := by
  have hop := op.isLt
  have hc := c.isLt
  have hs := s.isLt
  apply BitVec.eq_of_toNat_eq
  simp only [fieldC, extract_toNat, wordSC_toNat]
  omega

@[simp] theorem fieldS_wordSC (op : BitVec 8) (c : BitVec 3) (s : BitVec 8) : fieldS (wordSC op c s) = s := by
  have hop := op.isLt
  have hc := c.isLt
  have hs := s.isLt
  apply BitVec.eq_of_toNat_eq
  simp only [fieldS, extract_toNat, wordSC_toNat]
  omega

@[simp] theorem reserved11_wordSC (op : BitVec 8) (c : BitVec 3) (s : BitVec 8) : (wordSC op c s).extractLsb' 11 13 = 0#13 := by
  have hop := op.isLt
  have hc := c.isLt
  have hs := s.isLt
  apply BitVec.eq_of_toNat_eq
  simp only [extract_toNat, wordSC_toNat]
  simp only [BitVec.toNat_ofNat]
  omega

@[simp] theorem readSC_wordSC (op : BitVec 8) (c : BitVec 3) (s : BitVec 8) (f : Symbol → BitVec 3 → Instr) :
    readSC (wordSC op c s) f = .ok (f s c) := by
  simp [readSC]

theorem eq_wordSC_of_readSC (w : Word) (f : Symbol → BitVec 3 → Instr) (j : Instr) (h : readSC w f = .ok j) :
    j = f (fieldS w) (fieldC w) ∧ w = wordSC (opcodeOf w) (fieldC w) (fieldS w) := by
  unfold readSC at h
  split at h
  · rename_i h0
    refine ⟨by injection h with h; exact h.symm, BitVec.eq_of_toNat_eq ?_⟩
    have h0 : (w.extractLsb' 11 13).toNat = 0 := by rw [h0]; rfl
    have := w.isLt
    simp only [extract_toNat, wordSC_toNat, opcodeOf, fieldC, fieldS] at h0 ⊢
    omega
  · cases h

/-! ## Format I -/

theorem wordI_toNat (op : BitVec 8) (i : BitVec 9) : (wordI op i).toNat = op.toNat * 2 ^ 24 + i.toNat := by
  have hi := i.isLt
  rw [wordI, or_toNat _ _ 24 op.toNat (wordN_toNat op) (by rw [unplaced_toNat i (by omega)]; omega), unplaced_toNat i (by omega)]

@[simp] theorem opcodeOf_wordI (op : BitVec 8) (i : BitVec 9) : opcodeOf (wordI op i) = op := by
  have hop := op.isLt
  have hi := i.isLt
  apply BitVec.eq_of_toNat_eq
  simp only [opcodeOf, extract_toNat, wordI_toNat]
  omega

@[simp] theorem fieldI_wordI (op : BitVec 8) (i : BitVec 9) : fieldI (wordI op i) = i := by
  have hop := op.isLt
  have hi := i.isLt
  apply BitVec.eq_of_toNat_eq
  simp only [fieldI, extract_toNat, wordI_toNat]
  omega

@[simp] theorem reserved9_wordI (op : BitVec 8) (i : BitVec 9) : (wordI op i).extractLsb' 9 15 = 0#15 := by
  have hop := op.isLt
  have hi := i.isLt
  apply BitVec.eq_of_toNat_eq
  simp only [extract_toNat, wordI_toNat]
  simp only [BitVec.toNat_ofNat]
  omega

@[simp] theorem readI_wordI (op : BitVec 8) (i : BitVec 9) (f : BitVec 9 → Instr) :
    readI (wordI op i) f = .ok (f i) := by
  simp [readI]

theorem eq_wordI_of_readI (w : Word) (f : BitVec 9 → Instr) (j : Instr) (h : readI w f = .ok j) :
    j = f (fieldI w) ∧ w = wordI (opcodeOf w) (fieldI w) := by
  unfold readI at h
  split at h
  · rename_i h0
    refine ⟨by injection h with h; exact h.symm, BitVec.eq_of_toNat_eq ?_⟩
    have h0 : (w.extractLsb' 9 15).toNat = 0 := by rw [h0]; rfl
    have := w.isLt
    simp only [extract_toNat, wordI_toNat, opcodeOf, fieldI] at h0 ⊢
    omega
  · cases h

/-! ## Format G -/

theorem wordG_toNat (op : BitVec 8) (n : BitVec 5) (v : BitVec 16) : (wordG op n v).toNat = op.toNat * 2 ^ 24 + n.toNat * 2 ^ 16 + v.toNat := by
  have hn := n.isLt
  have hv := v.isLt
  have h : (wordN op ||| (n.setWidth 32 <<< 16 : Word)).toNat = (op.toNat * 2 ^ 8 + n.toNat) * 2 ^ 16 := by
    rw [or_toNat _ _ 24 op.toNat (wordN_toNat op) (by rw [placed_toNat n 16 (by omega)]; omega), placed_toNat n 16 (by omega)]
    omega
  rw [wordG, or_toNat _ _ 16 _ h (by rw [unplaced_toNat v (by omega)]; omega), unplaced_toNat v (by omega)]
  omega

@[simp] theorem opcodeOf_wordG (op : BitVec 8) (n : BitVec 5) (v : BitVec 16) : opcodeOf (wordG op n v) = op := by
  have hop := op.isLt
  have hn := n.isLt
  have hv := v.isLt
  apply BitVec.eq_of_toNat_eq
  simp only [opcodeOf, extract_toNat, wordG_toNat]
  omega

@[simp] theorem fieldN_wordG (op : BitVec 8) (n : BitVec 5) (v : BitVec 16) : fieldN (wordG op n v) = n := by
  have hop := op.isLt
  have hn := n.isLt
  have hv := v.isLt
  apply BitVec.eq_of_toNat_eq
  simp only [fieldN, extract_toNat, wordG_toNat]
  omega

@[simp] theorem fieldV_wordG (op : BitVec 8) (n : BitVec 5) (v : BitVec 16) : fieldV (wordG op n v) = v := by
  have hop := op.isLt
  have hn := n.isLt
  have hv := v.isLt
  apply BitVec.eq_of_toNat_eq
  simp only [fieldV, extract_toNat, wordG_toNat]
  omega

@[simp] theorem reserved21_wordG (op : BitVec 8) (n : BitVec 5) (v : BitVec 16) : (wordG op n v).extractLsb' 21 3 = 0#3 := by
  have hop := op.isLt
  have hn := n.isLt
  have hv := v.isLt
  apply BitVec.eq_of_toNat_eq
  simp only [extract_toNat, wordG_toNat]
  simp only [BitVec.toNat_ofNat]
  omega

@[simp] theorem readG_wordG (op : BitVec 8) (n : BitVec 5) (v : BitVec 16) (f : BitVec 5 → BitVec 16 → Instr) (hn : groupWidthOk n = true) (hv : groupValueOk n v = true) :
    readG (wordG op n v) f = .ok (f n v) := by
  simp [readG, hn, hv]

theorem eq_wordG_of_readG (w : Word) (f : BitVec 5 → BitVec 16 → Instr) (j : Instr) (h : readG w f = .ok j) :
    j = f (fieldN w) (fieldV w) ∧ w = wordG (opcodeOf w) (fieldN w) (fieldV w) ∧ groupWidthOk (fieldN w) = true ∧ groupValueOk (fieldN w) (fieldV w) = true := by
  unfold readG at h
  split at h
  · cases h
  · rename_i h0
    split at h
    · cases h
    · rename_i h1
      split at h
      · cases h
      · rename_i h2
        refine ⟨by injection h with h; exact h.symm, BitVec.eq_of_toNat_eq ?_, by simpa using h1, by simpa using h2⟩
        have h0 : (w.extractLsb' 21 3).toNat = 0 := by rw [not_not.1 h0]; rfl
        have := w.isLt
        simp only [extract_toNat, wordG_toNat, opcodeOf, fieldN, fieldV] at h0 ⊢
        omega

/-! ## Format Q -/

theorem wordQ_toNat (op : BitVec 8) (n : BitVec 5) : (wordQ op n).toNat = op.toNat * 2 ^ 24 + n.toNat * 2 ^ 16 := by
  have hn := n.isLt
  rw [wordQ, or_toNat _ _ 24 op.toNat (wordN_toNat op) (by rw [placed_toNat n 16 (by omega)]; omega), placed_toNat n 16 (by omega)]

@[simp] theorem opcodeOf_wordQ (op : BitVec 8) (n : BitVec 5) : opcodeOf (wordQ op n) = op := by
  have hop := op.isLt
  have hn := n.isLt
  apply BitVec.eq_of_toNat_eq
  simp only [opcodeOf, extract_toNat, wordQ_toNat]
  omega

@[simp] theorem fieldN_wordQ (op : BitVec 8) (n : BitVec 5) : fieldN (wordQ op n) = n := by
  have hop := op.isLt
  have hn := n.isLt
  apply BitVec.eq_of_toNat_eq
  simp only [fieldN, extract_toNat, wordQ_toNat]
  omega

@[simp] theorem reserved21_wordQ (op : BitVec 8) (n : BitVec 5) : (wordQ op n).extractLsb' 21 3 = 0#3 := by
  have hop := op.isLt
  have hn := n.isLt
  apply BitVec.eq_of_toNat_eq
  simp only [extract_toNat, wordQ_toNat]
  simp only [BitVec.toNat_ofNat]
  omega

@[simp] theorem reserved0_wordQ (op : BitVec 8) (n : BitVec 5) : (wordQ op n).extractLsb' 0 16 = 0#16 := by
  have hop := op.isLt
  have hn := n.isLt
  apply BitVec.eq_of_toNat_eq
  simp only [extract_toNat, wordQ_toNat]
  simp only [BitVec.toNat_ofNat]
  omega

@[simp] theorem readQ_wordQ (op : BitVec 8) (n : BitVec 5) (f : BitVec 5 → Instr) (hn : groupWidthOk n = true) :
    readQ (wordQ op n) f = .ok (f n) := by
  simp [readQ, hn]

theorem eq_wordQ_of_readQ (w : Word) (f : BitVec 5 → Instr) (j : Instr) (h : readQ w f = .ok j) :
    j = f (fieldN w) ∧ w = wordQ (opcodeOf w) (fieldN w) ∧ groupWidthOk (fieldN w) = true := by
  unfold readQ at h
  split at h
  · cases h
  · rename_i h0
    split at h
    · cases h
    · rename_i h1
      rw [not_or, not_not, not_not] at h0
      refine ⟨by injection h with h; exact h.symm, BitVec.eq_of_toNat_eq ?_, by simpa using h1⟩
      have ha : (w.extractLsb' 21 3).toNat = 0 := by rw [h0.1]; rfl
      have hb : (w.extractLsb' 0 16).toNat = 0 := by rw [h0.2]; rfl
      have := w.isLt
      simp only [extract_toNat, wordQ_toNat, opcodeOf, fieldN] at ha hb ⊢
      omega

/-! ## Format L -/

theorem wordL_toNat (op : BitVec 8) (p : BitVec 3) (b : BitVec 21) : (wordL op p b).toNat = op.toNat * 2 ^ 24 + p.toNat * 2 ^ 21 + b.toNat := by
  have hp := p.isLt
  have hb := b.isLt
  have h : (wordN op ||| (p.setWidth 32 <<< 21 : Word)).toNat = (op.toNat * 2 ^ 3 + p.toNat) * 2 ^ 21 := by
    rw [or_toNat _ _ 24 op.toNat (wordN_toNat op) (by rw [placed_toNat p 21 (by omega)]; omega), placed_toNat p 21 (by omega)]
    omega
  rw [wordL, or_toNat _ _ 21 _ h (by rw [unplaced_toNat b (by omega)]; omega), unplaced_toNat b (by omega)]
  omega

@[simp] theorem opcodeOf_wordL (op : BitVec 8) (p : BitVec 3) (b : BitVec 21) : opcodeOf (wordL op p b) = op := by
  have hop := op.isLt
  have hp := p.isLt
  have hb := b.isLt
  apply BitVec.eq_of_toNat_eq
  simp only [opcodeOf, extract_toNat, wordL_toNat]
  omega

@[simp] theorem fieldP_wordL (op : BitVec 8) (p : BitVec 3) (b : BitVec 21) : fieldP (wordL op p b) = p := by
  have hop := op.isLt
  have hp := p.isLt
  have hb := b.isLt
  apply BitVec.eq_of_toNat_eq
  simp only [fieldP, extract_toNat, wordL_toNat]
  omega

@[simp] theorem fieldB_wordL (op : BitVec 8) (p : BitVec 3) (b : BitVec 21) : fieldB (wordL op p b) = b := by
  have hop := op.isLt
  have hp := p.isLt
  have hb := b.isLt
  apply BitVec.eq_of_toNat_eq
  simp only [fieldB, extract_toNat, wordL_toNat]
  omega

@[simp] theorem readL_wordL (op : BitVec 8) (p : BitVec 3) (b : BitVec 21) (f : BitVec 21 → BitVec 3 → Instr) :
    readL (wordL op p b) f = .ok (f b p) := by
  simp [readL]

theorem eq_wordL_of_readL (w : Word) (f : BitVec 21 → BitVec 3 → Instr) (j : Instr) (h : readL w f = .ok j) :
    j = f (fieldB w) (fieldP w) ∧ w = wordL (opcodeOf w) (fieldP w) (fieldB w) := by
  unfold readL at h
  refine ⟨by injection h with h; exact h.symm, BitVec.eq_of_toNat_eq ?_⟩
  have := w.isLt
  simp only [extract_toNat, wordL_toNat, opcodeOf, fieldP, fieldB]
  omega

/-! ## Format AW -/

theorem wordAW_toNat (op : BitVec 8) (a : BitVec 16) (d : BitVec 8) : (wordAW op a d).toNat = op.toNat * 2 ^ 24 + a.toNat * 2 ^ 8 + d.toNat := by
  have ha := a.isLt
  have hd := d.isLt
  have h : (wordN op ||| (a.setWidth 32 <<< 8 : Word)).toNat = (op.toNat * 2 ^ 16 + a.toNat) * 2 ^ 8 := by
    rw [or_toNat _ _ 24 op.toNat (wordN_toNat op) (by rw [placed_toNat a 8 (by omega)]; omega), placed_toNat a 8 (by omega)]
    omega
  rw [wordAW, or_toNat _ _ 8 _ h (by rw [unplaced_toNat d (by omega)]; omega), unplaced_toNat d (by omega)]
  omega

@[simp] theorem opcodeOf_wordAW (op : BitVec 8) (a : BitVec 16) (d : BitVec 8) : opcodeOf (wordAW op a d) = op := by
  have hop := op.isLt
  have ha := a.isLt
  have hd := d.isLt
  apply BitVec.eq_of_toNat_eq
  simp only [opcodeOf, extract_toNat, wordAW_toNat]
  omega

@[simp] theorem fieldA_wordAW (op : BitVec 8) (a : BitVec 16) (d : BitVec 8) : fieldA (wordAW op a d) = a := by
  have hop := op.isLt
  have ha := a.isLt
  have hd := d.isLt
  apply BitVec.eq_of_toNat_eq
  simp only [fieldA, extract_toNat, wordAW_toNat]
  omega

@[simp] theorem fieldD_wordAW (op : BitVec 8) (a : BitVec 16) (d : BitVec 8) : fieldD (wordAW op a d) = d := by
  have hop := op.isLt
  have ha := a.isLt
  have hd := d.isLt
  apply BitVec.eq_of_toNat_eq
  simp only [fieldD, extract_toNat, wordAW_toNat]
  omega

@[simp] theorem readAW_wordAW (op : BitVec 8) (a : BitVec 16) (d : BitVec 8) (f : BitVec 16 → Byte → Instr) :
    readAW (wordAW op a d) f = .ok (f a d) := by
  simp [readAW]

theorem eq_wordAW_of_readAW (w : Word) (f : BitVec 16 → Byte → Instr) (j : Instr) (h : readAW w f = .ok j) :
    j = f (fieldA w) (fieldD w) ∧ w = wordAW (opcodeOf w) (fieldA w) (fieldD w) := by
  unfold readAW at h
  refine ⟨by injection h with h; exact h.symm, BitVec.eq_of_toNat_eq ?_⟩
  have := w.isLt
  simp only [extract_toNat, wordAW_toNat, opcodeOf, fieldA, fieldD]
  omega

/-! ## Format AR -/

theorem wordAR_toNat (op : BitVec 8) (a : BitVec 16) : (wordAR op a).toNat = op.toNat * 2 ^ 24 + a.toNat * 2 ^ 8 := by
  have ha := a.isLt
  rw [wordAR, or_toNat _ _ 24 op.toNat (wordN_toNat op) (by rw [placed_toNat a 8 (by omega)]; omega), placed_toNat a 8 (by omega)]

@[simp] theorem opcodeOf_wordAR (op : BitVec 8) (a : BitVec 16) : opcodeOf (wordAR op a) = op := by
  have hop := op.isLt
  have ha := a.isLt
  apply BitVec.eq_of_toNat_eq
  simp only [opcodeOf, extract_toNat, wordAR_toNat]
  omega

@[simp] theorem fieldA_wordAR (op : BitVec 8) (a : BitVec 16) : fieldA (wordAR op a) = a := by
  have hop := op.isLt
  have ha := a.isLt
  apply BitVec.eq_of_toNat_eq
  simp only [fieldA, extract_toNat, wordAR_toNat]
  omega

@[simp] theorem reserved0_wordAR (op : BitVec 8) (a : BitVec 16) : (wordAR op a).extractLsb' 0 8 = 0#8 := by
  have hop := op.isLt
  have ha := a.isLt
  apply BitVec.eq_of_toNat_eq
  simp only [extract_toNat, wordAR_toNat]
  simp only [BitVec.toNat_ofNat]
  omega

@[simp] theorem readAR_wordAR (op : BitVec 8) (a : BitVec 16) (f : BitVec 16 → Instr) :
    readAR (wordAR op a) f = .ok (f a) := by
  simp [readAR]

theorem eq_wordAR_of_readAR (w : Word) (f : BitVec 16 → Instr) (j : Instr) (h : readAR w f = .ok j) :
    j = f (fieldA w) ∧ w = wordAR (opcodeOf w) (fieldA w) := by
  unfold readAR at h
  split at h
  · rename_i h0
    refine ⟨by injection h with h; exact h.symm, BitVec.eq_of_toNat_eq ?_⟩
    have h0 : (w.extractLsb' 0 8).toNat = 0 := by rw [h0]; rfl
    have := w.isLt
    simp only [extract_toNat, wordAR_toNat, opcodeOf, fieldA] at h0 ⊢
    omega
  · cases h

end Sys2Proof
end

