-- ==== Sys2Proof/Laws/Memory.lean ====
section
/-! SUPPORT. The laws of a buffer's memory: read after write, and the canonical form kept (log 3). -/

namespace Sys2Proof.Machine

@[simp] theorem Memory.find_nil (a : Nat) : Memory.find [] a = none := rfl

/-- A read at the address written gives the byte written. -/
@[simp] theorem Memory.find_write_same (m : Memory) (a : Nat) (d : Byte) : Memory.find (Memory.write m a d) a = some d := by
  induction m with
  | nil => simp [Memory.write, Memory.find]
  | cons c rest ih =>
    obtain ⟨b, v⟩ := c
    simp only [Memory.write]
    split
    · simp [Memory.find]
    · split
      · simp [Memory.find]
      · rename_i h1 h2
        simp [Memory.find, h2, ih]

/-- A write leaves every other address alone. -/
theorem Memory.find_write_other (m : Memory) {a a' : Nat} (d : Byte) (h : a' ≠ a) :
    Memory.find (Memory.write m a d) a' = Memory.find m a' := by
  induction m with
  | nil => simp [Memory.write, Memory.find, h]
  | cons c rest ih =>
    obtain ⟨b, v⟩ := c
    simp only [Memory.write]
    split
    · simp [Memory.find, h]
    · split
      · rename_i h1 h2
        subst h2
        simp [Memory.find, h]
      · simp only [Memory.find, ih]

/-- The addresses listed after a write: those before it and the one written. -/
theorem Memory.mem_write {m : Memory} {a : Nat} {d : Byte} {c : Host.Cell} (h : c ∈ Memory.write m a d) :
    c.1 = a ∨ c ∈ m := by
  induction m with
  | nil => simp [Memory.write] at h; simp [h]
  | cons e rest ih =>
    obtain ⟨b, v⟩ := e
    simp only [Memory.write] at h
    split at h
    · rcases List.mem_cons.1 h with h | h
      · simp [h]
      · exact .inr h
    · split at h
      · rcases List.mem_cons.1 h with h | h
        · simp [h]
        · exact .inr (List.mem_cons_of_mem _ h)
      · rcases List.mem_cons.1 h with h | h
        · exact .inr (by simp [h])
        · exact (ih h).imp id (List.mem_cons_of_mem _)

/-- A write keeps the canonical form. -/
theorem Memory.wf_write {m : Memory} (a : Nat) (d : Byte) (h : Memory.wf m = true) :
    Memory.wf (Memory.write m a d) = true := by
  induction m with
  | nil => simp [Memory.write, Memory.wf]
  | cons e rest ih =>
    obtain ⟨b, v⟩ := e
    simp only [Memory.wf, Bool.and_eq_true, List.all_eq_true, decide_eq_true_eq] at h
    obtain ⟨hb, hr⟩ := h
    simp only [Memory.write]
    split
    · rename_i hab
      simp only [Memory.wf, Bool.and_eq_true, List.all_eq_true, decide_eq_true_eq, List.mem_cons]
      refine ⟨?_, hb, hr⟩
      rintro c (rfl | hc)
      · exact hab
      · exact hab.trans (hb c hc)
    · split
      · rename_i h1 h2
        subst h2
        simp only [Memory.wf, Bool.and_eq_true, List.all_eq_true, decide_eq_true_eq]
        exact ⟨hb, hr⟩
      · rename_i h1 h2
        simp only [Memory.wf, Bool.and_eq_true, List.all_eq_true, decide_eq_true_eq]
        refine ⟨fun c hc => ?_, ih hr⟩
        rcases Memory.mem_write hc with hc | hc
        · omega
        · exact hb c hc

/-- Every address listed after a write within a capacity is within it. -/
theorem Memory.within_write {m : Memory} {a n : Nat} (d : Byte) (h : ∀ c ∈ m, c.1 < n) (ha : a < n) :
    ∀ c ∈ Memory.write m a d, c.1 < n := by
  intro c hc
  rcases Memory.mem_write hc with hc | hc
  · omega
  · exact h c hc

/-- The memory after reset is in canonical form. -/
theorem Memory.wf_resetOf (c : Config.Params) :
    Memory.wf (State.resetOf c).p.buf = true ∧ Memory.wf (State.resetOf c).m.buf = true := ⟨rfl, rfl⟩

theorem Memory.wf_reset : Memory.wf State.reset.p.buf = true ∧ Memory.wf State.reset.m.buf = true := Memory.wf_resetOf _

end Sys2Proof.Machine
end

