-- ==== Sys2Proof/Laws/State.lean ====
section
/-! SUPPORT. One lemma per field per update of State, true by computation and tagged simp, so that no later proof unfolds a
record update. -/

namespace Sys2Proof.Machine

/-! ## setHost -/

@[simp] theorem State.setHost_latched (s : State) (events : List HostEvent) : (s.setHost events).latched = s.latched := rfl
@[simp] theorem State.setHost_ovr (s : State) (events : List HostEvent) : (s.setHost events).ovr = s.ovr := rfl
@[simp] theorem State.setHost_mode (s : State) (events : List HostEvent) : (s.setHost events).mode = s.mode := rfl
@[simp] theorem State.setHost_result (s : State) (events : List HostEvent) : (s.setHost events).result = s.result := rfl
@[simp] theorem State.setHost_errcode (s : State) (events : List HostEvent) : (s.setHost events).errcode = s.errcode := rfl
@[simp] theorem State.setHost_errcmd (s : State) (events : List HostEvent) : (s.setHost events).errcmd = s.errcmd := rfl
@[simp] theorem State.setHost_errpos (s : State) (events : List HostEvent) : (s.setHost events).errpos = s.errpos := rfl
@[simp] theorem State.setHost_alpha (s : State) (events : List HostEvent) : (s.setHost events).alpha = s.alpha := rfl
@[simp] theorem State.setHost_width (s : State) (events : List HostEvent) : (s.setHost events).width = s.width := rfl
@[simp] theorem State.setHost_root (s : State) (events : List HostEvent) : (s.setHost events).root = s.root := rfl
@[simp] theorem State.setHost_nnodes (s : State) (events : List HostEvent) : (s.setHost events).nnodes = s.nnodes := rfl
@[simp] theorem State.setHost_maxlen (s : State) (events : List HostEvent) : (s.setHost events).maxlen = s.maxlen := rfl
@[simp] theorem State.setHost_freq (s : State) (events : List HostEvent) : (s.setHost events).freq = s.freq := rfl
@[simp] theorem State.setHost_total (s : State) (events : List HostEvent) : (s.setHost events).total = s.total := rfl
@[simp] theorem State.setHost_clen (s : State) (events : List HostEvent) : (s.setHost events).clen = s.clen := rfl
@[simp] theorem State.setHost_cval (s : State) (events : List HostEvent) : (s.setHost events).cval = s.cval := rfl
@[simp] theorem State.setHost_rvalid (s : State) (events : List HostEvent) : (s.setHost events).rvalid = s.rvalid := rfl
@[simp] theorem State.setHost_rsym (s : State) (events : List HostEvent) : (s.setHost events).rsym = s.rsym := rfl
@[simp] theorem State.setHost_arena (s : State) (events : List HostEvent) : (s.setHost events).arena = s.arena := rfl
@[simp] theorem State.setHost_wsum (s : State) (events : List HostEvent) : (s.setHost events).wsum = s.wsum := rfl
@[simp] theorem State.setHost_host (s : State) (events : List HostEvent) : (s.setHost events).host = events := rfl
@[simp] theorem State.setHost_reads (s : State) (events : List HostEvent) : (s.setHost events).reads = s.reads := rfl
@[simp] theorem State.setHost_draws (s : State) (events : List HostEvent) : (s.setHost events).draws = s.draws := rfl
@[simp] theorem State.setHost_powerOns (s : State) (events : List HostEvent) : (s.setHost events).powerOns = s.powerOns := rfl
@[simp] theorem State.setHost_config (s : State) (events : List HostEvent) : (s.setHost events).config = s.config := rfl
@[simp] theorem State.setHost_blank (s : State) (events : List HostEvent) (S : StreamId) : (s.setHost events).blank S = s.blank S := rfl
@[simp] theorem State.setHost_p (s : State) (events : List HostEvent) : (s.setHost events).p = s.p := rfl
@[simp] theorem State.setHost_m (s : State) (events : List HostEvent) : (s.setHost events).m = s.m := rfl
@[simp] theorem State.setHost_stream (s : State) (events : List HostEvent) (S : StreamId) : (s.setHost events).stream S = s.stream S := by cases S <;> rfl

/-! ## setLatched -/

@[simp] theorem State.setLatched_latched (s : State) (w : Option Word) : (s.setLatched w).latched = w := rfl
@[simp] theorem State.setLatched_ovr (s : State) (w : Option Word) : (s.setLatched w).ovr = s.ovr := rfl
@[simp] theorem State.setLatched_mode (s : State) (w : Option Word) : (s.setLatched w).mode = s.mode := rfl
@[simp] theorem State.setLatched_result (s : State) (w : Option Word) : (s.setLatched w).result = s.result := rfl
@[simp] theorem State.setLatched_errcode (s : State) (w : Option Word) : (s.setLatched w).errcode = s.errcode := rfl
@[simp] theorem State.setLatched_errcmd (s : State) (w : Option Word) : (s.setLatched w).errcmd = s.errcmd := rfl
@[simp] theorem State.setLatched_errpos (s : State) (w : Option Word) : (s.setLatched w).errpos = s.errpos := rfl
@[simp] theorem State.setLatched_alpha (s : State) (w : Option Word) : (s.setLatched w).alpha = s.alpha := rfl
@[simp] theorem State.setLatched_width (s : State) (w : Option Word) : (s.setLatched w).width = s.width := rfl
@[simp] theorem State.setLatched_root (s : State) (w : Option Word) : (s.setLatched w).root = s.root := rfl
@[simp] theorem State.setLatched_nnodes (s : State) (w : Option Word) : (s.setLatched w).nnodes = s.nnodes := rfl
@[simp] theorem State.setLatched_maxlen (s : State) (w : Option Word) : (s.setLatched w).maxlen = s.maxlen := rfl
@[simp] theorem State.setLatched_freq (s : State) (w : Option Word) : (s.setLatched w).freq = s.freq := rfl
@[simp] theorem State.setLatched_total (s : State) (w : Option Word) : (s.setLatched w).total = s.total := rfl
@[simp] theorem State.setLatched_clen (s : State) (w : Option Word) : (s.setLatched w).clen = s.clen := rfl
@[simp] theorem State.setLatched_cval (s : State) (w : Option Word) : (s.setLatched w).cval = s.cval := rfl
@[simp] theorem State.setLatched_rvalid (s : State) (w : Option Word) : (s.setLatched w).rvalid = s.rvalid := rfl
@[simp] theorem State.setLatched_rsym (s : State) (w : Option Word) : (s.setLatched w).rsym = s.rsym := rfl
@[simp] theorem State.setLatched_arena (s : State) (w : Option Word) : (s.setLatched w).arena = s.arena := rfl
@[simp] theorem State.setLatched_wsum (s : State) (w : Option Word) : (s.setLatched w).wsum = s.wsum := rfl
@[simp] theorem State.setLatched_host (s : State) (w : Option Word) : (s.setLatched w).host = s.host := rfl
@[simp] theorem State.setLatched_reads (s : State) (w : Option Word) : (s.setLatched w).reads = s.reads := rfl
@[simp] theorem State.setLatched_draws (s : State) (w : Option Word) : (s.setLatched w).draws = s.draws := rfl
@[simp] theorem State.setLatched_powerOns (s : State) (w : Option Word) : (s.setLatched w).powerOns = s.powerOns := rfl
@[simp] theorem State.setLatched_config (s : State) (w : Option Word) : (s.setLatched w).config = s.config := rfl
@[simp] theorem State.setLatched_blank (s : State) (w : Option Word) (S : StreamId) : (s.setLatched w).blank S = s.blank S := rfl
@[simp] theorem State.setLatched_p (s : State) (w : Option Word) : (s.setLatched w).p = s.p := rfl
@[simp] theorem State.setLatched_m (s : State) (w : Option Word) : (s.setLatched w).m = s.m := rfl
@[simp] theorem State.setLatched_stream (s : State) (w : Option Word) (S : StreamId) : (s.setLatched w).stream S = s.stream S := by cases S <;> rfl

/-! ## nextDraw -/

@[simp] theorem State.nextDraw_latched (s : State) : (s.nextDraw).latched = s.latched := rfl
@[simp] theorem State.nextDraw_ovr (s : State) : (s.nextDraw).ovr = s.ovr := rfl
@[simp] theorem State.nextDraw_mode (s : State) : (s.nextDraw).mode = s.mode := rfl
@[simp] theorem State.nextDraw_result (s : State) : (s.nextDraw).result = s.result := rfl
@[simp] theorem State.nextDraw_errcode (s : State) : (s.nextDraw).errcode = s.errcode := rfl
@[simp] theorem State.nextDraw_errcmd (s : State) : (s.nextDraw).errcmd = s.errcmd := rfl
@[simp] theorem State.nextDraw_errpos (s : State) : (s.nextDraw).errpos = s.errpos := rfl
@[simp] theorem State.nextDraw_alpha (s : State) : (s.nextDraw).alpha = s.alpha := rfl
@[simp] theorem State.nextDraw_width (s : State) : (s.nextDraw).width = s.width := rfl
@[simp] theorem State.nextDraw_root (s : State) : (s.nextDraw).root = s.root := rfl
@[simp] theorem State.nextDraw_nnodes (s : State) : (s.nextDraw).nnodes = s.nnodes := rfl
@[simp] theorem State.nextDraw_maxlen (s : State) : (s.nextDraw).maxlen = s.maxlen := rfl
@[simp] theorem State.nextDraw_freq (s : State) : (s.nextDraw).freq = s.freq := rfl
@[simp] theorem State.nextDraw_total (s : State) : (s.nextDraw).total = s.total := rfl
@[simp] theorem State.nextDraw_clen (s : State) : (s.nextDraw).clen = s.clen := rfl
@[simp] theorem State.nextDraw_cval (s : State) : (s.nextDraw).cval = s.cval := rfl
@[simp] theorem State.nextDraw_rvalid (s : State) : (s.nextDraw).rvalid = s.rvalid := rfl
@[simp] theorem State.nextDraw_rsym (s : State) : (s.nextDraw).rsym = s.rsym := rfl
@[simp] theorem State.nextDraw_arena (s : State) : (s.nextDraw).arena = s.arena := rfl
@[simp] theorem State.nextDraw_wsum (s : State) : (s.nextDraw).wsum = s.wsum := rfl
@[simp] theorem State.nextDraw_host (s : State) : (s.nextDraw).host = s.host := rfl
@[simp] theorem State.nextDraw_reads (s : State) : (s.nextDraw).reads = s.reads := rfl
@[simp] theorem State.nextDraw_draws (s : State) : (s.nextDraw).draws = s.draws + 1 := rfl
@[simp] theorem State.nextDraw_powerOns (s : State) : (s.nextDraw).powerOns = s.powerOns := rfl
@[simp] theorem State.nextDraw_config (s : State) : (s.nextDraw).config = s.config := rfl
@[simp] theorem State.nextDraw_blank (s : State) (S : StreamId) : (s.nextDraw).blank S = s.blank S := rfl
@[simp] theorem State.nextDraw_p (s : State) : (s.nextDraw).p = s.p := rfl
@[simp] theorem State.nextDraw_m (s : State) : (s.nextDraw).m = s.m := rfl
@[simp] theorem State.nextDraw_stream (s : State) (S : StreamId) : (s.nextDraw).stream S = s.stream S := by cases S <;> rfl

/-! ## setResult -/

@[simp] theorem State.setResult_latched (s : State) (v : Word) : (s.setResult v).latched = s.latched := rfl
@[simp] theorem State.setResult_ovr (s : State) (v : Word) : (s.setResult v).ovr = s.ovr := rfl
@[simp] theorem State.setResult_mode (s : State) (v : Word) : (s.setResult v).mode = s.mode := rfl
@[simp] theorem State.setResult_result (s : State) (v : Word) : (s.setResult v).result = v := rfl
@[simp] theorem State.setResult_errcode (s : State) (v : Word) : (s.setResult v).errcode = s.errcode := rfl
@[simp] theorem State.setResult_errcmd (s : State) (v : Word) : (s.setResult v).errcmd = s.errcmd := rfl
@[simp] theorem State.setResult_errpos (s : State) (v : Word) : (s.setResult v).errpos = s.errpos := rfl
@[simp] theorem State.setResult_alpha (s : State) (v : Word) : (s.setResult v).alpha = s.alpha := rfl
@[simp] theorem State.setResult_width (s : State) (v : Word) : (s.setResult v).width = s.width := rfl
@[simp] theorem State.setResult_root (s : State) (v : Word) : (s.setResult v).root = s.root := rfl
@[simp] theorem State.setResult_nnodes (s : State) (v : Word) : (s.setResult v).nnodes = s.nnodes := rfl
@[simp] theorem State.setResult_maxlen (s : State) (v : Word) : (s.setResult v).maxlen = s.maxlen := rfl
@[simp] theorem State.setResult_freq (s : State) (v : Word) : (s.setResult v).freq = s.freq := rfl
@[simp] theorem State.setResult_total (s : State) (v : Word) : (s.setResult v).total = s.total := rfl
@[simp] theorem State.setResult_clen (s : State) (v : Word) : (s.setResult v).clen = s.clen := rfl
@[simp] theorem State.setResult_cval (s : State) (v : Word) : (s.setResult v).cval = s.cval := rfl
@[simp] theorem State.setResult_rvalid (s : State) (v : Word) : (s.setResult v).rvalid = s.rvalid := rfl
@[simp] theorem State.setResult_rsym (s : State) (v : Word) : (s.setResult v).rsym = s.rsym := rfl
@[simp] theorem State.setResult_arena (s : State) (v : Word) : (s.setResult v).arena = s.arena := rfl
@[simp] theorem State.setResult_wsum (s : State) (v : Word) : (s.setResult v).wsum = s.wsum := rfl
@[simp] theorem State.setResult_host (s : State) (v : Word) : (s.setResult v).host = s.host := rfl
@[simp] theorem State.setResult_reads (s : State) (v : Word) : (s.setResult v).reads = s.reads := rfl
@[simp] theorem State.setResult_draws (s : State) (v : Word) : (s.setResult v).draws = s.draws := rfl
@[simp] theorem State.setResult_powerOns (s : State) (v : Word) : (s.setResult v).powerOns = s.powerOns := rfl
@[simp] theorem State.setResult_config (s : State) (v : Word) : (s.setResult v).config = s.config := rfl
@[simp] theorem State.setResult_blank (s : State) (v : Word) (S : StreamId) : (s.setResult v).blank S = s.blank S := rfl
@[simp] theorem State.setResult_p (s : State) (v : Word) : (s.setResult v).p = s.p := rfl
@[simp] theorem State.setResult_m (s : State) (v : Word) : (s.setResult v).m = s.m := rfl

/-! ## setOvr -/

@[simp] theorem State.setOvr_latched (s : State) : s.setOvr.latched = s.latched := rfl
@[simp] theorem State.setOvr_ovr (s : State) : s.setOvr.ovr = true := rfl
@[simp] theorem State.setOvr_mode (s : State) : s.setOvr.mode = s.mode := rfl
@[simp] theorem State.setOvr_result (s : State) : s.setOvr.result = s.result := rfl
@[simp] theorem State.setOvr_errcode (s : State) : s.setOvr.errcode = s.errcode := rfl
@[simp] theorem State.setOvr_errcmd (s : State) : s.setOvr.errcmd = s.errcmd := rfl
@[simp] theorem State.setOvr_errpos (s : State) : s.setOvr.errpos = s.errpos := rfl
@[simp] theorem State.setOvr_alpha (s : State) : s.setOvr.alpha = s.alpha := rfl
@[simp] theorem State.setOvr_width (s : State) : s.setOvr.width = s.width := rfl
@[simp] theorem State.setOvr_root (s : State) : s.setOvr.root = s.root := rfl
@[simp] theorem State.setOvr_nnodes (s : State) : s.setOvr.nnodes = s.nnodes := rfl
@[simp] theorem State.setOvr_maxlen (s : State) : s.setOvr.maxlen = s.maxlen := rfl
@[simp] theorem State.setOvr_freq (s : State) : s.setOvr.freq = s.freq := rfl
@[simp] theorem State.setOvr_total (s : State) : s.setOvr.total = s.total := rfl
@[simp] theorem State.setOvr_clen (s : State) : s.setOvr.clen = s.clen := rfl
@[simp] theorem State.setOvr_cval (s : State) : s.setOvr.cval = s.cval := rfl
@[simp] theorem State.setOvr_rvalid (s : State) : s.setOvr.rvalid = s.rvalid := rfl
@[simp] theorem State.setOvr_rsym (s : State) : s.setOvr.rsym = s.rsym := rfl
@[simp] theorem State.setOvr_arena (s : State) : s.setOvr.arena = s.arena := rfl
@[simp] theorem State.setOvr_wsum (s : State) : s.setOvr.wsum = s.wsum := rfl
@[simp] theorem State.setOvr_host (s : State) : s.setOvr.host = s.host := rfl
@[simp] theorem State.setOvr_reads (s : State) : s.setOvr.reads = s.reads := rfl
@[simp] theorem State.setOvr_draws (s : State) : s.setOvr.draws = s.draws := rfl
@[simp] theorem State.setOvr_powerOns (s : State) : s.setOvr.powerOns = s.powerOns := rfl
@[simp] theorem State.setOvr_config (s : State) : s.setOvr.config = s.config := rfl
@[simp] theorem State.setOvr_p (s : State) : s.setOvr.p = s.p := rfl
@[simp] theorem State.setOvr_m (s : State) : s.setOvr.m = s.m := rfl
@[simp] theorem State.setOvr_blank (s : State) (S : StreamId) : s.setOvr.blank S = s.blank S := rfl
@[simp] theorem State.setOvr_stream (s : State) (S : StreamId) : s.setOvr.stream S = s.stream S := by cases S <;> rfl

/-! ## addRead -/

@[simp] theorem State.addRead_latched (s : State) (v : Word) : (s.addRead v).latched = s.latched := rfl
@[simp] theorem State.addRead_ovr (s : State) (v : Word) : (s.addRead v).ovr = s.ovr := rfl
@[simp] theorem State.addRead_mode (s : State) (v : Word) : (s.addRead v).mode = s.mode := rfl
@[simp] theorem State.addRead_result (s : State) (v : Word) : (s.addRead v).result = s.result := rfl
@[simp] theorem State.addRead_errcode (s : State) (v : Word) : (s.addRead v).errcode = s.errcode := rfl
@[simp] theorem State.addRead_errcmd (s : State) (v : Word) : (s.addRead v).errcmd = s.errcmd := rfl
@[simp] theorem State.addRead_errpos (s : State) (v : Word) : (s.addRead v).errpos = s.errpos := rfl
@[simp] theorem State.addRead_alpha (s : State) (v : Word) : (s.addRead v).alpha = s.alpha := rfl
@[simp] theorem State.addRead_width (s : State) (v : Word) : (s.addRead v).width = s.width := rfl
@[simp] theorem State.addRead_root (s : State) (v : Word) : (s.addRead v).root = s.root := rfl
@[simp] theorem State.addRead_nnodes (s : State) (v : Word) : (s.addRead v).nnodes = s.nnodes := rfl
@[simp] theorem State.addRead_maxlen (s : State) (v : Word) : (s.addRead v).maxlen = s.maxlen := rfl
@[simp] theorem State.addRead_freq (s : State) (v : Word) : (s.addRead v).freq = s.freq := rfl
@[simp] theorem State.addRead_total (s : State) (v : Word) : (s.addRead v).total = s.total := rfl
@[simp] theorem State.addRead_clen (s : State) (v : Word) : (s.addRead v).clen = s.clen := rfl
@[simp] theorem State.addRead_cval (s : State) (v : Word) : (s.addRead v).cval = s.cval := rfl
@[simp] theorem State.addRead_rvalid (s : State) (v : Word) : (s.addRead v).rvalid = s.rvalid := rfl
@[simp] theorem State.addRead_rsym (s : State) (v : Word) : (s.addRead v).rsym = s.rsym := rfl
@[simp] theorem State.addRead_arena (s : State) (v : Word) : (s.addRead v).arena = s.arena := rfl
@[simp] theorem State.addRead_wsum (s : State) (v : Word) : (s.addRead v).wsum = s.wsum := rfl
@[simp] theorem State.addRead_host (s : State) (v : Word) : (s.addRead v).host = s.host := rfl
@[simp] theorem State.addRead_reads (s : State) (v : Word) : (s.addRead v).reads = v :: s.reads := rfl
@[simp] theorem State.addRead_draws (s : State) (v : Word) : (s.addRead v).draws = s.draws := rfl
@[simp] theorem State.addRead_powerOns (s : State) (v : Word) : (s.addRead v).powerOns = s.powerOns := rfl
@[simp] theorem State.addRead_config (s : State) (v : Word) : (s.addRead v).config = s.config := rfl
@[simp] theorem State.addRead_p (s : State) (v : Word) : (s.addRead v).p = s.p := rfl
@[simp] theorem State.addRead_m (s : State) (v : Word) : (s.addRead v).m = s.m := rfl
@[simp] theorem State.addRead_blank (s : State) (v : Word) (S : StreamId) : (s.addRead v).blank S = s.blank S := rfl
@[simp] theorem State.addRead_stream (s : State) (v : Word) (S : StreamId) : (s.addRead v).stream S = s.stream S := by cases S <;> rfl

/-! ## setProfile -/

@[simp] theorem State.setProfile_latched (s : State) (freq : Table Word) (total : Word) : (s.setProfile freq total).latched = s.latched := rfl
@[simp] theorem State.setProfile_ovr (s : State) (freq : Table Word) (total : Word) : (s.setProfile freq total).ovr = s.ovr := rfl
@[simp] theorem State.setProfile_mode (s : State) (freq : Table Word) (total : Word) : (s.setProfile freq total).mode = s.mode := rfl
@[simp] theorem State.setProfile_result (s : State) (freq : Table Word) (total : Word) : (s.setProfile freq total).result = s.result := rfl
@[simp] theorem State.setProfile_errcode (s : State) (freq : Table Word) (total : Word) : (s.setProfile freq total).errcode = s.errcode := rfl
@[simp] theorem State.setProfile_errcmd (s : State) (freq : Table Word) (total : Word) : (s.setProfile freq total).errcmd = s.errcmd := rfl
@[simp] theorem State.setProfile_errpos (s : State) (freq : Table Word) (total : Word) : (s.setProfile freq total).errpos = s.errpos := rfl
@[simp] theorem State.setProfile_alpha (s : State) (freq : Table Word) (total : Word) : (s.setProfile freq total).alpha = s.alpha := rfl
@[simp] theorem State.setProfile_width (s : State) (freq : Table Word) (total : Word) : (s.setProfile freq total).width = s.width := rfl
@[simp] theorem State.setProfile_root (s : State) (freq : Table Word) (total : Word) : (s.setProfile freq total).root = s.root := rfl
@[simp] theorem State.setProfile_nnodes (s : State) (freq : Table Word) (total : Word) : (s.setProfile freq total).nnodes = s.nnodes := rfl
@[simp] theorem State.setProfile_maxlen (s : State) (freq : Table Word) (total : Word) : (s.setProfile freq total).maxlen = s.maxlen := rfl
@[simp] theorem State.setProfile_freq (s : State) (freq : Table Word) (total : Word) : (s.setProfile freq total).freq = freq := rfl
@[simp] theorem State.setProfile_total (s : State) (freq : Table Word) (total : Word) : (s.setProfile freq total).total = total := rfl
@[simp] theorem State.setProfile_clen (s : State) (freq : Table Word) (total : Word) : (s.setProfile freq total).clen = s.clen := rfl
@[simp] theorem State.setProfile_cval (s : State) (freq : Table Word) (total : Word) : (s.setProfile freq total).cval = s.cval := rfl
@[simp] theorem State.setProfile_rvalid (s : State) (freq : Table Word) (total : Word) : (s.setProfile freq total).rvalid = s.rvalid := rfl
@[simp] theorem State.setProfile_rsym (s : State) (freq : Table Word) (total : Word) : (s.setProfile freq total).rsym = s.rsym := rfl
@[simp] theorem State.setProfile_arena (s : State) (freq : Table Word) (total : Word) : (s.setProfile freq total).arena = s.arena := rfl
@[simp] theorem State.setProfile_wsum (s : State) (freq : Table Word) (total : Word) : (s.setProfile freq total).wsum = s.wsum := rfl
@[simp] theorem State.setProfile_host (s : State) (freq : Table Word) (total : Word) : (s.setProfile freq total).host = s.host := rfl
@[simp] theorem State.setProfile_reads (s : State) (freq : Table Word) (total : Word) : (s.setProfile freq total).reads = s.reads := rfl
@[simp] theorem State.setProfile_draws (s : State) (freq : Table Word) (total : Word) : (s.setProfile freq total).draws = s.draws := rfl
@[simp] theorem State.setProfile_powerOns (s : State) (freq : Table Word) (total : Word) : (s.setProfile freq total).powerOns = s.powerOns := rfl
@[simp] theorem State.setProfile_config (s : State) (freq : Table Word) (total : Word) : (s.setProfile freq total).config = s.config := rfl
@[simp] theorem State.setProfile_p (s : State) (freq : Table Word) (total : Word) : (s.setProfile freq total).p = s.p := rfl
@[simp] theorem State.setProfile_m (s : State) (freq : Table Word) (total : Word) : (s.setProfile freq total).m = s.m := rfl
@[simp] theorem State.setProfile_blank (s : State) (freq : Table Word) (total : Word) (S : StreamId) : (s.setProfile freq total).blank S = s.blank S := rfl
@[simp] theorem State.setProfile_stream (s : State) (freq : Table Word) (total : Word) (S : StreamId) : (s.setProfile freq total).stream S = s.stream S := by cases S <;> rfl

/-! ## setWsum -/

@[simp] theorem State.setWsum_latched (s : State) (v : BitVec 64) : (s.setWsum v).latched = s.latched := rfl
@[simp] theorem State.setWsum_ovr (s : State) (v : BitVec 64) : (s.setWsum v).ovr = s.ovr := rfl
@[simp] theorem State.setWsum_mode (s : State) (v : BitVec 64) : (s.setWsum v).mode = s.mode := rfl
@[simp] theorem State.setWsum_result (s : State) (v : BitVec 64) : (s.setWsum v).result = s.result := rfl
@[simp] theorem State.setWsum_errcode (s : State) (v : BitVec 64) : (s.setWsum v).errcode = s.errcode := rfl
@[simp] theorem State.setWsum_errcmd (s : State) (v : BitVec 64) : (s.setWsum v).errcmd = s.errcmd := rfl
@[simp] theorem State.setWsum_errpos (s : State) (v : BitVec 64) : (s.setWsum v).errpos = s.errpos := rfl
@[simp] theorem State.setWsum_alpha (s : State) (v : BitVec 64) : (s.setWsum v).alpha = s.alpha := rfl
@[simp] theorem State.setWsum_width (s : State) (v : BitVec 64) : (s.setWsum v).width = s.width := rfl
@[simp] theorem State.setWsum_root (s : State) (v : BitVec 64) : (s.setWsum v).root = s.root := rfl
@[simp] theorem State.setWsum_nnodes (s : State) (v : BitVec 64) : (s.setWsum v).nnodes = s.nnodes := rfl
@[simp] theorem State.setWsum_maxlen (s : State) (v : BitVec 64) : (s.setWsum v).maxlen = s.maxlen := rfl
@[simp] theorem State.setWsum_freq (s : State) (v : BitVec 64) : (s.setWsum v).freq = s.freq := rfl
@[simp] theorem State.setWsum_total (s : State) (v : BitVec 64) : (s.setWsum v).total = s.total := rfl
@[simp] theorem State.setWsum_clen (s : State) (v : BitVec 64) : (s.setWsum v).clen = s.clen := rfl
@[simp] theorem State.setWsum_cval (s : State) (v : BitVec 64) : (s.setWsum v).cval = s.cval := rfl
@[simp] theorem State.setWsum_rvalid (s : State) (v : BitVec 64) : (s.setWsum v).rvalid = s.rvalid := rfl
@[simp] theorem State.setWsum_rsym (s : State) (v : BitVec 64) : (s.setWsum v).rsym = s.rsym := rfl
@[simp] theorem State.setWsum_arena (s : State) (v : BitVec 64) : (s.setWsum v).arena = s.arena := rfl
@[simp] theorem State.setWsum_wsum (s : State) (v : BitVec 64) : (s.setWsum v).wsum = v := rfl
@[simp] theorem State.setWsum_host (s : State) (v : BitVec 64) : (s.setWsum v).host = s.host := rfl
@[simp] theorem State.setWsum_reads (s : State) (v : BitVec 64) : (s.setWsum v).reads = s.reads := rfl
@[simp] theorem State.setWsum_draws (s : State) (v : BitVec 64) : (s.setWsum v).draws = s.draws := rfl
@[simp] theorem State.setWsum_powerOns (s : State) (v : BitVec 64) : (s.setWsum v).powerOns = s.powerOns := rfl
@[simp] theorem State.setWsum_config (s : State) (v : BitVec 64) : (s.setWsum v).config = s.config := rfl
@[simp] theorem State.setWsum_p (s : State) (v : BitVec 64) : (s.setWsum v).p = s.p := rfl
@[simp] theorem State.setWsum_m (s : State) (v : BitVec 64) : (s.setWsum v).m = s.m := rfl
@[simp] theorem State.setWsum_blank (s : State) (v : BitVec 64) (S : StreamId) : (s.setWsum v).blank S = s.blank S := rfl
@[simp] theorem State.setWsum_stream (s : State) (v : BitVec 64) (S : StreamId) : (s.setWsum v).stream S = s.stream S := by cases S <;> rfl

/-! ## raise: the error entry (60_exceptions.md R234) -/

@[simp] theorem State.raise_latched (s : State) (w : Word) (e : ErrCode) (pos : Nat) : (s.raise w e pos).latched = none := rfl
@[simp] theorem State.raise_ovr (s : State) (w : Word) (e : ErrCode) (pos : Nat) : (s.raise w e pos).ovr = s.ovr := rfl
@[simp] theorem State.raise_mode (s : State) (w : Word) (e : ErrCode) (pos : Nat) : (s.raise w e pos).mode = s.mode := rfl
@[simp] theorem State.raise_result (s : State) (w : Word) (e : ErrCode) (pos : Nat) : (s.raise w e pos).result = s.result := rfl
@[simp] theorem State.raise_errcode (s : State) (w : Word) (e : ErrCode) (pos : Nat) : (s.raise w e pos).errcode = e.code := rfl
@[simp] theorem State.raise_errcmd (s : State) (w : Word) (e : ErrCode) (pos : Nat) : (s.raise w e pos).errcmd = w := rfl
@[simp] theorem State.raise_errpos (s : State) (w : Word) (e : ErrCode) (pos : Nat) : (s.raise w e pos).errpos = BitVec.ofNat 20 pos := rfl
@[simp] theorem State.raise_alpha (s : State) (w : Word) (e : ErrCode) (pos : Nat) : (s.raise w e pos).alpha = s.alpha := rfl
@[simp] theorem State.raise_width (s : State) (w : Word) (e : ErrCode) (pos : Nat) : (s.raise w e pos).width = s.width := rfl
@[simp] theorem State.raise_root (s : State) (w : Word) (e : ErrCode) (pos : Nat) : (s.raise w e pos).root = s.root := rfl
@[simp] theorem State.raise_nnodes (s : State) (w : Word) (e : ErrCode) (pos : Nat) : (s.raise w e pos).nnodes = s.nnodes := rfl
@[simp] theorem State.raise_maxlen (s : State) (w : Word) (e : ErrCode) (pos : Nat) : (s.raise w e pos).maxlen = s.maxlen := rfl
@[simp] theorem State.raise_freq (s : State) (w : Word) (e : ErrCode) (pos : Nat) : (s.raise w e pos).freq = s.freq := rfl
@[simp] theorem State.raise_total (s : State) (w : Word) (e : ErrCode) (pos : Nat) : (s.raise w e pos).total = s.total := rfl
@[simp] theorem State.raise_clen (s : State) (w : Word) (e : ErrCode) (pos : Nat) : (s.raise w e pos).clen = s.clen := rfl
@[simp] theorem State.raise_cval (s : State) (w : Word) (e : ErrCode) (pos : Nat) : (s.raise w e pos).cval = s.cval := rfl
@[simp] theorem State.raise_rvalid (s : State) (w : Word) (e : ErrCode) (pos : Nat) : (s.raise w e pos).rvalid = s.rvalid := rfl
@[simp] theorem State.raise_rsym (s : State) (w : Word) (e : ErrCode) (pos : Nat) : (s.raise w e pos).rsym = s.rsym := rfl
@[simp] theorem State.raise_arena (s : State) (w : Word) (e : ErrCode) (pos : Nat) : (s.raise w e pos).arena = s.arena := rfl
@[simp] theorem State.raise_wsum (s : State) (w : Word) (e : ErrCode) (pos : Nat) : (s.raise w e pos).wsum = s.wsum := rfl
@[simp] theorem State.raise_host (s : State) (w : Word) (e : ErrCode) (pos : Nat) : (s.raise w e pos).host = s.host := rfl
@[simp] theorem State.raise_reads (s : State) (w : Word) (e : ErrCode) (pos : Nat) : (s.raise w e pos).reads = s.reads := rfl
@[simp] theorem State.raise_draws (s : State) (w : Word) (e : ErrCode) (pos : Nat) : (s.raise w e pos).draws = s.draws := rfl
@[simp] theorem State.raise_powerOns (s : State) (w : Word) (e : ErrCode) (pos : Nat) : (s.raise w e pos).powerOns = s.powerOns := rfl
@[simp] theorem State.raise_config (s : State) (w : Word) (e : ErrCode) (pos : Nat) : (s.raise w e pos).config = s.config := rfl
@[simp] theorem State.raise_blank (s : State) (w : Word) (e : ErrCode) (pos : Nat) (S : StreamId) : (s.raise w e pos).blank S = s.blank S := rfl
@[simp] theorem State.raise_p (s : State) (w : Word) (e : ErrCode) (pos : Nat) : (s.raise w e pos).p = s.p := rfl
@[simp] theorem State.raise_m (s : State) (w : Word) (e : ErrCode) (pos : Nat) : (s.raise w e pos).m = s.m := rfl

/-! ## clearError: the return from an error (60_exceptions.md R236) -/

@[simp] theorem State.clearError_latched (s : State) : (s.clearError).latched = s.latched := rfl
@[simp] theorem State.clearError_ovr (s : State) : (s.clearError).ovr = false := rfl
@[simp] theorem State.clearError_mode (s : State) : (s.clearError).mode = s.mode := rfl
@[simp] theorem State.clearError_result (s : State) : (s.clearError).result = s.result := rfl
@[simp] theorem State.clearError_errcode (s : State) : (s.clearError).errcode = 0#8 := rfl
@[simp] theorem State.clearError_errcmd (s : State) : (s.clearError).errcmd = 0#32 := rfl
@[simp] theorem State.clearError_errpos (s : State) : (s.clearError).errpos = 0#20 := rfl
@[simp] theorem State.clearError_alpha (s : State) : (s.clearError).alpha = s.alpha := rfl
@[simp] theorem State.clearError_width (s : State) : (s.clearError).width = s.width := rfl
@[simp] theorem State.clearError_root (s : State) : (s.clearError).root = s.root := rfl
@[simp] theorem State.clearError_nnodes (s : State) : (s.clearError).nnodes = s.nnodes := rfl
@[simp] theorem State.clearError_maxlen (s : State) : (s.clearError).maxlen = s.maxlen := rfl
@[simp] theorem State.clearError_freq (s : State) : (s.clearError).freq = s.freq := rfl
@[simp] theorem State.clearError_total (s : State) : (s.clearError).total = s.total := rfl
@[simp] theorem State.clearError_clen (s : State) : (s.clearError).clen = s.clen := rfl
@[simp] theorem State.clearError_cval (s : State) : (s.clearError).cval = s.cval := rfl
@[simp] theorem State.clearError_rvalid (s : State) : (s.clearError).rvalid = s.rvalid := rfl
@[simp] theorem State.clearError_rsym (s : State) : (s.clearError).rsym = s.rsym := rfl
@[simp] theorem State.clearError_arena (s : State) : (s.clearError).arena = s.arena := rfl
@[simp] theorem State.clearError_wsum (s : State) : (s.clearError).wsum = s.wsum := rfl
@[simp] theorem State.clearError_host (s : State) : (s.clearError).host = s.host := rfl
@[simp] theorem State.clearError_reads (s : State) : (s.clearError).reads = s.reads := rfl
@[simp] theorem State.clearError_draws (s : State) : (s.clearError).draws = s.draws := rfl
@[simp] theorem State.clearError_powerOns (s : State) : (s.clearError).powerOns = s.powerOns := rfl
@[simp] theorem State.clearError_config (s : State) : (s.clearError).config = s.config := rfl
@[simp] theorem State.clearError_blank (s : State) (S : StreamId) : (s.clearError).blank S = s.blank S := rfl
@[simp] theorem State.clearError_p (s : State) : (s.clearError).p = s.p := rfl
@[simp] theorem State.clearError_m (s : State) : (s.clearError).m = s.m := rfl

/-! ## resetOf: the reset values (70_reset_and_hazards.md R260) -/

@[simp] theorem State.resetOf_config (c : Config.Params) : (State.resetOf c).config = c := rfl
@[simp] theorem State.resetOf_latched (c : Config.Params) : (State.resetOf c).latched = none := rfl
@[simp] theorem State.resetOf_ovr (c : Config.Params) : (State.resetOf c).ovr = false := rfl
@[simp] theorem State.resetOf_mode (c : Config.Params) : (State.resetOf c).mode = .none := rfl
@[simp] theorem State.resetOf_result (c : Config.Params) : (State.resetOf c).result = 0#32 := rfl
@[simp] theorem State.resetOf_errcode (c : Config.Params) : (State.resetOf c).errcode = 0#8 := rfl
@[simp] theorem State.resetOf_errcmd (c : Config.Params) : (State.resetOf c).errcmd = 0#32 := rfl
@[simp] theorem State.resetOf_errpos (c : Config.Params) : (State.resetOf c).errpos = 0#20 := rfl
@[simp] theorem State.resetOf_alpha (c : Config.Params) : (State.resetOf c).alpha = 0#9 := rfl
@[simp] theorem State.resetOf_width (c : Config.Params) : (State.resetOf c).width = 0#4 := rfl
@[simp] theorem State.resetOf_root (c : Config.Params) : (State.resetOf c).root = 0#9 := rfl
@[simp] theorem State.resetOf_nnodes (c : Config.Params) : (State.resetOf c).nnodes = 0#10 := rfl
@[simp] theorem State.resetOf_maxlen (c : Config.Params) : (State.resetOf c).maxlen = 0#8 := rfl
@[simp] theorem State.resetOf_freq (c : Config.Params) : (State.resetOf c).freq = Vector.replicate 256 0#32 := rfl
@[simp] theorem State.resetOf_total (c : Config.Params) : (State.resetOf c).total = 0#32 := rfl
@[simp] theorem State.resetOf_clen (c : Config.Params) : (State.resetOf c).clen = Vector.replicate 256 0#8 := rfl
@[simp] theorem State.resetOf_cval (c : Config.Params) : (State.resetOf c).cval = Vector.replicate 256 0#255 := rfl
@[simp] theorem State.resetOf_rvalid (c : Config.Params) : (State.resetOf c).rvalid = Vector.replicate 256 false := rfl
@[simp] theorem State.resetOf_rsym (c : Config.Params) : (State.resetOf c).rsym = Vector.replicate 256 0#8 := rfl
@[simp] theorem State.resetOf_arena (c : Config.Params) : (State.resetOf c).arena = [] := rfl
@[simp] theorem State.resetOf_wsum (c : Config.Params) : (State.resetOf c).wsum = 0#64 := rfl
@[simp] theorem State.resetOf_host (c : Config.Params) : (State.resetOf c).host = [] := rfl
@[simp] theorem State.resetOf_reads (c : Config.Params) : (State.resetOf c).reads = [] := rfl
@[simp] theorem State.resetOf_draws (c : Config.Params) : (State.resetOf c).draws = 0 := rfl
@[simp] theorem State.resetOf_powerOns (c : Config.Params) : (State.resetOf c).powerOns = 0 := rfl
@[simp] theorem State.resetOf_p (c : Config.Params) : (State.resetOf c).p = BitStream.reset := rfl
@[simp] theorem State.resetOf_m (c : Config.Params) : (State.resetOf c).m = BitStream.reset := rfl

/-! ## softReset: what SRESET sets (70_reset_and_hazards.md R260) and what it keeps -/

@[simp] theorem State.softReset_latched (s : State) : s.softReset.latched = none := rfl
@[simp] theorem State.softReset_ovr (s : State) : s.softReset.ovr = false := rfl
@[simp] theorem State.softReset_mode (s : State) : s.softReset.mode = .none := rfl
@[simp] theorem State.softReset_result (s : State) : s.softReset.result = 0#32 := rfl
@[simp] theorem State.softReset_errcode (s : State) : s.softReset.errcode = 0#8 := rfl
@[simp] theorem State.softReset_errcmd (s : State) : s.softReset.errcmd = 0#32 := rfl
@[simp] theorem State.softReset_errpos (s : State) : s.softReset.errpos = 0#20 := rfl
@[simp] theorem State.softReset_alpha (s : State) : s.softReset.alpha = 0#9 := rfl
@[simp] theorem State.softReset_width (s : State) : s.softReset.width = 0#4 := rfl
@[simp] theorem State.softReset_root (s : State) : s.softReset.root = 0#9 := rfl
@[simp] theorem State.softReset_nnodes (s : State) : s.softReset.nnodes = 0#10 := rfl
@[simp] theorem State.softReset_maxlen (s : State) : s.softReset.maxlen = 0#8 := rfl
@[simp] theorem State.softReset_freq (s : State) : s.softReset.freq = Vector.replicate 256 0#32 := rfl
@[simp] theorem State.softReset_total (s : State) : s.softReset.total = 0#32 := rfl
@[simp] theorem State.softReset_clen (s : State) : s.softReset.clen = Vector.replicate 256 0#8 := rfl
@[simp] theorem State.softReset_cval (s : State) : s.softReset.cval = Vector.replicate 256 0#255 := rfl
@[simp] theorem State.softReset_rvalid (s : State) : s.softReset.rvalid = Vector.replicate 256 false := rfl
@[simp] theorem State.softReset_rsym (s : State) : s.softReset.rsym = Vector.replicate 256 0#8 := rfl
@[simp] theorem State.softReset_arena (s : State) : s.softReset.arena = [] := rfl
@[simp] theorem State.softReset_wsum (s : State) : s.softReset.wsum = 0#64 := rfl
@[simp] theorem State.softReset_stream (s : State) (S : StreamId) :
    s.softReset.stream S = { s.stream S with wbits := 0, rpos := 0 } := by cases S <;> rfl
@[simp] theorem State.softReset_p (s : State) : s.softReset.p = { s.p with wbits := 0, rpos := 0 } := rfl
@[simp] theorem State.softReset_m (s : State) : s.softReset.m = { s.m with wbits := 0, rpos := 0 } := rfl
@[simp] theorem State.softReset_host (s : State) : s.softReset.host = s.host := rfl
@[simp] theorem State.softReset_reads (s : State) : s.softReset.reads = s.reads := rfl
@[simp] theorem State.softReset_draws (s : State) : s.softReset.draws = s.draws := rfl
@[simp] theorem State.softReset_powerOns (s : State) : s.softReset.powerOns = s.powerOns := rfl
@[simp] theorem State.softReset_config (s : State) : s.softReset.config = s.config := rfl
@[simp] theorem State.softReset_blank (s : State) (S : StreamId) : s.softReset.blank S = s.blank S := rfl

/-! ## setStream and what is made of it: a stream replaced -/

@[simp] theorem State.setStream_latched (s : State) (S : StreamId) (st : BitStream) : (s.setStream S st).latched = s.latched := by cases S <;> rfl
@[simp] theorem State.setStream_ovr (s : State) (S : StreamId) (st : BitStream) : (s.setStream S st).ovr = s.ovr := by cases S <;> rfl
@[simp] theorem State.setStream_mode (s : State) (S : StreamId) (st : BitStream) : (s.setStream S st).mode = s.mode := by cases S <;> rfl
@[simp] theorem State.setStream_result (s : State) (S : StreamId) (st : BitStream) : (s.setStream S st).result = s.result := by cases S <;> rfl
@[simp] theorem State.setStream_errcode (s : State) (S : StreamId) (st : BitStream) : (s.setStream S st).errcode = s.errcode := by cases S <;> rfl
@[simp] theorem State.setStream_errcmd (s : State) (S : StreamId) (st : BitStream) : (s.setStream S st).errcmd = s.errcmd := by cases S <;> rfl
@[simp] theorem State.setStream_errpos (s : State) (S : StreamId) (st : BitStream) : (s.setStream S st).errpos = s.errpos := by cases S <;> rfl
@[simp] theorem State.setStream_alpha (s : State) (S : StreamId) (st : BitStream) : (s.setStream S st).alpha = s.alpha := by cases S <;> rfl
@[simp] theorem State.setStream_width (s : State) (S : StreamId) (st : BitStream) : (s.setStream S st).width = s.width := by cases S <;> rfl
@[simp] theorem State.setStream_root (s : State) (S : StreamId) (st : BitStream) : (s.setStream S st).root = s.root := by cases S <;> rfl
@[simp] theorem State.setStream_nnodes (s : State) (S : StreamId) (st : BitStream) : (s.setStream S st).nnodes = s.nnodes := by cases S <;> rfl
@[simp] theorem State.setStream_maxlen (s : State) (S : StreamId) (st : BitStream) : (s.setStream S st).maxlen = s.maxlen := by cases S <;> rfl
@[simp] theorem State.setStream_freq (s : State) (S : StreamId) (st : BitStream) : (s.setStream S st).freq = s.freq := by cases S <;> rfl
@[simp] theorem State.setStream_total (s : State) (S : StreamId) (st : BitStream) : (s.setStream S st).total = s.total := by cases S <;> rfl
@[simp] theorem State.setStream_clen (s : State) (S : StreamId) (st : BitStream) : (s.setStream S st).clen = s.clen := by cases S <;> rfl
@[simp] theorem State.setStream_cval (s : State) (S : StreamId) (st : BitStream) : (s.setStream S st).cval = s.cval := by cases S <;> rfl
@[simp] theorem State.setStream_rvalid (s : State) (S : StreamId) (st : BitStream) : (s.setStream S st).rvalid = s.rvalid := by cases S <;> rfl
@[simp] theorem State.setStream_rsym (s : State) (S : StreamId) (st : BitStream) : (s.setStream S st).rsym = s.rsym := by cases S <;> rfl
@[simp] theorem State.setStream_arena (s : State) (S : StreamId) (st : BitStream) : (s.setStream S st).arena = s.arena := by cases S <;> rfl
@[simp] theorem State.setStream_wsum (s : State) (S : StreamId) (st : BitStream) : (s.setStream S st).wsum = s.wsum := by cases S <;> rfl
@[simp] theorem State.setStream_host (s : State) (S : StreamId) (st : BitStream) : (s.setStream S st).host = s.host := by cases S <;> rfl
@[simp] theorem State.setStream_reads (s : State) (S : StreamId) (st : BitStream) : (s.setStream S st).reads = s.reads := by cases S <;> rfl
@[simp] theorem State.setStream_draws (s : State) (S : StreamId) (st : BitStream) : (s.setStream S st).draws = s.draws := by cases S <;> rfl
@[simp] theorem State.setStream_powerOns (s : State) (S : StreamId) (st : BitStream) : (s.setStream S st).powerOns = s.powerOns := by cases S <;> rfl
@[simp] theorem State.setStream_config (s : State) (S : StreamId) (st : BitStream) : (s.setStream S st).config = s.config := by cases S <;> rfl
@[simp] theorem State.setStream_blank (s : State) (S : StreamId) (st : BitStream) (T : StreamId) : (s.setStream S st).blank T = s.blank T := by cases S <;> rfl
@[simp] theorem State.setStream_stream (s : State) (S : StreamId) (st : BitStream) : (s.setStream S st).stream S = st := by
  cases S <;> rfl
theorem State.setStream_stream_other (s : State) {S S' : StreamId} (st : BitStream) (h : S' ≠ S) :
    (s.setStream S st).stream S' = s.stream S' := by cases S <;> cases S' <;> first | rfl | exact absurd rfl h
@[simp] theorem State.setStream_P_p (s : State) (st : BitStream) : (s.setStream .P st).p = st := rfl
@[simp] theorem State.setStream_P_m (s : State) (st : BitStream) : (s.setStream .P st).m = s.m := rfl
@[simp] theorem State.setStream_M_m (s : State) (st : BitStream) : (s.setStream .M st).m = st := rfl
@[simp] theorem State.setStream_M_p (s : State) (st : BitStream) : (s.setStream .M st).p = s.p := rfl
@[simp] theorem State.stream_P (s : State) : s.stream .P = s.p := rfl
@[simp] theorem State.stream_M (s : State) : s.stream .M = s.m := rfl

@[simp] theorem State.setRpos_latched (s : State) (S : StreamId) (k : Nat) : (s.setRpos S k).latched = s.latched := by cases S <;> rfl
@[simp] theorem State.setRpos_ovr (s : State) (S : StreamId) (k : Nat) : (s.setRpos S k).ovr = s.ovr := by cases S <;> rfl
@[simp] theorem State.setRpos_mode (s : State) (S : StreamId) (k : Nat) : (s.setRpos S k).mode = s.mode := by cases S <;> rfl
@[simp] theorem State.setRpos_result (s : State) (S : StreamId) (k : Nat) : (s.setRpos S k).result = s.result := by cases S <;> rfl
@[simp] theorem State.setRpos_errcode (s : State) (S : StreamId) (k : Nat) : (s.setRpos S k).errcode = s.errcode := by cases S <;> rfl
@[simp] theorem State.setRpos_errcmd (s : State) (S : StreamId) (k : Nat) : (s.setRpos S k).errcmd = s.errcmd := by cases S <;> rfl
@[simp] theorem State.setRpos_errpos (s : State) (S : StreamId) (k : Nat) : (s.setRpos S k).errpos = s.errpos := by cases S <;> rfl
@[simp] theorem State.setRpos_alpha (s : State) (S : StreamId) (k : Nat) : (s.setRpos S k).alpha = s.alpha := by cases S <;> rfl
@[simp] theorem State.setRpos_width (s : State) (S : StreamId) (k : Nat) : (s.setRpos S k).width = s.width := by cases S <;> rfl
@[simp] theorem State.setRpos_root (s : State) (S : StreamId) (k : Nat) : (s.setRpos S k).root = s.root := by cases S <;> rfl
@[simp] theorem State.setRpos_nnodes (s : State) (S : StreamId) (k : Nat) : (s.setRpos S k).nnodes = s.nnodes := by cases S <;> rfl
@[simp] theorem State.setRpos_maxlen (s : State) (S : StreamId) (k : Nat) : (s.setRpos S k).maxlen = s.maxlen := by cases S <;> rfl
@[simp] theorem State.setRpos_freq (s : State) (S : StreamId) (k : Nat) : (s.setRpos S k).freq = s.freq := by cases S <;> rfl
@[simp] theorem State.setRpos_total (s : State) (S : StreamId) (k : Nat) : (s.setRpos S k).total = s.total := by cases S <;> rfl
@[simp] theorem State.setRpos_clen (s : State) (S : StreamId) (k : Nat) : (s.setRpos S k).clen = s.clen := by cases S <;> rfl
@[simp] theorem State.setRpos_cval (s : State) (S : StreamId) (k : Nat) : (s.setRpos S k).cval = s.cval := by cases S <;> rfl
@[simp] theorem State.setRpos_rvalid (s : State) (S : StreamId) (k : Nat) : (s.setRpos S k).rvalid = s.rvalid := by cases S <;> rfl
@[simp] theorem State.setRpos_rsym (s : State) (S : StreamId) (k : Nat) : (s.setRpos S k).rsym = s.rsym := by cases S <;> rfl
@[simp] theorem State.setRpos_arena (s : State) (S : StreamId) (k : Nat) : (s.setRpos S k).arena = s.arena := by cases S <;> rfl
@[simp] theorem State.setRpos_wsum (s : State) (S : StreamId) (k : Nat) : (s.setRpos S k).wsum = s.wsum := by cases S <;> rfl
@[simp] theorem State.setRpos_host (s : State) (S : StreamId) (k : Nat) : (s.setRpos S k).host = s.host := by cases S <;> rfl
@[simp] theorem State.setRpos_reads (s : State) (S : StreamId) (k : Nat) : (s.setRpos S k).reads = s.reads := by cases S <;> rfl
@[simp] theorem State.setRpos_draws (s : State) (S : StreamId) (k : Nat) : (s.setRpos S k).draws = s.draws := by cases S <;> rfl
@[simp] theorem State.setRpos_powerOns (s : State) (S : StreamId) (k : Nat) : (s.setRpos S k).powerOns = s.powerOns := by cases S <;> rfl
@[simp] theorem State.setRpos_config (s : State) (S : StreamId) (k : Nat) : (s.setRpos S k).config = s.config := by cases S <;> rfl
@[simp] theorem State.setRpos_blank (s : State) (S : StreamId) (k : Nat) (T : StreamId) : (s.setRpos S k).blank T = s.blank T := by cases S <;> rfl
@[simp] theorem State.clearStream_latched (s : State) (S : StreamId) : (s.clearStream S).latched = s.latched := by cases S <;> rfl
@[simp] theorem State.clearStream_ovr (s : State) (S : StreamId) : (s.clearStream S).ovr = s.ovr := by cases S <;> rfl
@[simp] theorem State.clearStream_mode (s : State) (S : StreamId) : (s.clearStream S).mode = s.mode := by cases S <;> rfl
@[simp] theorem State.clearStream_result (s : State) (S : StreamId) : (s.clearStream S).result = s.result := by cases S <;> rfl
@[simp] theorem State.clearStream_errcode (s : State) (S : StreamId) : (s.clearStream S).errcode = s.errcode := by cases S <;> rfl
@[simp] theorem State.clearStream_errcmd (s : State) (S : StreamId) : (s.clearStream S).errcmd = s.errcmd := by cases S <;> rfl
@[simp] theorem State.clearStream_errpos (s : State) (S : StreamId) : (s.clearStream S).errpos = s.errpos := by cases S <;> rfl
@[simp] theorem State.clearStream_alpha (s : State) (S : StreamId) : (s.clearStream S).alpha = s.alpha := by cases S <;> rfl
@[simp] theorem State.clearStream_width (s : State) (S : StreamId) : (s.clearStream S).width = s.width := by cases S <;> rfl
@[simp] theorem State.clearStream_root (s : State) (S : StreamId) : (s.clearStream S).root = s.root := by cases S <;> rfl
@[simp] theorem State.clearStream_nnodes (s : State) (S : StreamId) : (s.clearStream S).nnodes = s.nnodes := by cases S <;> rfl
@[simp] theorem State.clearStream_maxlen (s : State) (S : StreamId) : (s.clearStream S).maxlen = s.maxlen := by cases S <;> rfl
@[simp] theorem State.clearStream_freq (s : State) (S : StreamId) : (s.clearStream S).freq = s.freq := by cases S <;> rfl
@[simp] theorem State.clearStream_total (s : State) (S : StreamId) : (s.clearStream S).total = s.total := by cases S <;> rfl
@[simp] theorem State.clearStream_clen (s : State) (S : StreamId) : (s.clearStream S).clen = s.clen := by cases S <;> rfl
@[simp] theorem State.clearStream_cval (s : State) (S : StreamId) : (s.clearStream S).cval = s.cval := by cases S <;> rfl
@[simp] theorem State.clearStream_rvalid (s : State) (S : StreamId) : (s.clearStream S).rvalid = s.rvalid := by cases S <;> rfl
@[simp] theorem State.clearStream_rsym (s : State) (S : StreamId) : (s.clearStream S).rsym = s.rsym := by cases S <;> rfl
@[simp] theorem State.clearStream_arena (s : State) (S : StreamId) : (s.clearStream S).arena = s.arena := by cases S <;> rfl
@[simp] theorem State.clearStream_wsum (s : State) (S : StreamId) : (s.clearStream S).wsum = s.wsum := by cases S <;> rfl
@[simp] theorem State.clearStream_host (s : State) (S : StreamId) : (s.clearStream S).host = s.host := by cases S <;> rfl
@[simp] theorem State.clearStream_reads (s : State) (S : StreamId) : (s.clearStream S).reads = s.reads := by cases S <;> rfl
@[simp] theorem State.clearStream_draws (s : State) (S : StreamId) : (s.clearStream S).draws = s.draws := by cases S <;> rfl
@[simp] theorem State.clearStream_powerOns (s : State) (S : StreamId) : (s.clearStream S).powerOns = s.powerOns := by cases S <;> rfl
@[simp] theorem State.clearStream_config (s : State) (S : StreamId) : (s.clearStream S).config = s.config := by cases S <;> rfl
@[simp] theorem State.clearStream_blank (s : State) (S : StreamId) (T : StreamId) : (s.clearStream S).blank T = s.blank T := by cases S <;> rfl
@[simp] theorem State.append_latched (s : State) (S : StreamId) (bits : List Bool) : (s.append S bits).latched = s.latched := by cases S <;> rfl
@[simp] theorem State.append_ovr (s : State) (S : StreamId) (bits : List Bool) : (s.append S bits).ovr = s.ovr := by cases S <;> rfl
@[simp] theorem State.append_mode (s : State) (S : StreamId) (bits : List Bool) : (s.append S bits).mode = s.mode := by cases S <;> rfl
@[simp] theorem State.append_result (s : State) (S : StreamId) (bits : List Bool) : (s.append S bits).result = s.result := by cases S <;> rfl
@[simp] theorem State.append_errcode (s : State) (S : StreamId) (bits : List Bool) : (s.append S bits).errcode = s.errcode := by cases S <;> rfl
@[simp] theorem State.append_errcmd (s : State) (S : StreamId) (bits : List Bool) : (s.append S bits).errcmd = s.errcmd := by cases S <;> rfl
@[simp] theorem State.append_errpos (s : State) (S : StreamId) (bits : List Bool) : (s.append S bits).errpos = s.errpos := by cases S <;> rfl
@[simp] theorem State.append_alpha (s : State) (S : StreamId) (bits : List Bool) : (s.append S bits).alpha = s.alpha := by cases S <;> rfl
@[simp] theorem State.append_width (s : State) (S : StreamId) (bits : List Bool) : (s.append S bits).width = s.width := by cases S <;> rfl
@[simp] theorem State.append_root (s : State) (S : StreamId) (bits : List Bool) : (s.append S bits).root = s.root := by cases S <;> rfl
@[simp] theorem State.append_nnodes (s : State) (S : StreamId) (bits : List Bool) : (s.append S bits).nnodes = s.nnodes := by cases S <;> rfl
@[simp] theorem State.append_maxlen (s : State) (S : StreamId) (bits : List Bool) : (s.append S bits).maxlen = s.maxlen := by cases S <;> rfl
@[simp] theorem State.append_freq (s : State) (S : StreamId) (bits : List Bool) : (s.append S bits).freq = s.freq := by cases S <;> rfl
@[simp] theorem State.append_total (s : State) (S : StreamId) (bits : List Bool) : (s.append S bits).total = s.total := by cases S <;> rfl
@[simp] theorem State.append_clen (s : State) (S : StreamId) (bits : List Bool) : (s.append S bits).clen = s.clen := by cases S <;> rfl
@[simp] theorem State.append_cval (s : State) (S : StreamId) (bits : List Bool) : (s.append S bits).cval = s.cval := by cases S <;> rfl
@[simp] theorem State.append_rvalid (s : State) (S : StreamId) (bits : List Bool) : (s.append S bits).rvalid = s.rvalid := by cases S <;> rfl
@[simp] theorem State.append_rsym (s : State) (S : StreamId) (bits : List Bool) : (s.append S bits).rsym = s.rsym := by cases S <;> rfl
@[simp] theorem State.append_arena (s : State) (S : StreamId) (bits : List Bool) : (s.append S bits).arena = s.arena := by cases S <;> rfl
@[simp] theorem State.append_wsum (s : State) (S : StreamId) (bits : List Bool) : (s.append S bits).wsum = s.wsum := by cases S <;> rfl
@[simp] theorem State.append_host (s : State) (S : StreamId) (bits : List Bool) : (s.append S bits).host = s.host := by cases S <;> rfl
@[simp] theorem State.append_reads (s : State) (S : StreamId) (bits : List Bool) : (s.append S bits).reads = s.reads := by cases S <;> rfl
@[simp] theorem State.append_draws (s : State) (S : StreamId) (bits : List Bool) : (s.append S bits).draws = s.draws := by cases S <;> rfl
@[simp] theorem State.append_powerOns (s : State) (S : StreamId) (bits : List Bool) : (s.append S bits).powerOns = s.powerOns := by cases S <;> rfl
@[simp] theorem State.append_config (s : State) (S : StreamId) (bits : List Bool) : (s.append S bits).config = s.config := by cases S <;> rfl
@[simp] theorem State.append_blank (s : State) (S : StreamId) (bits : List Bool) (T : StreamId) : (s.append S bits).blank T = s.blank T := by cases S <;> rfl

/-- What a stream is after each of the three. -/
@[simp] theorem State.setRpos_stream (s : State) (S : StreamId) (k : Nat) :
    (s.setRpos S k).stream S = { s.stream S with rpos := k } := by simp [State.setRpos]
@[simp] theorem State.clearStream_stream (s : State) (S : StreamId) :
    (s.clearStream S).stream S = { s.stream S with wbits := 0, rpos := 0 } := by simp [State.clearStream]
@[simp] theorem State.append_stream (s : State) (S : StreamId) (bits : List Bool) :
    (s.append S bits).stream S = (s.stream S).append (s.blank S) bits := by simp [State.append]

/-- The same for the two streams by name. -/
@[simp] theorem State.setRpos_P_p (s : State) (k : Nat) : (s.setRpos .P k).p = { s.p with rpos := k } := rfl
@[simp] theorem State.setRpos_P_m (s : State) (k : Nat) : (s.setRpos .P k).m = s.m := rfl
@[simp] theorem State.setRpos_M_m (s : State) (k : Nat) : (s.setRpos .M k).m = { s.m with rpos := k } := rfl
@[simp] theorem State.setRpos_M_p (s : State) (k : Nat) : (s.setRpos .M k).p = s.p := rfl
@[simp] theorem State.clearStream_P_p (s : State) : (s.clearStream .P).p = { s.p with wbits := 0, rpos := 0 } := rfl
@[simp] theorem State.clearStream_P_m (s : State) : (s.clearStream .P).m = s.m := rfl
@[simp] theorem State.clearStream_M_m (s : State) : (s.clearStream .M).m = { s.m with wbits := 0, rpos := 0 } := rfl
@[simp] theorem State.clearStream_M_p (s : State) : (s.clearStream .M).p = s.p := rfl
@[simp] theorem State.append_P_p (s : State) (bits : List Bool) : (s.append .P bits).p = s.p.append (s.blank .P) bits := rfl
@[simp] theorem State.append_P_m (s : State) (bits : List Bool) : (s.append .P bits).m = s.m := rfl
@[simp] theorem State.append_M_m (s : State) (bits : List Bool) : (s.append .M bits).m = s.m.append (s.blank .M) bits := rfl
@[simp] theorem State.append_M_p (s : State) (bits : List Bool) : (s.append .M bits).p = s.p := rfl

/-- The other stream is left alone. -/
theorem State.setRpos_stream_other (s : State) {S S' : StreamId} (k : Nat) (h : S' ≠ S) :
    (s.setRpos S k).stream S' = s.stream S' := by simp [State.setRpos, State.setStream_stream_other _ _ h]
theorem State.clearStream_stream_other (s : State) {S S' : StreamId} (h : S' ≠ S) :
    (s.clearStream S).stream S' = s.stream S' := by simp [State.clearStream, State.setStream_stream_other _ _ h]
theorem State.append_stream_other (s : State) {S S' : StreamId} (bits : List Bool) (h : S' ≠ S) :
    (s.append S bits).stream S' = s.stream S' := by simp [State.append, State.setStream_stream_other _ _ h]

/-- The streams under the updates that touch none. -/
@[simp] theorem State.setResult_stream (s : State) (v : Word) (S : StreamId) : (s.setResult v).stream S = s.stream S := by
  cases S <;> rfl
@[simp] theorem State.raise_stream (s : State) (w : Word) (e : ErrCode) (pos : Nat) (S : StreamId) :
    (s.raise w e pos).stream S = s.stream S := by cases S <;> rfl
@[simp] theorem State.clearError_stream (s : State) (S : StreamId) : s.clearError.stream S = s.stream S := by cases S <;> rfl


/-! ## loadFixed and loadHuff: the whole code table replaced (92_eei_decisions.md D40) -/

@[simp] theorem State.loadFixed_latched (s : State) (codes : CodeList) (w : Nat) : (s.loadFixed codes w).latched = s.latched := rfl
@[simp] theorem State.loadFixed_ovr (s : State) (codes : CodeList) (w : Nat) : (s.loadFixed codes w).ovr = s.ovr := rfl
@[simp] theorem State.loadFixed_mode (s : State) (codes : CodeList) (w : Nat) : (s.loadFixed codes w).mode = .fixed := rfl
@[simp] theorem State.loadFixed_result (s : State) (codes : CodeList) (w : Nat) : (s.loadFixed codes w).result = s.result := rfl
@[simp] theorem State.loadFixed_errcode (s : State) (codes : CodeList) (w : Nat) : (s.loadFixed codes w).errcode = s.errcode := rfl
@[simp] theorem State.loadFixed_errcmd (s : State) (codes : CodeList) (w : Nat) : (s.loadFixed codes w).errcmd = s.errcmd := rfl
@[simp] theorem State.loadFixed_errpos (s : State) (codes : CodeList) (w : Nat) : (s.loadFixed codes w).errpos = s.errpos := rfl
@[simp] theorem State.loadFixed_alpha (s : State) (codes : CodeList) (w : Nat) : (s.loadFixed codes w).alpha = BitVec.ofNat 9 codes.length := rfl
@[simp] theorem State.loadFixed_width (s : State) (codes : CodeList) (w : Nat) : (s.loadFixed codes w).width = BitVec.ofNat 4 w := rfl
@[simp] theorem State.loadFixed_root (s : State) (codes : CodeList) (w : Nat) : (s.loadFixed codes w).root = 0#9 := rfl
@[simp] theorem State.loadFixed_nnodes (s : State) (codes : CodeList) (w : Nat) : (s.loadFixed codes w).nnodes = 0#10 := rfl
@[simp] theorem State.loadFixed_maxlen (s : State) (codes : CodeList) (w : Nat) : (s.loadFixed codes w).maxlen = BitVec.ofNat 8 w := rfl
@[simp] theorem State.loadFixed_freq (s : State) (codes : CodeList) (w : Nat) : (s.loadFixed codes w).freq = s.freq := rfl
@[simp] theorem State.loadFixed_total (s : State) (codes : CodeList) (w : Nat) : (s.loadFixed codes w).total = s.total := rfl
@[simp] theorem State.loadFixed_clen (s : State) (codes : CodeList) (w : Nat) : (s.loadFixed codes w).clen = clenOf codes := rfl
@[simp] theorem State.loadFixed_cval (s : State) (codes : CodeList) (w : Nat) : (s.loadFixed codes w).cval = cvalOf codes := rfl
@[simp] theorem State.loadFixed_arena (s : State) (codes : CodeList) (w : Nat) : (s.loadFixed codes w).arena = [] := rfl
@[simp] theorem State.loadFixed_wsum (s : State) (codes : CodeList) (w : Nat) : (s.loadFixed codes w).wsum = s.wsum := rfl
@[simp] theorem State.loadFixed_host (s : State) (codes : CodeList) (w : Nat) : (s.loadFixed codes w).host = s.host := rfl
@[simp] theorem State.loadFixed_reads (s : State) (codes : CodeList) (w : Nat) : (s.loadFixed codes w).reads = s.reads := rfl
@[simp] theorem State.loadFixed_draws (s : State) (codes : CodeList) (w : Nat) : (s.loadFixed codes w).draws = s.draws := rfl
@[simp] theorem State.loadFixed_powerOns (s : State) (codes : CodeList) (w : Nat) : (s.loadFixed codes w).powerOns = s.powerOns := rfl
@[simp] theorem State.loadFixed_config (s : State) (codes : CodeList) (w : Nat) : (s.loadFixed codes w).config = s.config := rfl
@[simp] theorem State.loadFixed_blank (s : State) (codes : CodeList) (w : Nat) (S : StreamId) : (s.loadFixed codes w).blank S = s.blank S := rfl
@[simp] theorem State.loadFixed_p (s : State) (codes : CodeList) (w : Nat) : (s.loadFixed codes w).p = s.p := rfl
@[simp] theorem State.loadFixed_m (s : State) (codes : CodeList) (w : Nat) : (s.loadFixed codes w).m = s.m := rfl
@[simp] theorem State.loadHuff_latched (s : State) (arena : List Node) (root n : Nat) (codes : CodeList) : (s.loadHuff arena root n codes).latched = s.latched := rfl
@[simp] theorem State.loadHuff_ovr (s : State) (arena : List Node) (root n : Nat) (codes : CodeList) : (s.loadHuff arena root n codes).ovr = s.ovr := rfl
@[simp] theorem State.loadHuff_mode (s : State) (arena : List Node) (root n : Nat) (codes : CodeList) : (s.loadHuff arena root n codes).mode = .huff := rfl
@[simp] theorem State.loadHuff_result (s : State) (arena : List Node) (root n : Nat) (codes : CodeList) : (s.loadHuff arena root n codes).result = s.result := rfl
@[simp] theorem State.loadHuff_errcode (s : State) (arena : List Node) (root n : Nat) (codes : CodeList) : (s.loadHuff arena root n codes).errcode = s.errcode := rfl
@[simp] theorem State.loadHuff_errcmd (s : State) (arena : List Node) (root n : Nat) (codes : CodeList) : (s.loadHuff arena root n codes).errcmd = s.errcmd := rfl
@[simp] theorem State.loadHuff_errpos (s : State) (arena : List Node) (root n : Nat) (codes : CodeList) : (s.loadHuff arena root n codes).errpos = s.errpos := rfl
@[simp] theorem State.loadHuff_alpha (s : State) (arena : List Node) (root n : Nat) (codes : CodeList) : (s.loadHuff arena root n codes).alpha = BitVec.ofNat 9 n := rfl
@[simp] theorem State.loadHuff_width (s : State) (arena : List Node) (root n : Nat) (codes : CodeList) : (s.loadHuff arena root n codes).width = 0#4 := rfl
@[simp] theorem State.loadHuff_root (s : State) (arena : List Node) (root n : Nat) (codes : CodeList) : (s.loadHuff arena root n codes).root = BitVec.ofNat 9 root := rfl
@[simp] theorem State.loadHuff_nnodes (s : State) (arena : List Node) (root n : Nat) (codes : CodeList) : (s.loadHuff arena root n codes).nnodes = BitVec.ofNat 10 arena.length := rfl
@[simp] theorem State.loadHuff_maxlen (s : State) (arena : List Node) (root n : Nat) (codes : CodeList) : (s.loadHuff arena root n codes).maxlen = maxEntry (clenOf codes) := rfl
@[simp] theorem State.loadHuff_freq (s : State) (arena : List Node) (root n : Nat) (codes : CodeList) : (s.loadHuff arena root n codes).freq = s.freq := rfl
@[simp] theorem State.loadHuff_total (s : State) (arena : List Node) (root n : Nat) (codes : CodeList) : (s.loadHuff arena root n codes).total = s.total := rfl
@[simp] theorem State.loadHuff_clen (s : State) (arena : List Node) (root n : Nat) (codes : CodeList) : (s.loadHuff arena root n codes).clen = clenOf codes := rfl
@[simp] theorem State.loadHuff_cval (s : State) (arena : List Node) (root n : Nat) (codes : CodeList) : (s.loadHuff arena root n codes).cval = cvalOf codes := rfl
@[simp] theorem State.loadHuff_arena (s : State) (arena : List Node) (root n : Nat) (codes : CodeList) : (s.loadHuff arena root n codes).arena = arena := rfl
@[simp] theorem State.loadHuff_wsum (s : State) (arena : List Node) (root n : Nat) (codes : CodeList) : (s.loadHuff arena root n codes).wsum = s.wsum := rfl
@[simp] theorem State.loadHuff_host (s : State) (arena : List Node) (root n : Nat) (codes : CodeList) : (s.loadHuff arena root n codes).host = s.host := rfl
@[simp] theorem State.loadHuff_reads (s : State) (arena : List Node) (root n : Nat) (codes : CodeList) : (s.loadHuff arena root n codes).reads = s.reads := rfl
@[simp] theorem State.loadHuff_draws (s : State) (arena : List Node) (root n : Nat) (codes : CodeList) : (s.loadHuff arena root n codes).draws = s.draws := rfl
@[simp] theorem State.loadHuff_powerOns (s : State) (arena : List Node) (root n : Nat) (codes : CodeList) : (s.loadHuff arena root n codes).powerOns = s.powerOns := rfl
@[simp] theorem State.loadHuff_config (s : State) (arena : List Node) (root n : Nat) (codes : CodeList) : (s.loadHuff arena root n codes).config = s.config := rfl
@[simp] theorem State.loadHuff_blank (s : State) (arena : List Node) (root n : Nat) (codes : CodeList) (S : StreamId) : (s.loadHuff arena root n codes).blank S = s.blank S := rfl
@[simp] theorem State.loadHuff_p (s : State) (arena : List Node) (root n : Nat) (codes : CodeList) : (s.loadHuff arena root n codes).p = s.p := rfl
@[simp] theorem State.loadHuff_m (s : State) (arena : List Node) (root n : Nat) (codes : CodeList) : (s.loadHuff arena root n codes).m = s.m := rfl

@[simp] theorem State.loadFixed_rvalid (s : State) (codes : CodeList) (w : Nat) (v : BitVec 8) :
    Table.at (s.loadFixed codes w).rvalid v = (symbolOfCode codes v).isSome := by simp [State.loadFixed]
@[simp] theorem State.loadFixed_rsym (s : State) (codes : CodeList) (w : Nat) (v : BitVec 8) :
    Table.at (s.loadFixed codes w).rsym v = (symbolOfCode codes v).getD 0#8 := by simp [State.loadFixed]
@[simp] theorem State.loadHuff_rvalid (s : State) (arena : List Node) (root n : Nat) (codes : CodeList) (v : BitVec 8) :
    Table.at (s.loadHuff arena root n codes).rvalid v = false := by simp [State.loadHuff]
@[simp] theorem State.loadHuff_rsym (s : State) (arena : List Node) (root n : Nat) (codes : CodeList) (v : BitVec 8) :
    Table.at (s.loadHuff arena root n codes).rsym v = 0#8 := by simp [State.loadHuff]
@[simp] theorem State.loadFixed_stream (s : State) (codes : CodeList) (w : Nat) (S : StreamId) :
    (s.loadFixed codes w).stream S = s.stream S := by cases S <;> rfl
@[simp] theorem State.loadHuff_stream (s : State) (arena : List Node) (root n : Nat) (codes : CodeList) (S : StreamId) :
    (s.loadHuff arena root n codes).stream S = s.stream S := by cases S <;> rfl

/-- The entries of the code table for a list of codes (10_state.md R28). -/
@[simp] theorem clenOf_at (codes : CodeList) (a : Symbol) :
    Table.at (clenOf codes) a = BitVec.ofNat 8 (codeFor codes a).length := by simp [clenOf]
@[simp] theorem cvalOf_at (codes : CodeList) (a : Symbol) :
    Table.at (cvalOf codes) a = BitVec.ofNat 255 (bitsToNat (codeFor codes a)) := by simp [cvalOf]

end Sys2Proof.Machine
end

