-- ==== Sys2Proof/Laws/Streams.lean ====
section
/-! SUPPORT. What the stream primitives of 20_memory.md R64 to R67 do: each lemma says once how one of them changes a stream,
and later proofs cite it. -/

namespace Sys2Proof.Machine

variable (blank : Nat → Byte) (st : BitStream)

/-! ## Writing a byte -/

@[simp] theorem BitStream.writeByte_wbits (a : Nat) (v : Byte) : (st.writeByte a v).wbits = st.wbits := rfl
@[simp] theorem BitStream.writeByte_rpos (a : Nat) (v : Byte) : (st.writeByte a v).rpos = st.rpos := rfl

@[simp] theorem BitStream.byte_writeByte_same (a : Nat) (v : Byte) : (st.writeByte a v).byte blank a = v := by
  simp [BitStream.byte, BitStream.writeByte]

theorem BitStream.byte_writeByte_other {a a' : Nat} (v : Byte) (h : a' ≠ a) :
    (st.writeByte a v).byte blank a' = st.byte blank a' := by
  simp [BitStream.byte, BitStream.writeByte, Memory.find_write_other _ _ h]

/-! ## Appending a bit (R66) -/

@[simp] theorem BitStream.appendBit_wbits (b : Bool) : (st.appendBit blank b).wbits = st.wbits + 1 := rfl
@[simp] theorem BitStream.appendBit_rpos (b : Bool) : (st.appendBit blank b).rpos = st.rpos := rfl

/-- The byte that AppendBit writes: the new bit, the bits above kept, the bits below 0 (R66). -/
theorem appendedByte_bit (old : Byte) (j : Nat) (b : Bool) (hj : j < 8) (i : Nat) (hi : i < 8) :
    (appendedByte old j b).getLsbD (7 - i) = if i < j then old.getLsbD (7 - i) else if i = j then b else false := by
  have key : ∀ (j i : Fin 8) (b : Bool) (old : Byte),
      (appendedByte old j.val b).getLsbD (7 - i.val) =
        if i.val < j.val then old.getLsbD (7 - i.val) else if i.val = j.val then b else false := by
    intro j i b old
    fin_cases j <;> fin_cases i <;> cases b <;>
      simp [appendedByte]
  exact key ⟨j, hj⟩ ⟨i, hi⟩ b old

theorem BitStream.byte_appendBit_other {a : Nat} (b : Bool) (h : a ≠ st.wbits / 8) :
    (st.appendBit blank b).byte blank a = st.byte blank a := by
  simp [BitStream.byte, BitStream.appendBit, Memory.find_write_other _ _ h]

theorem BitStream.byte_appendBit_same (b : Bool) :
    (st.appendBit blank b).byte blank (st.wbits / 8) =
      appendedByte (if st.wbits % 8 = 0 then 0#8 else st.byte blank (st.wbits / 8)) (st.wbits % 8) b := by
  simp [BitStream.byte, BitStream.appendBit]

/-- Every stream bit after an append of one bit: the bits below WBITS kept, the new bit at WBITS, the filler 0 in the rest of
its byte, every bit of another byte kept (R66). -/
theorem BitStream.bit_appendBit (b : Bool) (k : Nat) :
    (st.appendBit blank b).bit blank k =
      if k = st.wbits then b
      else if st.wbits < k ∧ k / 8 = st.wbits / 8 then false
      else st.bit blank k := by
  by_cases hb : k / 8 = st.wbits / 8
  · have hi : k % 8 < 8 := Nat.mod_lt _ (by omega)
    have hj : st.wbits % 8 < 8 := Nat.mod_lt _ (by omega)
    rw [BitStream.bit, hb, BitStream.byte_appendBit_same, appendedByte_bit _ _ _ hj _ hi]
    have e1 : k % 8 < st.wbits % 8 ↔ k < st.wbits := by omega
    have e2 : k % 8 = st.wbits % 8 ↔ k = st.wbits := by omega
    by_cases h1 : k < st.wbits
    · have h0 : st.wbits % 8 ≠ 0 := by omega
      have h2 : k ≠ st.wbits := by omega
      have h3 : ¬ st.wbits < k := by omega
      simp [e1, h1, h2, h3, h0, BitStream.bit, hb]
    · by_cases h2 : k = st.wbits
      · simp [h2]
      · have h3 : st.wbits < k := by omega
        simp [e1, e2, h1, h2, h3]
  · have h2 : k ≠ st.wbits := fun e => hb (by rw [e])
    simp [BitStream.bit, BitStream.byte_appendBit_other blank st b hb, h2, hb]

/-! ## Appending a list of bits (R67) -/

@[simp] theorem BitStream.append_nil : st.append blank [] = st := rfl

theorem BitStream.append_cons (b : Bool) (bs : List Bool) :
    st.append blank (b :: bs) = (st.appendBit blank b).append blank bs := rfl

theorem BitStream.append_append (xs ys : List Bool) :
    st.append blank (xs ++ ys) = (st.append blank xs).append blank ys := by simp [BitStream.append]

@[simp] theorem BitStream.append_wbits (bits : List Bool) : (st.append blank bits).wbits = st.wbits + bits.length := by
  induction bits generalizing st with
  | nil => rfl
  | cons b bs ih => rw [BitStream.append_cons, ih]; simp; omega

@[simp] theorem BitStream.append_rpos (bits : List Bool) : (st.append blank bits).rpos = st.rpos := by
  induction bits generalizing st with
  | nil => rfl
  | cons b bs ih => rw [BitStream.append_cons, ih]; rfl

/-- An append keeps every stream bit below WBITS. -/
theorem BitStream.bit_append_below (bits : List Bool) {k : Nat} (h : k < st.wbits) :
    (st.append blank bits).bit blank k = st.bit blank k := by
  induction bits generalizing st with
  | nil => rfl
  | cons b bs ih =>
    rw [BitStream.append_cons, ih _ (by simp; omega), BitStream.bit_appendBit]
    simp [show k ≠ st.wbits by omega, show ¬ st.wbits < k by omega]

/-- An append puts its bits at WBITS and on, in order. -/
theorem BitStream.bit_append_new (bits : List Bool) (j : Nat) (h : j < bits.length) :
    (st.append blank bits).bit blank (st.wbits + j) = bits[j] := by
  induction bits generalizing st j with
  | nil => simp at h
  | cons b bs ih =>
    rw [BitStream.append_cons]
    cases j with
    | zero =>
      rw [BitStream.bit_append_below _ _ _ (by simp), BitStream.bit_appendBit]
      simp
    | succ j =>
      have := ih (st.appendBit blank b) j (by simpa using h)
      rw [BitStream.appendBit_wbits] at this
      rw [show st.wbits + (j + 1) = st.wbits + 1 + j by omega, this]
      simp

/-- The bits that an append adds read back as they were. -/
theorem BitStream.bits_append (bits : List Bool) :
    (st.append blank bits).bits blank st.wbits bits.length = bits := by
  apply List.ext_getElem
  · simp [BitStream.bits]
  intro j h1 h2
  simpa [BitStream.bits] using BitStream.bit_append_new blank st bits j h2

/-- The filler: after an append of at least one bit, the rest of the last byte is 0 (R66, R84). -/
theorem BitStream.bit_append_filler (bits : List Bool) (hne : bits ≠ []) {k : Nat}
    (h1 : st.wbits + bits.length ≤ k) (h2 : k / 8 = (st.wbits + bits.length - 1) / 8) :
    (st.append blank bits).bit blank k = false := by
  obtain ⟨xs, b, rfl⟩ : ∃ xs b, bits = xs ++ [b] := ⟨_, _, (List.dropLast_concat_getLast hne).symm⟩
  rw [BitStream.append_append, BitStream.append_cons, BitStream.append_nil, BitStream.bit_appendBit,
    BitStream.append_wbits]
  simp only [List.length_append, List.length_cons, List.length_nil] at h1 h2
  rw [if_neg (by omega), if_pos ⟨by omega, by rw [h2]; congr 1⟩]

/-- An append changes no byte outside those that hold its bits. -/
theorem BitStream.byte_append_other (bits : List Bool) {a : Nat}
    (h : a < st.wbits / 8 ∨ bytesOf (st.wbits + bits.length) ≤ a) :
    (st.append blank bits).byte blank a = st.byte blank a := by
  induction bits generalizing st with
  | nil => rfl
  | cons b bs ih =>
    simp only [List.length_cons] at h
    rw [BitStream.append_cons, ih, BitStream.byte_appendBit_other]
    · unfold bytesOf at h; omega
    · rw [BitStream.appendBit_wbits]
      unfold bytesOf at h ⊢
      omega

/-- An append keeps the canonical form. -/
theorem BitStream.append_wf (bits : List Bool) (h : Memory.wf st.buf = true) :
    Memory.wf (st.append blank bits).buf = true := by
  induction bits generalizing st with
  | nil => exact h
  | cons b bs ih => exact ih _ (Memory.wf_write _ _ h)

/-- An append that fits stays within the capacity. -/
theorem BitStream.append_within (bits : List Bool) {n : Nat} (hfit : st.wbits + bits.length ≤ 8 * n)
    (h : ∀ c ∈ st.buf, c.1 < n) : ∀ c ∈ (st.append blank bits).buf, c.1 < n := by
  induction bits generalizing st with
  | nil => exact h
  | cons b bs ih =>
    simp only [List.length_cons] at hfit
    exact ih _ (by simp; omega) (Memory.within_write _ h (by omega))

/-! ## Reading (R64, R65) -/

@[simp] theorem BitStream.bits_length (k n : Nat) : (st.bits blank k n).length = n := by simp [BitStream.bits]

theorem BitStream.bits_getElem (k n j : Nat) (h : j < (st.bits blank k n).length) :
    (st.bits blank k n)[j] = st.bit blank (k + j) := by simp [BitStream.bits]

/-- StreamBits(S, k, n) is below 2^n. -/
theorem BitStream.number_lt (k n : Nat) : st.number blank k n < 2 ^ n := by
  simpa [BitStream.number] using bitsToNat_lt (st.bits blank k n)

/-- Reading the bits just appended gives the number that they write. -/
theorem BitStream.number_append (bits : List Bool) :
    (st.append blank bits).number blank st.wbits bits.length = bitsToNat bits := by
  rw [BitStream.number, BitStream.bits_append]

/-- Two streams that agree on the bits read give the same number. -/
theorem BitStream.bits_congr (st' : BitStream) (k n : Nat) (h : ∀ j, j < n → st.bit blank (k + j) = st'.bit blank (k + j)) :
    st.bits blank k n = st'.bits blank k n := by
  apply List.ext_getElem
  · simp
  intro j h1 h2
  simpa [BitStream.bits] using h j (by simpa using h1)

end Sys2Proof.Machine
end

