-- ==== Sys2Proof/Laws/Ops.lean ====
section
/-! SUPPORT. What each shared operation of the command meanings can answer, said once: every case with its guard. Later proofs
cite these lemmas and do not unfold the operations. -/

namespace Sys2Proof.Machine

/-! ## The error entry -/

/-- A failing command answers a next state, the one of the error entry (60_exceptions.md R234). -/
theorem fail_eq (i : Instr) (e : ErrCode) (pos : Nat) (s : State) : fail i e pos s = .next (s.raise (encode i) e pos) := rfl

/-- No error code that the block raises is 0 (60_exceptions.md R231). -/
theorem ErrCode.code_ne_zero (e : ErrCode) : e.code ≠ 0#8 := by cases e <;> decide

/-- Different errors have different codes (60_exceptions.md R231). -/
theorem ErrCode.code_injective {e f : ErrCode} (h : e.code = f.code) : e = f := by
  cases e <;> cases f <;> first | rfl | exact absurd h (by decide)

/-! ## The stream operations (41_bitstream.md R131 to R137) -/

variable (S : StreamId) (i : Instr) (s : State)

theorem clrStream_eq : clrStream S s = .next (s.clearStream S) := rfl
theorem rewindStream_eq : rewindStream S s = .next (s.setRpos S 0) := rfl

theorem setlenStream_cases (b : BitVec 21) (p : BitVec 3) :
    ((s.config.cap S < b.toNat ∨ (b = 0#21 ∧ p ≠ 0#3)) ∧ setlenStream S i b p s = fail i .badLength 0 s) ∨
    (b.toNat ≤ s.config.cap S ∧ ¬ (b = 0#21 ∧ p ≠ 0#3) ∧
      setlenStream S i b p s = .next (s.setStream S { s.stream S with wbits := setlenBits b p, rpos := 0 })) := by
  unfold setlenStream
  by_cases h1 : s.config.cap S < b.toNat
  · exact .inl ⟨.inl h1, if_pos h1⟩
  · rw [if_neg h1]
    by_cases h2 : b = 0#21 ∧ p ≠ 0#3
    · exact .inl ⟨.inr h2, if_pos h2⟩
    · exact .inr ⟨Nat.le_of_not_lt h1, h2, if_neg h2⟩

theorem putStream_cases (n : BitVec 5) (v : BitVec 16) :
    ((groupWidthOk n && groupValueOk n v) = false ∧ putStream S i n v s = fail i .illegalCommand 0 s) ∨
    ((groupWidthOk n && groupValueOk n v) = true ∧ 8 * s.config.cap S < (s.stream S).wbits + n.toNat ∧
      putStream S i n v s = fail i .capacityExceeded 0 s) ∨
    ((groupWidthOk n && groupValueOk n v) = true ∧ (s.stream S).wbits + n.toNat ≤ 8 * s.config.cap S ∧
      putStream S i n v s = .next (s.append S (natToBits n.toNat v.toNat))) := by
  unfold putStream
  cases h1 : groupWidthOk n && groupValueOk n v
  · exact .inl ⟨rfl, if_pos rfl⟩
  · rw [if_neg (by simp)]
    by_cases h2 : 8 * s.config.cap S < (s.stream S).wbits + n.toNat
    · exact .inr (.inl ⟨rfl, h2, if_pos (by simpa [State.overflows] using h2)⟩)
    · exact .inr (.inr ⟨rfl, Nat.le_of_not_lt h2, if_neg (by simpa [State.overflows] using h2)⟩)

theorem getStream_cases (n : BitVec 5) :
    (groupWidthOk n = false ∧ getStream S i n s = fail i .illegalCommand 0 s) ∨
    (groupWidthOk n = true ∧ (s.stream S).wbits - (s.stream S).rpos < n.toNat ∧
      getStream S i n s = fail i .streamUnderrun (s.stream S).rpos s) ∨
    (groupWidthOk n = true ∧ n.toNat ≤ (s.stream S).wbits - (s.stream S).rpos ∧
      getStream S i n s = .next ((s.setResult (BitVec.ofNat 32 (s.number S (s.stream S).rpos n.toNat))).setRpos S
        ((s.stream S).rpos + n.toNat))) := by
  unfold getStream
  cases h1 : groupWidthOk n
  · exact .inl ⟨rfl, if_pos rfl⟩
  · rw [if_neg (by simp)]
    by_cases h2 : (s.stream S).wbits - (s.stream S).rpos < n.toNat
    · exact .inr (.inl ⟨rfl, h2, if_pos h2⟩)
    · exact .inr (.inr ⟨rfl, Nat.le_of_not_lt h2, if_neg h2⟩)

theorem wrStream_cases (a : BitVec 16) (d : Byte) :
    (s.config.cap S ≤ a.toNat ∧ wrStream S i a d s = fail i .badAddress 0 s) ∨
    (a.toNat < s.config.cap S ∧ wrStream S i a d s = .next (s.setStream S ((s.stream S).writeByte a.toNat d))) := by
  unfold wrStream
  by_cases h : s.config.cap S ≤ a.toNat
  · exact .inl ⟨h, if_pos h⟩
  · exact .inr ⟨Nat.lt_of_not_le h, if_neg h⟩

theorem rdStream_cases (a : BitVec 16) :
    (s.config.cap S ≤ a.toNat ∧ rdStream S i a s = fail i .badAddress 0 s) ∨
    (a.toNat < s.config.cap S ∧ rdStream S i a s = .next (s.setResult ((s.byte S a.toNat).setWidth 32))) := by
  unfold rdStream
  by_cases h : s.config.cap S ≤ a.toNat
  · exact .inl ⟨h, if_pos h⟩
  · exact .inr ⟨Nat.lt_of_not_le h, if_neg h⟩

/-! ## The buffer bytes after a command's last operation -/

/-- A stream replaced leaves every byte of the other buffer. -/
theorem State.byte_setStream_other (st : BitStream) {T : StreamId} (h : T ≠ S) (a : Nat) :
    (s.setStream S st).byte T a = s.byte T a := by
  cases S <;> cases T <;> first | exact absurd rfl h | rfl

/-- The counts of a stream replaced: every byte of both buffers stays. -/
theorem State.byte_setStream_counts (wbits rpos : Nat) (T : StreamId) (a : Nat) :
    (s.setStream S { s.stream S with wbits := wbits, rpos := rpos }).byte T a = s.byte T a := by
  cases S <;> cases T <;> rfl

/-- A byte written: it is read back, and every other byte of both buffers stays (41_bitstream.md R136). -/
theorem State.byte_writeByte (b : Nat) (d : Byte) (T : StreamId) (a : Nat) :
    (s.setStream S ((s.stream S).writeByte b d)).byte T a = if T = S ∧ a = b then d else s.byte T a := by
  by_cases hT : T = S
  · subst hT
    by_cases ha : a = b
    · subst ha
      simp [State.byte]
    · simp only [State.byte, State.setStream_stream, State.setStream_blank, ha, and_false, if_false]
      exact BitStream.byte_writeByte_other _ _ d ha
  · simp only [hT, false_and, if_false]
    exact State.byte_setStream_other S s _ hT a

/-- An append: every byte of both buffers stays, but for those that hold the appended bits (20_memory.md R66). -/
theorem State.byte_append_other (bits : List Bool) {T : StreamId} {a : Nat}
    (h : T ≠ S ∨ a < (s.stream S).wbits / 8 ∨ bytesOf ((s.stream S).wbits + bits.length) ≤ a) :
    (s.append S bits).byte T a = s.byte T a := by
  by_cases hT : T = S
  · subst hT
    have h := h.resolve_left (fun e => e rfl)
    simp only [State.byte, State.append_stream, State.append_blank]
    exact BitStream.byte_append_other _ _ bits h
  · exact State.byte_setStream_other S s _ hT a

/-! ## The other commands that can fail -/

theorem execProfAdd_cases (a : Symbol) (k : BitVec 16) :
    (2 ^ 32 - 1 < s.total.toNat + k.toNat ∧ execProfAdd a k s = fail (.profAdd a k) .capacityExceeded 0 s) ∨
    (s.total.toNat + k.toNat ≤ 2 ^ 32 - 1 ∧ execProfAdd a k s = .next (s.setProfile
      (Table.put s.freq a (Table.at s.freq a + k.setWidth 32)) (s.total + k.setWidth 32))) := by
  unfold execProfAdd
  by_cases h : 2 ^ 32 - 1 < s.total.toNat + k.toNat
  · exact .inl ⟨h, if_pos h⟩
  · exact .inr ⟨Nat.le_of_not_lt h, if_neg h⟩

theorem execFlBuild_cases :
    (alphabet s.freq = [] ∧ execFlBuild s = fail .flBuild .emptyInput 0 s) ∨
    (alphabet s.freq ≠ [] ∧ execFlBuild s = .next (s.loadFixed (rankCodes s.freq (codeWidth (alphabet s.freq).length))
      (codeWidth (alphabet s.freq).length))) := by
  unfold execFlBuild
  by_cases h : alphabet s.freq = []
  · exact .inl ⟨h, if_pos h⟩
  · exact .inr ⟨h, if_neg h⟩

theorem execFlDec_cases :
    (s.mode ≠ .fixed ∧ execFlDec s = fail .flDec .uninitializedState 0 s) ∨
    (s.mode = .fixed ∧ s.p.rpos = s.p.wbits ∧ execFlDec s = .next (s.setResult eosWord)) ∨
    (s.mode = .fixed ∧ s.p.rpos ≠ s.p.wbits ∧
      (s.p.wbits - s.p.rpos < s.width.toNat ∨ s.groupValid (s.number .P s.p.rpos s.width.toNat) = false) ∧
      execFlDec s = fail .flDec .corruptData s.p.rpos s) ∨
    (s.mode = .fixed ∧ s.p.rpos ≠ s.p.wbits ∧ s.width.toNat ≤ s.p.wbits - s.p.rpos ∧
      s.groupValid (s.number .P s.p.rpos s.width.toNat) = true ∧
      execFlDec s = .next ((s.setResult ((Table.at s.rsym
        (BitVec.ofNat 8 (s.number .P s.p.rpos s.width.toNat))).setWidth 32)).setRpos .P (s.p.rpos + s.width.toNat))) := by
  unfold execFlDec
  by_cases h1 : s.mode ≠ .fixed
  · exact .inl ⟨h1, if_pos h1⟩
  · rw [if_neg h1]
    have h1 := not_not.1 h1
    by_cases h2 : s.p.rpos = s.p.wbits
    · exact .inr (.inl ⟨h1, h2, if_pos h2⟩)
    · rw [if_neg h2]
      by_cases h3 : s.p.wbits - s.p.rpos < s.width.toNat
      · exact .inr (.inr (.inl ⟨h1, h2, .inl h3, if_pos h3⟩))
      · rw [if_neg h3]
        cases h4 : s.groupValid (s.number .P s.p.rpos s.width.toNat)
        · exact .inr (.inr (.inl ⟨h1, h2, .inr rfl, if_pos rfl⟩))
        · exact .inr (.inr (.inr ⟨h1, h2, Nat.le_of_not_lt h3, rfl, if_neg (by simp)⟩))

theorem execFlMwrite_cases :
    (s.mode ≠ .fixed ∧ execFlMwrite s = fail .flMwrite .uninitializedState 0 s) ∨
    (s.mode = .fixed ∧ execFlMwrite s = .next ((s.clearStream .M).append .M s.fixedMetadata)) := by
  unfold execFlMwrite
  by_cases h : s.mode ≠ .fixed
  · exact .inl ⟨h, if_pos h⟩
  · exact .inr ⟨not_not.1 h, if_neg h⟩

theorem execFlMread_cases :
    (s.parseFixed = none ∧ execFlMread s = fail .flMread .corruptMetadata 0 s) ∨
    (∃ w entries, s.parseFixed = some (w, entries) ∧
      execFlMread s = .next ((s.loadFixed entries w).setRpos .M s.m.wbits)) := by
  unfold execFlMread
  cases h : s.parseFixed with
  | none => exact .inl ⟨rfl, rfl⟩
  | some e => exact .inr ⟨e.1, e.2, rfl, rfl⟩

theorem execHufBuild_cases :
    (alphabet s.freq = [] ∧ execHufBuild s = fail .hufBuild .emptyInput 0 s) ∨
    (alphabet s.freq ≠ [] ∧ execHufBuild s = .next (s.loadHuff (buildArena s.freq) ((buildArena s.freq).length - 1)
      (alphabet s.freq).length (deriveCodes (buildArena s.freq) ((buildArena s.freq).length - 1)))) := by
  unfold execHufBuild
  by_cases h : alphabet s.freq = []
  · exact .inl ⟨h, if_pos h⟩
  · exact .inr ⟨h, if_neg h⟩

theorem execHufDec_cases :
    (s.mode ≠ .huff ∧ execHufDec s = fail .hufDec .uninitializedState 0 s) ∨
    (s.mode = .huff ∧ s.p.rpos = s.p.wbits ∧ execHufDec s = .next (s.setResult eosWord)) ∨
    (s.mode = .huff ∧ s.p.rpos ≠ s.p.wbits ∧ s.huffWalk = none ∧ execHufDec s = fail .hufDec .corruptData s.p.rpos s) ∨
    (∃ a pos, s.mode = .huff ∧ s.p.rpos ≠ s.p.wbits ∧ s.huffWalk = some (a, pos) ∧
      execHufDec s = .next ((s.setResult (a.setWidth 32)).setRpos .P pos)) := by
  unfold execHufDec
  by_cases h1 : s.mode ≠ .huff
  · exact .inl ⟨h1, if_pos h1⟩
  · rw [if_neg h1]
    have h1 := not_not.1 h1
    by_cases h2 : s.p.rpos = s.p.wbits
    · exact .inr (.inl ⟨h1, h2, if_pos h2⟩)
    · rw [if_neg h2]
      cases h3 : s.huffWalk with
      | none => exact .inr (.inr (.inl ⟨h1, h2, rfl, rfl⟩))
      | some e => exact .inr (.inr (.inr ⟨e.1, e.2, h1, h2, rfl, rfl⟩))

theorem execHufMwrite_cases :
    (s.mode ≠ .huff ∧ execHufMwrite s = fail .hufMwrite .uninitializedState 0 s) ∨
    (s.mode = .huff ∧ (∀ bits, serializeTree s.node Config.nnodeMax s.root.toNat = some bits → Config.treeBitsMax < bits.length) ∧
      execHufMwrite s = .fault .arenaNotATree) ∨
    (∃ bits, s.mode = .huff ∧ serializeTree s.node Config.nnodeMax s.root.toNat = some bits ∧
      bits.length ≤ Config.treeBitsMax ∧ execHufMwrite s = .next ((s.clearStream .M).append .M bits)) := by
  unfold execHufMwrite
  by_cases h1 : s.mode ≠ .huff
  · exact .inl ⟨h1, if_pos h1⟩
  · rw [if_neg h1]
    have h1 := not_not.1 h1
    cases h2 : serializeTree s.node Config.nnodeMax s.root.toNat with
    | none => exact .inr (.inl ⟨h1, by simp, rfl⟩)
    | some bits =>
      by_cases h3 : Config.treeBitsMax < bits.length
      · exact .inr (.inl ⟨h1, by rintro _ ⟨⟩; exact h3, if_pos h3⟩)
      · exact .inr (.inr ⟨bits, h1, rfl, Nat.le_of_not_lt h3, if_neg h3⟩)

theorem execHufMread_cases :
    (s.parseHuff = none ∧ execHufMread s = fail .hufMread .corruptMetadata 0 s) ∨
    (∃ t, s.parseHuff = some t ∧
      execHufMread s = .next ((s.loadHuff t.nodes 0 t.seen.length (deriveCodes t.nodes 0)).setRpos .M s.m.wbits)) := by
  unfold execHufMread
  cases h : s.parseHuff with
  | none => exact .inl ⟨rfl, rfl⟩
  | some t => exact .inr ⟨t, rfl, rfl⟩

theorem execNodeRd_cases (j : BitVec 9) :
    (s.mode ≠ .huff ∧ execNodeRd j s = fail (.nodeRd j) .uninitializedState 0 s) ∨
    (s.mode = .huff ∧ s.nnodes.toNat ≤ j.toNat ∧ execNodeRd j s = fail (.nodeRd j) .badAddress 0 s) ∨
    (s.mode = .huff ∧ j.toNat < s.nnodes.toNat ∧ execNodeRd j s = .next (s.setResult (Node.shapeWord (s.node j.toNat)))) := by
  unfold execNodeRd
  by_cases h1 : s.mode ≠ .huff
  · exact .inl ⟨h1, if_pos h1⟩
  · rw [if_neg h1]
    by_cases h2 : s.nnodes.toNat ≤ j.toNat
    · exact .inr (.inl ⟨not_not.1 h1, h2, if_pos h2⟩)
    · exact .inr (.inr ⟨not_not.1 h1, Nat.lt_of_not_le h2, if_neg h2⟩)

theorem execNodeWt_cases (j : BitVec 9) :
    (s.mode ≠ .huff ∧ execNodeWt j s = fail (.nodeWt j) .uninitializedState 0 s) ∨
    (s.mode = .huff ∧ s.nnodes.toNat ≤ j.toNat ∧ execNodeWt j s = fail (.nodeWt j) .badAddress 0 s) ∨
    (s.mode = .huff ∧ j.toNat < s.nnodes.toNat ∧ execNodeWt j s = .next (s.setResult (Node.weight (s.node j.toNat)))) := by
  unfold execNodeWt
  by_cases h1 : s.mode ≠ .huff
  · exact .inl ⟨h1, if_pos h1⟩
  · rw [if_neg h1]
    by_cases h2 : s.nnodes.toNat ≤ j.toNat
    · exact .inr (.inl ⟨not_not.1 h1, h2, if_pos h2⟩)
    · exact .inr (.inr ⟨not_not.1 h1, Nat.lt_of_not_le h2, if_neg h2⟩)

theorem execEnc_cases (a : Symbol) :
    (s.mode = .none ∧ execEnc a s = fail (.enc a) .uninitializedState 0 s) ∨
    (s.mode ≠ .none ∧ Table.at s.clen a = 0#8 ∧ execEnc a s = fail (.enc a) .unknownSymbol 0 s) ∨
    (s.mode ≠ .none ∧ Table.at s.clen a ≠ 0#8 ∧ 8 * s.config.pcap < s.p.wbits + (Table.at s.clen a).toNat ∧
      execEnc a s = fail (.enc a) .capacityExceeded 0 s) ∨
    (s.mode ≠ .none ∧ Table.at s.clen a ≠ 0#8 ∧ s.p.wbits + (Table.at s.clen a).toNat ≤ 8 * s.config.pcap ∧
      execEnc a s = .next (s.append .P (s.codeBits a))) := by
  unfold execEnc
  by_cases h1 : s.mode = .none
  · exact .inl ⟨h1, if_pos h1⟩
  · rw [if_neg h1]
    by_cases h2 : Table.at s.clen a = 0#8
    · exact .inr (.inl ⟨h1, h2, if_pos h2⟩)
    · rw [if_neg h2]
      by_cases h3 : 8 * s.config.pcap < s.p.wbits + (Table.at s.clen a).toNat
      · exact .inr (.inr (.inl ⟨h1, h2, h3, if_pos (decide_eq_true h3)⟩))
      · exact .inr (.inr (.inr ⟨h1, h2, Nat.le_of_not_lt h3, if_neg (fun e => h3 (of_decide_eq_true e))⟩))

theorem execWsumCalc_cases :
    (s.mode = .none ∧ execWsumCalc s = fail .wsumCalc .uninitializedState 0 s) ∨
    (s.mode ≠ .none ∧ execWsumCalc s = .next ((s.setWsum (BitVec.ofNat 64 s.weightedSum)).setResult
      ((BitVec.ofNat 64 s.weightedSum).setWidth 32))) := by
  unfold execWsumCalc
  by_cases h : s.mode = .none
  · exact .inl ⟨h, if_pos h⟩
  · exact .inr ⟨h, if_neg h⟩

end Sys2Proof.Machine
end

