-- ==== Sys2Proof/Laws/PerInstr.lean ====
section
/-! SUPPORT. The per-instruction family Encoding: each command's word carries, in bits 31:24, the opcode that 30_encoding.md R96
gives the command. -/

namespace Sys2Proof.Laws

/-- The opcode of a command (30_encoding.md R96). -/
def opcode : Instr → BitVec 8
  | .nop => 0x00#8
  | .sreset => 0x01#8
  | .clrErr => 0x02#8
  | .pClr => 0x10#8
  | .pRewind => 0x11#8
  | .pSetlen _ _ => 0x12#8
  | .pPut _ _ => 0x13#8
  | .pGet _ => 0x14#8
  | .pWr _ _ => 0x15#8
  | .pRd _ => 0x16#8
  | .mClr => 0x18#8
  | .mRewind => 0x19#8
  | .mSetlen _ _ => 0x1A#8
  | .mPut _ _ => 0x1B#8
  | .mGet _ => 0x1C#8
  | .mWr _ _ => 0x1D#8
  | .mRd _ => 0x1E#8
  | .profClr => 0x20#8
  | .profAdd _ _ => 0x21#8
  | .freqRd _ => 0x22#8
  | .flBuild => 0x30#8
  | .flDec => 0x31#8
  | .flMwrite => 0x32#8
  | .flMread => 0x33#8
  | .hufBuild => 0x40#8
  | .hufDec => 0x41#8
  | .hufMwrite => 0x42#8
  | .hufMread => 0x43#8
  | .nodeRd _ => 0x44#8
  | .nodeWt _ => 0x45#8
  | .enc _ => 0x50#8
  | .codeLen _ => 0x51#8
  | .codeRd _ _ => 0x52#8
  | .wsumCalc => 0x53#8

/-- The command's word carries its opcode (30_encoding.md R91, R96). -/
def Encoding.Statement (i : Instr) : Prop := opcodeOf (encode i) = opcode i

theorem Encoding.nop : Encoding.Statement .nop :=
  opcodeOf_wordN _
theorem Encoding.sreset : Encoding.Statement .sreset :=
  opcodeOf_wordN _
theorem Encoding.clrErr : Encoding.Statement .clrErr :=
  opcodeOf_wordN _
theorem Encoding.pClr : Encoding.Statement .pClr :=
  opcodeOf_wordN _
theorem Encoding.pRewind : Encoding.Statement .pRewind :=
  opcodeOf_wordN _
theorem Encoding.pSetlen (b : BitVec 21) (p : BitVec 3) : Encoding.Statement (.pSetlen b p) :=
  opcodeOf_wordL _ _ _
theorem Encoding.pPut (n : BitVec 5) (v : BitVec 16) : Encoding.Statement (.pPut n v) :=
  opcodeOf_wordG _ _ _
theorem Encoding.pGet (n : BitVec 5) : Encoding.Statement (.pGet n) :=
  opcodeOf_wordQ _ _
theorem Encoding.pWr (a : BitVec 16) (d : Byte) : Encoding.Statement (.pWr a d) :=
  opcodeOf_wordAW _ _ _
theorem Encoding.pRd (a : BitVec 16) : Encoding.Statement (.pRd a) :=
  opcodeOf_wordAR _ _
theorem Encoding.mClr : Encoding.Statement .mClr :=
  opcodeOf_wordN _
theorem Encoding.mRewind : Encoding.Statement .mRewind :=
  opcodeOf_wordN _
theorem Encoding.mSetlen (b : BitVec 21) (p : BitVec 3) : Encoding.Statement (.mSetlen b p) :=
  opcodeOf_wordL _ _ _
theorem Encoding.mPut (n : BitVec 5) (v : BitVec 16) : Encoding.Statement (.mPut n v) :=
  opcodeOf_wordG _ _ _
theorem Encoding.mGet (n : BitVec 5) : Encoding.Statement (.mGet n) :=
  opcodeOf_wordQ _ _
theorem Encoding.mWr (a : BitVec 16) (d : Byte) : Encoding.Statement (.mWr a d) :=
  opcodeOf_wordAW _ _ _
theorem Encoding.mRd (a : BitVec 16) : Encoding.Statement (.mRd a) :=
  opcodeOf_wordAR _ _
theorem Encoding.profClr : Encoding.Statement .profClr :=
  opcodeOf_wordN _
theorem Encoding.profAdd (s : Symbol) (k : BitVec 16) : Encoding.Statement (.profAdd s k) :=
  opcodeOf_wordSK _ _ _
theorem Encoding.freqRd (s : Symbol) : Encoding.Statement (.freqRd s) :=
  opcodeOf_wordS _ _
theorem Encoding.flBuild : Encoding.Statement .flBuild :=
  opcodeOf_wordN _
theorem Encoding.flDec : Encoding.Statement .flDec :=
  opcodeOf_wordN _
theorem Encoding.flMwrite : Encoding.Statement .flMwrite :=
  opcodeOf_wordN _
theorem Encoding.flMread : Encoding.Statement .flMread :=
  opcodeOf_wordN _
theorem Encoding.hufBuild : Encoding.Statement .hufBuild :=
  opcodeOf_wordN _
theorem Encoding.hufDec : Encoding.Statement .hufDec :=
  opcodeOf_wordN _
theorem Encoding.hufMwrite : Encoding.Statement .hufMwrite :=
  opcodeOf_wordN _
theorem Encoding.hufMread : Encoding.Statement .hufMread :=
  opcodeOf_wordN _
theorem Encoding.nodeRd (i : BitVec 9) : Encoding.Statement (.nodeRd i) :=
  opcodeOf_wordI _ _
theorem Encoding.nodeWt (i : BitVec 9) : Encoding.Statement (.nodeWt i) :=
  opcodeOf_wordI _ _
theorem Encoding.enc (s : Symbol) : Encoding.Statement (.enc s) :=
  opcodeOf_wordS _ _
theorem Encoding.codeLen (s : Symbol) : Encoding.Statement (.codeLen s) :=
  opcodeOf_wordS _ _
theorem Encoding.codeRd (s : Symbol) (c : BitVec 3) : Encoding.Statement (.codeRd s c) :=
  opcodeOf_wordSC _ _ _
theorem Encoding.wsumCalc : Encoding.Statement .wsumCalc :=
  opcodeOf_wordN _

end Sys2Proof.Laws
end

