-- ==== Sys2Proof/Laws/Step.lean ====
section
/-! SUPPORT. What a step can be, said once: the latched command run to its end, a host event, or an idle block. -/

namespace Sys2Proof.Machine

theorem step_idle {s : State} (hh : s.host = []) (hl : s.latched = none) : step s = .next s := by
  simp [step, advance, hh, hl]

theorem step_runs_last {s : State} {w : Word} (hh : s.host = []) (hl : s.latched = some w) : step s = runCommand w s := by
  simp [step, advance, hh, hl]

theorem step_runs {s : State} {w : Word} {rest : List HostEvent} (hh : s.host = .awaitIdle :: rest) (hl : s.latched = some w) :
    step s = runCommand w (s.setHost rest) := by
  simp [step, advance, hh, hl]

theorem step_waits_idle {s : State} {rest : List HostEvent} (hh : s.host = .awaitIdle :: rest) (hl : s.latched = none) :
    step s = .next (s.setHost rest) := by
  simp [step, advance, hh, hl, hostEvent]

theorem step_host {s : State} {e : HostEvent} {rest : List HostEvent} (hh : s.host = e :: rest) (he : e ≠ .awaitIdle) :
    step s = hostEvent e (s.setHost rest) := by
  cases e <;> first | exact absurd rfl he | simp [step, advance, hh]

/-- Every step is one of these five. -/
theorem step_cases (s : State) :
    (s.host = [] ∧ s.latched = none ∧ step s = .next s) ∨
    (∃ w, s.host = [] ∧ s.latched = some w ∧ step s = runCommand w s) ∨
    (∃ w rest, s.host = .awaitIdle :: rest ∧ s.latched = some w ∧ step s = runCommand w (s.setHost rest)) ∨
    (∃ rest, s.host = .awaitIdle :: rest ∧ s.latched = none ∧ step s = .next (s.setHost rest)) ∨
    (∃ e rest, s.host = e :: rest ∧ e ≠ .awaitIdle ∧ step s = hostEvent e (s.setHost rest)) := by
  cases hh : s.host with
  | nil =>
    cases hl : s.latched with
    | none => exact .inl ⟨rfl, rfl, step_idle hh hl⟩
    | some w => exact .inr (.inl ⟨w, rfl, rfl, step_runs_last hh hl⟩)
  | cons e rest =>
    by_cases he : e = .awaitIdle
    · subst he
      cases hl : s.latched with
      | none => exact .inr (.inr (.inr (.inl ⟨rest, rfl, rfl, step_waits_idle hh hl⟩)))
      | some w => exact .inr (.inr (.inl ⟨w, rest, rfl, rfl, step_runs hh hl⟩))
    · exact .inr (.inr (.inr (.inr ⟨e, rest, rfl, he, step_host hh he⟩)))

/-- A host read is one of four: a reserved offset, an idle block's register, STATUS while BUSY = 1, or a free value. -/
theorem hostValue_cases (s : State) (offset : BitVec 8) :
    (0x64 ≤ offset.toNat ∧ s.hostValue offset = 0#32) ∨
    (offset.toNat < 0x64 ∧ s.busy = false ∧ s.hostValue offset = s.register offset) ∨
    (offset = 0x04#8 ∧ s.busy = true ∧ s.hostValue offset = s.statusWordBusy) ∨
    (offset.toNat < 0x64 ∧ offset ≠ 0x04#8 ∧ s.busy = true ∧ s.hostValue offset = Config.busyRead s.draws offset) := by
  unfold State.hostValue reservedOffset
  by_cases h1 : 0x64 ≤ offset.toNat
  · exact .inl ⟨h1, by simp [h1]⟩
  · have h1' := Nat.lt_of_not_le h1
    cases hb : s.busy with
    | false => exact .inr (.inl ⟨h1', rfl, by simp [h1]⟩)
    | true =>
      by_cases h2 : offset = 0x04#8
      · subst h2
        exact .inr (.inr (.inl ⟨rfl, rfl, by simp⟩))
      · exact .inr (.inr (.inr ⟨h1', h2, rfl, by simp [h1, h2]⟩))

/-- A register at a reserved offset reads 0 (10_state.md R24). -/
theorem register_reserved (s : State) (offset : BitVec 8) (h : 0x64 ≤ offset.toNat) : s.register offset = 0#32 := by
  unfold State.register
  split <;> first | rfl | exact absurd h (by decide)

/-- A command that a word decodes to runs to its end (10_state.md R36). -/
theorem runCommand_ok {w : Word} {i : Instr} (s : State) (h : decode w = .ok i) : runCommand w s = complete (exec i s) := by
  simp [runCommand, h]

/-- A word that is no command raises ILLEGAL_COMMAND (30_encoding.md R97). -/
theorem runCommand_error {w : Word} {r : Reject} (s : State) (h : decode w = .error r) :
    runCommand w s = .next (s.raise w .illegalCommand 0) := by
  simp only [runCommand, h, complete]
  rfl

/-- A CMD write is one of three (10_state.md R36). -/
theorem writeCmd_cases (w : Word) (s : State) :
    (s.latched ≠ none ∧ s.writeCmd w = s.nextDraw.setOvr) ∨
    (s.latched = none ∧ s.errcode ≠ 0#8 ∧ w ∉ controlWords ∧ s.writeCmd w = s) ∨
    (s.latched = none ∧ (s.errcode = 0#8 ∨ w ∈ controlWords) ∧
      s.writeCmd w = s.nextDraw.setLatched (some w)) := by
  unfold State.writeCmd State.busy
  cases hl : s.latched with
  | some x => exact .inl ⟨by simp, rfl⟩
  | none =>
    by_cases h : s.errcode ≠ 0#8 ∧ w ∉ controlWords
    · exact .inr (.inl ⟨rfl, h.1, h.2, by simp [h]⟩)
    · refine .inr (.inr ⟨rfl, ?_, by simp only [Option.isSome_none, Bool.false_eq_true, if_false, if_neg h]⟩)
      by_cases h0 : s.errcode = 0#8
      · exact .inl h0
      · exact .inr (not_not.1 fun hw => h ⟨h0, hw⟩)

end Sys2Proof.Machine
end

