-- ==== Sys2Proof/Tests/Slice0.lean ====
section
/-! SUPPORT. The model's own tests. Expected values are those of spec/95_test_vectors.md and of the examples in the command
rules, or are worked out by hand from the rules; each docstring says which. Then a witness for the hypotheses of each
statement of Certificates/Slice0/Obligations.lean. -/

namespace Sys2Proof.Tests

set_option Elab.async false

open Sys2Proof Sys2Proof.Machine

/-! ## WellFormed refuses ill-formed terms, one for each check (30_encoding.md R94) -/

theorem test_wf_refuses_p_put_width_zero : (.pPut 0#5 0#16 : Instr).wf = false := by decide
theorem test_wf_refuses_p_put_width_17 : (.pPut 17#5 0#16 : Instr).wf = false := by decide
theorem test_wf_refuses_p_put_value_too_wide : (.pPut 2#5 4#16 : Instr).wf = false := by decide
theorem test_wf_refuses_p_get_width_zero : (.pGet 0#5 : Instr).wf = false := by decide
theorem test_wf_refuses_p_get_width_17 : (.pGet 17#5 : Instr).wf = false := by decide
theorem test_wf_refuses_m_put_width_zero : (.mPut 0#5 0#16 : Instr).wf = false := by decide
theorem test_wf_refuses_m_put_width_31 : (.mPut 31#5 0#16 : Instr).wf = false := by decide
theorem test_wf_refuses_m_put_value_too_wide : (.mPut 15#5 0x8000#16 : Instr).wf = false := by decide
theorem test_wf_refuses_m_get_width_zero : (.mGet 0#5 : Instr).wf = false := by decide
theorem test_wf_refuses_m_get_width_17 : (.mGet 17#5 : Instr).wf = false := by decide
theorem test_wf_accepts_p_put_16 : (.pPut 16#5 0xFFFF#16 : Instr).wf = true := by decide
theorem test_wf_accepts_m_put_1 : (.mPut 1#5 1#16 : Instr).wf = true := by decide
theorem test_wf_accepts_p_get_16 : (.pGet 16#5 : Instr).wf = true := by decide
theorem test_wf_accepts_m_get_1 : (.mGet 1#5 : Instr).wf = true := by decide

/-! ## Decoding: each constructor's word, written out from 30_encoding.md R92 and R96, mostly the words of files 40 to 45 -/

theorem test_decode_nop : decode 0x00000000#32 = .ok (.nop) := by decide
theorem test_decode_sreset : decode 0x01000000#32 = .ok (.sreset) := by decide
theorem test_decode_clrErr : decode 0x02000000#32 = .ok (.clrErr) := by decide
theorem test_decode_pClr : decode 0x10000000#32 = .ok (.pClr) := by decide
theorem test_decode_pRewind : decode 0x11000000#32 = .ok (.pRewind) := by decide
theorem test_decode_pSetlen : decode 0x12200003#32 = .ok (.pSetlen 3#21 1#3) := by decide
theorem test_decode_pPut : decode 0x13060033#32 = .ok (.pPut 6#5 0x33#16) := by decide
theorem test_decode_pGet : decode 0x14040000#32 = .ok (.pGet 4#5) := by decide
theorem test_decode_pWr : decode 0x150002DC#32 = .ok (.pWr 2#16 0xDC#8) := by decide
theorem test_decode_pRd : decode 0x16000100#32 = .ok (.pRd 1#16) := by decide
theorem test_decode_mClr : decode 0x18000000#32 = .ok (.mClr) := by decide
theorem test_decode_mRewind : decode 0x19000000#32 = .ok (.mRewind) := by decide
theorem test_decode_mSetlen : decode 0x1AA00003#32 = .ok (.mSetlen 3#21 5#3) := by decide
theorem test_decode_mPut : decode 0x1B0B031A#32 = .ok (.mPut 11#5 0x31A#16) := by decide
theorem test_decode_mGet : decode 0x1C090000#32 = .ok (.mGet 9#5) := by decide
theorem test_decode_mWr : decode 0x1D000562#32 = .ok (.mWr 5#16 0x62#8) := by decide
theorem test_decode_mRd : decode 0x1E040000#32 = .ok (.mRd 1024#16) := by decide
theorem test_decode_profClr : decode 0x20000000#32 = .ok (.profClr) := by decide
theorem test_decode_profAdd : decode 0x21000361#32 = .ok (.profAdd 0x61#8 3#16) := by decide
theorem test_decode_freqRd : decode 0x22000062#32 = .ok (.freqRd 0x62#8) := by decide
theorem test_decode_flBuild : decode 0x30000000#32 = .ok (.flBuild) := by decide
theorem test_decode_flDec : decode 0x31000000#32 = .ok (.flDec) := by decide
theorem test_decode_flMwrite : decode 0x32000000#32 = .ok (.flMwrite) := by decide
theorem test_decode_flMread : decode 0x33000000#32 = .ok (.flMread) := by decide
theorem test_decode_hufBuild : decode 0x40000000#32 = .ok (.hufBuild) := by decide
theorem test_decode_hufDec : decode 0x41000000#32 = .ok (.hufDec) := by decide
theorem test_decode_hufMwrite : decode 0x42000000#32 = .ok (.hufMwrite) := by decide
theorem test_decode_hufMread : decode 0x43000000#32 = .ok (.hufMread) := by decide
theorem test_decode_nodeRd : decode 0x440001FF#32 = .ok (.nodeRd 511#9) := by decide
theorem test_decode_nodeWt : decode 0x45000002#32 = .ok (.nodeWt 2#9) := by decide
theorem test_decode_enc : decode 0x50000061#32 = .ok (.enc 0x61#8) := by decide
theorem test_decode_codeLen : decode 0x51000072#32 = .ok (.codeLen 0x72#8) := by decide
theorem test_decode_codeRd : decode 0x520007FE#32 = .ok (.codeRd 0xFE#8 7#3) := by decide
theorem test_decode_wsumCalc : decode 0x53000000#32 = .ok (.wsumCalc) := by decide

/-! Words that are no command (95_test_vectors.md 2.1), each with its reason. -/

theorem test_decode_refuses_illegal_words :
    decode 0x00000001#32 = .error .reservedBits ∧
    decode 0x03000000#32 = .error .unassignedOpcode ∧
    decode 0x17000000#32 = .error .unassignedOpcode ∧
    decode 0x1F000000#32 = .error .unassignedOpcode ∧
    decode 0x23000000#32 = .error .unassignedOpcode ∧
    decode 0x34000000#32 = .error .unassignedOpcode ∧
    decode 0x46000000#32 = .error .unassignedOpcode ∧
    decode 0x54000000#32 = .error .unassignedOpcode ∧
    decode 0xFF000000#32 = .error .unassignedOpcode ∧
    decode 0x13000000#32 = .error .groupWidth ∧
    decode 0x13110000#32 = .error .groupWidth ∧
    decode 0x13020004#32 = .error .groupValue ∧
    decode 0x13210001#32 = .error .reservedBits ∧
    decode 0x14010001#32 = .error .reservedBits ∧
    decode 0x16000001#32 = .error .reservedBits ∧
    decode 0x22000100#32 = .error .reservedBits ∧
    decode 0x44000200#32 = .error .reservedBits ∧
    decode 0x52000800#32 = .error .reservedBits ∧
    decode 0x1C000000#32 = .error .groupWidth := by decide

/-- 95_test_vectors.md 2.1: words whose fields are all ones are legal where the format has no reserved bit. -/
theorem test_decode_accepts_all_ones_fields :
    decode 0x12FFFFFF#32 = .ok (.pSetlen 0x1FFFFF#21 7#3) ∧ decode 0x15FFFFFF#32 = .ok (.pWr 0xFFFF#16 0xFF#8) ∧
    decode 0x21FFFFFF#32 = .ok (.profAdd 0xFF#8 0xFFFF#16) := by decide

/-- The host's entry reads the same word. -/
theorem test_decodeTableWord : decodeTableWord 32 0x1B080003 = some (.mPut 8#5 3#16) ∧ decodeTableWord 32 0x17000000 = none := by
  decide

/-! ## One step of each command -/

/-- The outcome is a next state of which p holds. -/
def after (r : Result) (p : State → Bool) : Bool :=
  match r with
  | .next t => p t
  | .fault _ => false
  | .refused _ => false

/-- Reset, but stream S holds these bits and its cursor stands at k. -/
def holding (S : StreamId) (bits : List Bool) (k : Nat) : State := (State.reset.append S bits).setRpos S k

/-- A state with these symbol counts. -/
def counting (counts : List (Symbol × Word)) (s : State) : State :=
  { s with
    freq := Table.ofFun fun a => (counts.lookup a).getD 0#32
    total := counts.foldl (fun n e => n + e.2) 0#32 }

/-- The counts of "abracadabra". -/
def abraCounts : List (Symbol × Word) := [(0x61#8, 5#32), (0x62#8, 2#32), (0x63#8, 1#32), (0x64#8, 1#32), (0x72#8, 2#32)]

/-- The fixed-length table of "abracadabra" (43_fixed_length.md R171's example). -/
def abraFixed : State :=
  State.reset.loadFixed [(0x61#8, [false, false, false]), (0x62#8, [false, false, true]), (0x72#8, [false, true, false]),
    (0x63#8, [false, true, true]), (0x64#8, [true, false, false])] 3

/-- The tree of "aaab" (44_huffman.md R191's example). -/
def aaabTree : State :=
  State.reset.loadHuff [.leaf 0x61#8 3#32, .leaf 0x62#8 1#32, .internal 4#32 1#9 0#9] 2 2
    [(0x62#8, [false]), (0x61#8, [true])]

/-- The tree of one symbol 'a' (95_test_vectors.md V-H4). -/
def oneLeaf : State := State.reset.loadHuff [.leaf 0x61#8 3#32] 0 1 [(0x61#8, [false])]

/-- The loaded one-symbol fixed table ('z', 1) (95_test_vectors.md V-F21). -/
def zFixed : State := State.reset.loadFixed [(0x7A#8, [true])] 1

/-- A stream's first bytes are these, and its count. -/
def holds (S : StreamId) (k : Nat) (bytes : List Byte) (t : State) : Bool :=
  decide ((t.stream S).wbits = k) && decide ((t.stream S).serialized (t.blank S) = bytes)

/-- The three error registers. -/
def erred (code : BitVec 8) (word : Word) (pos : BitVec 20) (t : State) : Bool :=
  decide (t.errcode = code ∧ t.errcmd = word ∧ t.errpos = pos)

/-- V-C3: NOP while locked. -/
theorem test_nop_keeps_the_lock :
    after (exec .nop { State.reset with errcode := 0x07#8 }) (fun t => decide (t.errcode = 0x07#8)) = true := by decide +kernel

/-- V-C6: SRESET clears the lock and the counts and keeps the buffer bytes. -/
theorem test_sreset_keeps_the_buffer :
    after (exec .sreset { (counting abraCounts (holding .P (natToBits 8 0x6E) 3)) with errcode := 0x04#8, mode := .huff })
      (fun t => decide (t.errcode = 0#8 ∧ t.mode = .none ∧ t.p.wbits = 0 ∧ t.p.rpos = 0 ∧ t.total = 0#32 ∧
        Table.at t.freq 0x61#8 = 0#32 ∧ t.byte .P 0 = 0x6E#8)) = true := by decide +kernel

/-- 40_control.md R122's example. -/
theorem test_clr_err_keeps_the_cursor :
    after (exec .clrErr { holding .P [true, true, true, true] 3 with errcode := 0x04#8, errpos := 3#20, ovr := true })
      (fun t => erred 0#8 0#32 0#20 t && decide (t.p.rpos = 3 ∧ t.ovr = false)) = true := by decide +kernel

/-- V-B24: P_CLR keeps the bytes. -/
theorem test_p_clr :
    after (exec .pClr (holding .P (natToBits 8 0xC3) 5)) (fun t => decide (t.p.wbits = 0 ∧ t.p.rpos = 0 ∧
      t.byte .P 0 = 0xC3#8)) = true := by decide +kernel

/-- V-B6. -/
theorem test_p_rewind :
    after (exec .pRewind (holding .P (natToBits 9 0x173) 9)) (fun t => decide (t.p.rpos = 0) && holds .P 9 [0xB9#8, 0x80#8] t)
      = true := by decide +kernel

/-- V-B16 and V-B15. -/
theorem test_p_setlen :
    after (exec (.pSetlen 65536#21 0#3) (holding .P [true, false, true] 1)) (fun t => decide (t.p.wbits = 524288 ∧ t.p.rpos = 0))
      = true ∧
    after (exec (.pSetlen 1#21 7#3) (holding .P [true, false, true] 1)) (fun t => decide (t.p.wbits = 1 ∧ t.p.rpos = 0))
      = true := by decide +kernel

/-- V-B14 and V-B17. -/
theorem test_p_setlen_bad_length :
    after (exec (.pSetlen 0#21 1#3) (holding .P [true, false, true] 1)) (erred 0x0C#8 0x12200000#32 0#20) = true ∧
    after (exec (.pSetlen 65537#21 0#3) (holding .P [true, false, true] 1)) (erred 0x0C#8 0x12010001#32 0#20) = true := by
  decide +kernel

/-- V-B2: a group across a byte boundary. -/
theorem test_p_put :
    after (exec (.pPut 6#5 0x33#16) (holding .P [true, false, true] 0)) (holds .P 9 [0xB9#8, 0x80#8]) = true := by decide +kernel

/-- V-B9: the append zeroes the bits below it. -/
theorem test_p_put_writes_filler :
    after (exec (.pPut 1#5 0#16) { State.reset with p := { buf := [(0, 0xFF#8)], wbits := 1, rpos := 0 } })
      (holds .P 2 [0x80#8]) = true := by decide +kernel

/-- V-B3. -/
theorem test_p_get :
    after (exec (.pGet 4#5) (holding .P (natToBits 9 0x173) 0)) (fun t => decide (t.result = 0x0000000B#32 ∧ t.p.rpos = 4))
      = true := by decide +kernel

/-- V-B5. -/
theorem test_p_get_underrun :
    after (exec (.pGet 1#5) (holding .P (natToBits 9 0x173) 9)) (fun t => erred 0x0A#8 0x14010000#32 9#20 t &&
      decide (t.p.rpos = 9)) = true := by decide +kernel

/-- V-B23. -/
theorem test_p_wr : after (exec (.pWr 65535#16 0x5A#8) State.reset) (fun t => decide (t.byte .P 65535 = 0x5A#8)) = true := by
  decide +kernel

/-- 41_bitstream.md R137's example. -/
theorem test_p_rd : after (exec (.pRd 0#16) (holding .P (natToBits 8 0x6E) 0)) (fun t => decide (t.result = 0x0000006E#32))
    = true := by decide +kernel

/-- R147's example. -/
theorem test_m_clr : after (exec .mClr (holding .M (natToBits 19 0x2C561) 4)) (fun t => decide (t.m.wbits = 0 ∧ t.m.rpos = 0))
    = true := by decide +kernel

/-- R148's example. -/
theorem test_m_rewind : after (exec .mRewind (holding .M (natToBits 19 0x2C561) 19)) (fun t => decide (t.m.rpos = 0 ∧
    t.m.wbits = 19)) = true := by decide +kernel

/-- V-B18 and V-B19. -/
theorem test_m_setlen :
    after (exec (.mSetlen 1024#21 7#3) (holding .M [true, false, true] 1)) (fun t => decide (t.m.wbits = 8185 ∧ t.m.rpos = 0))
      = true ∧
    after (exec (.mSetlen 1025#21 0#3) (holding .M [true, false, true] 1)) (erred 0x0C#8 0x1A000401#32 0#20) = true := by
  decide +kernel

/-- V-B25: M_PUT, then what M_GET finds across the two. -/
theorem test_m_put :
    after (exec (.mPut 4#5 0xA#16) (holding .M [true, false, true, false, true] 3)) (fun t => holds .M 9 [0xAD#8, 0x00#8] t &&
      after (exec (.mGet 6#5) t) (fun u => decide (u.result = 0x0000001A#32 ∧ u.m.rpos = 9))) = true := by decide +kernel

/-- V-B10, V-B11 and V-B12: the capacity, exactly. -/
theorem test_m_put_capacity :
    after (exec (.mPut 1#5 1#16) { State.reset with m := { buf := [], wbits := 8192, rpos := 0 } })
      (erred 0x08#8 0x1B010001#32 0#20) = true ∧
    after (exec (.mPut 1#5 1#16) { State.reset with m := { buf := [(1023, 0#8)], wbits := 8191, rpos := 0 } })
      (fun t => decide (t.m.wbits = 8192 ∧ t.byte .M 1023 = 0x01#8)) = true ∧
    after (exec (.mPut 2#5 1#16) { State.reset with m := { buf := [], wbits := 8191, rpos := 0 } })
      (erred 0x08#8 0x1B020001#32 0#20) = true := by decide +kernel

/-- R151's example. -/
theorem test_m_get :
    after (exec (.mGet 9#5) { State.reset with m := { buf := [(0, 0x58#8), (1, 0xAC#8), (2, 0x20#8)], wbits := 19, rpos := 0 } })
      (fun t => decide (t.result = 0x000000B1#32 ∧ t.m.rpos = 9)) = true := by decide +kernel

/-- V-B20 and V-B21. -/
theorem test_m_wr :
    after (exec (.mWr 1023#16 0xA5#8) State.reset) (fun t => decide (t.byte .M 1023 = 0xA5#8 ∧ t.m.wbits = 0)) = true ∧
    after (exec (.mWr 1024#16 0xA5#8) State.reset) (erred 0x0B#8 0x1D0400A5#32 0#20) = true := by decide +kernel

/-- R153's example and V-B22. -/
theorem test_m_rd :
    after (exec (.mRd 1#16) { State.reset with m := { buf := [(1, 0xAC#8)], wbits := 0, rpos := 0 } })
      (fun t => decide (t.result = 0x000000AC#32)) = true ∧
    after (exec (.mRd 1024#16) State.reset) (erred 0x0B#8 0x1E040000#32 0#20) = true := by decide +kernel

/-- V-P5. -/
theorem test_prof_clr :
    after (exec .profClr (counting abraCounts State.reset)) (fun t => decide (Table.at t.freq 0x61#8 = 0#32 ∧ t.total = 0#32))
      = true := by decide +kernel

/-- V-P1. -/
theorem test_prof_add :
    after (exec (.profAdd 0x61#8 3#16) (counting [(0x61#8, 1#32)] State.reset))
      (fun t => decide (Table.at t.freq 0x61#8 = 4#32 ∧ Table.at t.freq 0x62#8 = 0#32 ∧ t.total = 4#32)) = true := by
  decide +kernel

/-- V-P3 and V-P4. -/
theorem test_prof_add_capacity :
    after (exec (.profAdd 0x01#8 1#16) (counting [(0x00#8, 0xFFFFFFFF#32)] State.reset))
      (fun t => erred 0x08#8 0x21000101#32 0#20 t && decide (Table.at t.freq 0x01#8 = 0#32)) = true ∧
    after (exec (.profAdd 0x01#8 0#16) (counting [(0x00#8, 0xFFFFFFFF#32)] State.reset))
      (fun t => decide (t.errcode = 0#8 ∧ t.total = 0xFFFFFFFF#32)) = true := by decide +kernel

/-- 42_profiler.md R162's example. -/
theorem test_freq_rd :
    after (exec (.freqRd 0x62#8) (counting [(0x61#8, 3#32), (0x62#8, 1#32)] State.reset)) (fun t => decide (t.result = 1#32))
      = true := by decide +kernel

/-- 43_fixed_length.md R171's example: the table of "abracadabra". -/
theorem test_fl_build :
    after (exec .flBuild (counting abraCounts State.reset)) (fun t => decide (t.mode = .fixed ∧ t.alpha = 5#9 ∧ t.width = 3#4 ∧
      t.maxlen = 3#8 ∧ t.codeBits 0x64#8 = [true, false, false] ∧ t.codeBits 0x72#8 = [false, true, false] ∧
      Table.at t.rsym 3#8 = 0x63#8 ∧ Table.at t.rvalid 5#8 = false)) = true := by decide +kernel

/-- V-F2: ties in ascending ordinal. -/
theorem test_fl_build_ties :
    after (exec .flBuild (counting [(0x62#8, 2#32), (0x61#8, 2#32), (0x63#8, 1#32)] State.reset))
      (fun t => decide (t.width = 2#4 ∧ Table.at t.cval 0x61#8 = 0#255 ∧ Table.at t.cval 0x62#8 = 1#255 ∧
        Table.at t.cval 0x63#8 = 2#255 ∧ Table.at t.rvalid 3#8 = false)) = true := by decide +kernel

/-- R172's example, and the end of the stream. -/
theorem test_fl_dec :
    after (exec .flDec ((abraFixed.append .P (natToBits 6 1)).setRpos .P 3))
      (fun t => decide (t.result = 0x00000062#32 ∧ t.p.rpos = 6) &&
        after (exec .flDec t) (fun u => decide (u.result = 0x00000100#32 ∧ u.p.rpos = 6))) = true := by decide +kernel

/-- V-F21's second decode, and V-F4's truncated group on the three-bit table. -/
theorem test_fl_dec_corrupt :
    after (exec .flDec ((zFixed.append .P [true, false]).setRpos .P 1)) (erred 0x04#8 0x31000000#32 1#20) = true ∧
    after (exec .flDec (abraFixed.append .P [false])) (erred 0x04#8 0x31000000#32 0#20) = true := by decide +kernel

/-- R173's example. -/
theorem test_fl_mwrite :
    after (exec .flMwrite abraFixed) (holds .M 63 [0x03#8, 0x61#8, 0x0C#8, 0x45#8, 0xC9#8, 0x31#8, 0xB6#8, 0x48#8]) = true := by
  decide +kernel

/-- V-F19: entries in any order, codes that are no ranks. -/
theorem test_fl_mread :
    after (exec .flMread { State.reset with
      m := { buf := [(0, 0x02#8), (1, 0x61#8), (2, 0xD8#8), (3, 0x86#8), (4, 0x34#8)], wbits := 38, rpos := 0 } })
      (fun t => decide (t.mode = .fixed ∧ t.alpha = 3#9 ∧ t.width = 2#4 ∧ Table.at t.cval 0x61#8 = 3#255 ∧
        Table.at t.cval 0x63#8 = 1#255 ∧ Table.at t.rsym 3#8 = 0x61#8 ∧ t.m.rpos = 38)) = true := by decide +kernel

/-- R174's example: one bit too few. -/
theorem test_fl_mread_corrupt :
    after (exec .flMread ((holding .M (natToBits 62 (0x03610C45C931B648 / 4)) 0))) (erred 0x03#8 0x33000000#32 0#20) = true := by
  decide +kernel

/-- 95_test_vectors.md 1.4: the arena of "abracadabra". -/
theorem test_huf_build :
    after (exec .hufBuild (counting abraCounts State.reset)) (fun t => decide (t.mode = .huff ∧ t.root = 8#9 ∧ t.nnodes = 9#10 ∧
      t.maxlen = 3#8 ∧ t.arena = [.leaf 0x61#8 5#32, .leaf 0x62#8 2#32, .leaf 0x63#8 1#32, .leaf 0x64#8 1#32, .leaf 0x72#8 2#32,
        .internal 2#32 2#9 3#9, .internal 4#32 1#9 4#9, .internal 6#32 5#9 6#9, .internal 11#32 0#9 7#9] ∧
      t.codeBits 0x62#8 = [true, true, false] ∧ t.codeBits 0x63#8 = [true, false, false])) = true := by decide +kernel

/-- V-H4: one symbol. -/
theorem test_huf_build_one_symbol :
    after (exec .hufBuild (counting [(0x61#8, 3#32)] State.reset)) (fun t => decide (t.alpha = 1#9 ∧ t.nnodes = 1#10 ∧
      t.root = 0#9 ∧ t.codeBits 0x61#8 = [false] ∧ t.arena = [.leaf 0x61#8 3#32])) = true := by decide +kernel

/-- R194's example, and the end of the stream. -/
theorem test_huf_dec :
    after (exec .hufDec ((aaabTree.append .P [true, true, true, false]).setRpos .P 3))
      (fun t => decide (t.result = 0x00000062#32 ∧ t.p.rpos = 4) &&
        after (exec .hufDec t) (fun u => decide (u.result = 0x00000100#32))) = true := by decide +kernel

/-- V-H6's error: a 1 bit at a one-leaf root. -/
theorem test_huf_dec_corrupt :
    after (exec .hufDec ((oneLeaf.append .P [false, true]).setRpos .P 1)) (fun t => erred 0x04#8 0x41000000#32 1#20 t &&
      decide (t.p.rpos = 1)) = true := by decide +kernel

/-- R195's example and V-H10. -/
theorem test_huf_mwrite :
    after (exec .hufMwrite aaabTree) (holds .M 19 [0x58#8, 0xAC#8, 0x20#8]) = true ∧
    after (exec .hufMwrite oneLeaf) (holds .M 9 [0xB0#8, 0x80#8]) = true := by decide +kernel

/-- V-H19: numbered in pre-order, weights 0. -/
theorem test_huf_mread :
    after (exec .hufMread { State.reset with m := { buf := [(0, 0x58#8), (1, 0x96#8), (2, 0x1B#8), (3, 0x18#8)], wbits := 29, rpos := 0 } })
      (fun t => decide (t.arena = [.internal 0#32 1#9 2#9, .leaf 0x62#8 0#32, .internal 0#32 3#9 4#9, .leaf 0x61#8 0#32,
          .leaf 0x63#8 0#32] ∧ t.alpha = 3#9 ∧ t.maxlen = 2#8 ∧ t.root = 0#9 ∧ t.codeBits 0x61#8 = [true, false] ∧
        t.codeBits 0x62#8 = [false] ∧ t.m.rpos = 29)) = true := by decide +kernel

/-- R196's example, and V-H15: a repeated leaf. -/
theorem test_huf_mread_corrupt :
    after (exec .hufMread { State.reset with m := { buf := [(0, 0x58#8), (1, 0xAC#8), (2, 0x20#8)], wbits := 18, rpos := 0 } })
      (erred 0x03#8 0x43000000#32 0#20) = true ∧
    after (exec .hufMread (holding .M (false :: ((true :: natToBits 8 0x61) ++ (true :: natToBits 8 0x61))) 0))
      (erred 0x03#8 0x43000000#32 0#20) = true := by decide +kernel

/-- R197's example. -/
theorem test_node_rd :
    after (exec (.nodeRd 2#9) aaabTree) (fun t => decide (t.result = 0x00000200#32)) = true ∧
    after (exec (.nodeRd 0#9) aaabTree) (fun t => decide (t.result = 0x80000061#32)) = true := by decide +kernel

/-- V-H20: the first index that is not in use. -/
theorem test_node_rd_bad_address : after (exec (.nodeRd 3#9) aaabTree) (erred 0x0B#8 0x44000003#32 0#20) = true := by
  decide +kernel

/-- R198's example. -/
theorem test_node_wt : after (exec (.nodeWt 2#9) aaabTree) (fun t => decide (t.result = 4#32)) = true := by decide +kernel

/-- R220's example. -/
theorem test_enc : after (exec (.enc 0x61#8) aaabTree) (holds .P 1 [0x80#8]) = true := by decide +kernel

/-- V-L2 and V-E4: no code comes before no room. -/
theorem test_enc_unknown_symbol :
    after (exec (.enc 0x63#8) { aaabTree with p := { buf := [], wbits := 524288, rpos := 0 } })
      (erred 0x09#8 0x50000063#32 0#20) = true := by decide +kernel

/-- 45_code_lookup.md R221: the lengths of V-L7a's kind, on the fixed table, and V-L6. -/
theorem test_code_len :
    after (exec (.codeLen 0x72#8) abraFixed) (fun t => decide (t.result = 3#32)) = true ∧
    after (exec (.codeLen 0x61#8) State.reset) (fun t => decide (t.result = 0#32)) = true := by decide +kernel

/-- The chunks of a 255-bit code value of all ones: chunk 7 has 31 bits (95_test_vectors.md 2.6, 0xFF). -/
theorem test_code_rd :
    after (exec (.codeRd 0xFF#8 7#3) { State.reset with cval := Table.ofFun fun _ => BitVec.allOnes 255 })
      (fun t => decide (t.result = 0x7FFFFFFF#32)) = true ∧
    after (exec (.codeRd 0x72#8 0#3) abraFixed) (fun t => decide (t.result = 2#32)) = true := by decide +kernel

/-- V-L9. -/
theorem test_wsum_calc :
    after (exec .wsumCalc (counting abraCounts abraFixed)) (fun t => decide (t.wsum = 33#64 ∧ t.result = 0x00000021#32)) = true := by
  decide +kernel

/-- V-L11: more than 32 bits. -/
theorem test_wsum_calc_wide :
    after (exec .wsumCalc (counting [(0xFF#8, 0xFFFFFFFF#32)] { State.reset with mode := .huff, clen := Table.ofFun fun _ => 255#8 }))
      (fun t => decide (t.register 0x34#8 = 0x000000FE#32 ∧ t.register 0x30#8 = 0xFFFFFF01#32 ∧ t.result = 0xFFFFFF01#32)) = true := by
  decide +kernel

/-- V-E2: the mode is checked before the address. -/
theorem test_uninitialized_before_bad_address : after (exec (.nodeRd 511#9) State.reset) (erred 0x02#8 0x440001FF#32 0#20) = true := by
  decide +kernel

/-! ## The step -/

/-- Each row of the table runs as the first command after reset: every pattern, with n = 1 where the format has a width. -/
theorem test_every_row_steps :
    (opcodeTable.all fun r => after (step (State.reset.withFetchWord 32
      (if r.format = .G ∨ r.format = .Q then r.pattern ||| 0x00010000#32 else r.pattern).toNat))
      (fun t => decide (t.latched = none ∧ t.host = [] ∧ t.errcode ≠ 0x07#8))) = true := by decide +kernel

/-- V-C2, V-C5 and V-E7: malformed words while locked change nothing. -/
theorem test_locked_drop :
    ([0x00000001#32, 0x02000001#32, 0x01000001#32, 0x10000000#32].all fun w =>
      after (step { State.reset with errcode := 0x07#8, errcmd := 0xFF000000#32, host := [.write 32 0x00#8 w] })
        (fun t => decide (t.errcode = 0x07#8 ∧ t.errcmd = 0xFF000000#32 ∧ t.ovr = false ∧ t.latched = none ∧ t.host = []))) = true := by decide +kernel

/-- V-C7: a write while BUSY = 1 sets OVR and drops the word. -/
theorem test_overrun :
    after (step { State.reset with latched := some 0x10000000#32, host := [.write 32 0x00#8 0x11000000#32] })
      (fun t => decide (t.ovr = true ∧ t.latched = some 0x10000000#32)) = true := by decide +kernel

/-- The least instance that 00_scope.md R8 allows, PCAP = 1 and MCAP = 513: its constants, R136's first bad address, R134's last
bit that fits, R133's longest metadata stream. -/
theorem test_smallest_instance :
    let s := State.resetOf { pcap := 1, mcap := 513 }
    s.hostValue 0x5C#8 = 1#32 ∧ s.hostValue 0x60#8 = 513#32 ∧
    after (exec (.pWr 0#16 0xA5#8) s) (fun t => decide (t.byte .P 0 = 0xA5#8)) = true ∧
    after (exec (.pWr 1#16 0xA5#8) s) (erred 0x0B#8 0x150001A5#32 0#20) = true ∧
    after (exec (.pPut 8#5 0xC3#16) s) (holds .P 8 [0xC3#8]) = true ∧
    after (exec (.pPut 9#5 0xC3#16) s) (erred 0x08#8 0x130900C3#32 0#20) = true ∧
    after (exec (.mSetlen 513#21 0#3) s) (fun t => decide (t.m.wbits = 4104)) = true ∧
    after (exec (.mSetlen 514#21 0#3) s) (erred 0x0C#8 0x1A000202#32 0#20) = true := by decide +kernel

/-- V5 and R260: the reserved offsets read 0 also while BUSY = 1. -/
theorem test_reserved_offsets_while_busy :
    let s := State.reset.setLatched (some 0x30000000#32)
    s.hostValue 0x64#8 = 0#32 ∧ s.hostValue 0xFC#8 = 0#32 := by decide +kernel

/-- 95_test_vectors.md P1's end state: STATUS reads 0x20 in MODE HUFF, and P_PAD is 4 for four bits. -/
theorem test_registers_of_p1 :
    let s := aaabTree.append .P [true, true, true, false]
    s.hostValue 0x04#8 = 0x00000020#32 ∧ s.hostValue 0x18#8 = 2#32 ∧ s.hostValue 0x20#8 = 2#32 ∧ s.hostValue 0x24#8 = 3#32 ∧
    s.hostValue 0x38#8 = 4#32 ∧ s.hostValue 0x40#8 = 1#32 ∧ s.hostValue 0x44#8 = 4#32 ∧ s.hostValue 0x58#8 = 0x48544231#32 := by
  decide +kernel

/-- 95_test_vectors.md 1.3: the width function. -/
theorem test_width : [1, 2, 3, 4, 5, 8, 9, 16, 17, 128, 129, 256].map codeWidth = [1, 1, 2, 2, 3, 3, 4, 4, 5, 7, 8, 8] := by
  decide +kernel

/-- 95_test_vectors.md 1.2: byte and pad counts. -/
theorem test_padding :
    [0, 1, 7, 8, 9, 15, 16, 23].map bytesOf = [0, 1, 1, 1, 2, 2, 2, 3] ∧
    [0, 1, 7, 8, 9, 15, 16, 23].map padOf = [0, 7, 1, 0, 7, 1, 0, 1] := by decide +kernel

/-- 30_encoding.md R100's examples. -/
theorem test_assemble :
    assemble "PROF_ADD 'a', 3" = some (.profAdd 0x61#8 3#16) ∧ assemble "P_SETLEN 3, 1 ; a comment" = some (.pSetlen 3#21 1#3) ∧
    assemble "M_WR 5, 0x62" = some (.mWr 5#16 0x62#8) ∧ assemble "P_PUT 2, 4" = none := by decide +kernel

/-- 30_encoding.md R102. -/
theorem test_disassemble :
    disassemble 0x21000361#32 = "PROF_ADD 97, 3" ∧ disassemble 0x13020004#32 = ".word 0x13020004" := by decide +kernel

/-! ## Witnesses: for each statement with hypotheses, concrete values that meet them, each clause at a boundary of its range.
A statement that is not named here has no hypothesis. -/

/-- Reset, but stream S has these counts. -/
def counted (S : StreamId) (wbits rpos : Nat) : State := State.reset.setStream S { buf := [], wbits := wbits, rpos := rpos }

/-- The block locked by 0xFF000000, the host writing w. -/
def lockedBlock (w : Word) : State :=
  { State.reset with errcode := 0x07#8, errcmd := 0xFF000000#32, host := [.write 32 0x00#8 w] }

/-! ### Encoding -/

theorem witness_DecodingAnEncodedCommandGivesItBack :
    (Instr.pPut 16#5 0xFFFF#16).wf = true ∧ (Instr.mGet 1#5).wf = true ∧ (Instr.codeRd 0xFF#8 7#3).wf = true := by decide

theorem witness_EncodingADecodedWordGivesItBack :
    decode 0x1310FFFF#32 = .ok (.pPut 16#5 0xFFFF#16) ∧ decode 0x1C010000#32 = .ok (.mGet 1#5) := by decide

/-- The last clause: an illegal word runs unlocked; the boundary opcodes and the four classes. -/
theorem witness_IllegalWordsRaiseIllegalCommand :
    (State.reset.setLatched (some 0x03000000#32)).latched = some 0x03000000#32 ∧
    (State.reset.setLatched (some 0x03000000#32)).errcode = 0#8 ∧ (State.reset.setLatched (some 0x03000000#32)).host = [] ∧
    decode 0x03000000#32 = .error .unassignedOpcode ∧ decode 0x54FFFFFF#32 = .error .unassignedOpcode ∧
    decode 0x52000800#32 = .error .reservedBits ∧ decode 0x1C110000#32 = .error .groupWidth ∧
    decode 0x1B010002#32 = .error .groupValue := by
  refine ⟨rfl, rfl, rfl, ?_⟩
  decide

/-! ### The step and the host port -/

theorem witness_StepRunsTheLatchedCommand :
    (State.reset.setLatched (some 0x10000000#32)).latched = some 0x10000000#32 ∧ decode 0x10000000#32 = .ok .pClr ∧
    (State.reset.setLatched (some 0x10000000#32)).host = [] ∧
    (latchWord 0x10000000#32 State.reset).host = [.awaitIdle] := ⟨rfl, by decide, rfl, rfl⟩

theorem witness_CmdWriteFollowsTheLifecycle :
    (lockedBlock 0x10000000#32).host = [.write 32 0x00#8 0x10000000#32] ∧
    ((lockedBlock 0x10000000#32).setLatched (some 0x00000000#32)).busy = true ∧
    ((lockedBlock 0x10000000#32).busy = false ∧ (lockedBlock 0x10000000#32).errcode ≠ 0#8 ∧
      0x10000000#32 ∉ [0x00000000#32, 0x01000000#32, 0x02000000#32]) ∧
    ((lockedBlock 0x02000000#32).busy = false ∧ 0x02000000#32 ∈ [0x00000000#32, 0x01000000#32, 0x02000000#32]) ∧
    ((State.reset.setLatched (some 0x02000000#32)).latched = some 0x02000000#32 ∧
      (State.reset.setLatched (some 0x02000000#32)).host = [] ∧ (latchWord 0x02000000#32 State.reset).host = [.awaitIdle]) ∧
    (decode 0x02000000#32 = .ok .clrErr ∧ ∃ t, exec .clrErr (lockedBlock 0x02000000#32) = .next t) ∧
    decode 0x02000001#32 = .error .reservedBits ∧ (∃ t, runCommand 0x02000001#32 (lockedBlock 0x02000001#32) = .next t) ∧
    (0x60#8 ≠ 0x04#8 ∧ (0x60#8).toNat < 0x64 ∧ 0x64 ≤ (0x64#8).toNat) :=
  ⟨rfl, rfl, ⟨rfl, by decide, by decide⟩, ⟨rfl, by decide⟩, ⟨rfl, rfl, rfl⟩, ⟨by decide, ⟨_, rfl⟩⟩, by decide, ⟨_, rfl⟩,
    by decide, by decide, by decide⟩

theorem witness_LockedBlockDropsEveryOtherWord :
    (lockedBlock 0x02000000#32).host = [.write 32 0x00#8 0x02000000#32] ∧ (lockedBlock 0x02000000#32).latched = none ∧
    (lockedBlock 0x02000000#32).errcode ≠ 0#8 ∧
    ¬ (0x02000001#32 = 0x00000000#32 ∨ 0x02000001#32 = 0x01000000#32 ∨ 0x02000001#32 = 0x02000000#32) :=
  ⟨rfl, rfl, by decide, by decide⟩

/-- A locked block whose CLR_ERR runs, and one that drops a word. -/
theorem witness_LockKeepsTheFirstError :
    LockOk (((lockedBlock 0#32).setHost []).setLatched (some 0x02000000#32)) ∧
    (((lockedBlock 0#32).setHost []).setLatched (some 0x02000000#32)).errcode ≠ 0#8 ∧
    (∃ t, step (((lockedBlock 0#32).setHost []).setLatched (some 0x02000000#32)) = .next t) ∧
    LockOk (lockedBlock 0x10000000#32) ∧ (∃ t, step (lockedBlock 0x10000000#32) = .next t) :=
  ⟨fun w hw _ => by cases hw; decide, by decide, ⟨_, rfl⟩, fun w hw => (by cases hw), ⟨_, rfl⟩⟩

theorem witness_HostReadHasNoSideEffect :
    (0xFC#8).toNat % 4 = 0 ∧
    (State.reset.setHost [.read 32 0xFC#8, .read 32 0xFC#8]).host = [.read 32 0xFC#8, .read 32 0xFC#8] := ⟨by decide, rfl⟩

theorem witness_WriteToAnyOffsetButCmdIsIgnored :
    (0x04#8).toNat % 4 = 0 ∧ 0x04#8 ≠ 0x00#8 ∧ (0xFC#8).toNat % 4 = 0 ∧
    (State.reset.setHost [.write 32 0x04#8 1#32]).host = [.write 32 0x04#8 1#32] := ⟨by decide, by decide, by decide, rfl⟩

theorem witness_UndefinedHostAccessIsRefused :
    (16 ≠ 32 ∨ (0x04#8).toNat % 4 ≠ 0) ∧ (32 ≠ 32 ∨ (0x01#8).toNat % 4 ≠ 0) ∧
    (State.reset.setHost [.write 16 0x04#8 1#32]).host = [.write 16 0x04#8 1#32] ∧
    (State.reset.setHost [.read 32 0x01#8]).host = [.read 32 0x01#8] := ⟨by decide, by decide, rfl, rfl⟩

/-! ### A state of MODE HUFF, and one of MODE FIXED, that meet the invariants -/

/-- The tree of "aaab" as a tree. -/
def aaab : Tree := .node 2 (.leaf 1 0x62#8) (.leaf 0 0x61#8)

theorem aaabTree_huffTree : HuffTree aaabTree aaab where
  root := rfl
  inArena := ⟨⟨4#32, rfl⟩, ⟨1#32, rfl⟩, ⟨3#32, rfl⟩⟩
  length := rfl
  indices := by decide
  distinct := by decide
  alpha := rfl
  nnodes := rfl
  clen := rfl
  cval := rfl

theorem aaabTree_huffOk : HuffOk aaabTree where
  tree := ⟨aaab, aaabTree_huffTree⟩
  width := rfl
  maxlen := rfl
  rvalid v := by simp [aaabTree, State.loadHuff]
  rsym v := by simp [aaabTree, State.loadHuff]

theorem oneLeaf_huffTree : HuffTree oneLeaf (.leaf 0 0x61#8) where
  root := rfl
  inArena := ⟨3#32, rfl⟩
  length := rfl
  indices := by decide
  distinct := by decide
  alpha := rfl
  nnodes := rfl
  clen := rfl
  cval := rfl

theorem zFixed_clen (a : Symbol) : Table.at zFixed.clen a = if a = 0x7A#8 then 1#8 else 0#8 := by
  by_cases h : a = 0x7A#8 <;> simp [zFixed, State.loadFixed, clenOf, codeFor, List.lookup, h, beq_eq_false_iff_ne.mpr]

theorem zFixed_cval (a : Symbol) : Table.at zFixed.cval a = if a = 0x7A#8 then 1#255 else 0#255 := by
  by_cases h : a = 0x7A#8 <;>
    simp [zFixed, State.loadFixed, cvalOf, codeFor, List.lookup, bitsToNat, h, beq_eq_false_iff_ne.mpr]

theorem zFixed_reverse (v : BitVec 8) : Table.at zFixed.rvalid v = decide (v = 1#8) ∧
    Table.at zFixed.rsym v = if v = 1#8 then 0x7A#8 else 0#8 := by
  by_cases h : v = 1#8
  · subst h; exact ⟨by decide +kernel, by decide +kernel⟩
  · have h' : ¬ 1 = v.toNat := fun e => h (BitVec.eq_of_toNat_eq e.symm)
    simp [zFixed, State.loadFixed, symbolOfCode, bitsToNat, h, h']

theorem zFixed_coded : zFixed.coded = [0x7A#8] := by
  have : zFixed.coded = allSymbols.filter fun a => decide (a = 0x7A#8) := by
    apply List.filter_congr
    intro a _
    rw [zFixed_clen]
    by_cases h : a = 0x7A#8 <;> simp [h]
  rw [this]
  decide +kernel

theorem zFixed_fixedOk : FixedOk zFixed where
  alpha_pos := by decide +kernel
  alpha_le := by decide +kernel
  width_eq := by decide +kernel
  maxlen_eq := by decide +kernel
  root := rfl
  nnodes := rfl
  arena := rfl
  count := by rw [zFixed_coded]; rfl
  clen a ha := by
    rw [zFixed_coded, List.mem_singleton] at ha
    subst ha; decide +kernel
  cval_none a ha := by
    rw [zFixed_coded, List.mem_singleton] at ha
    rw [zFixed_cval, if_neg ha]
  cval_lt a ha := by
    rw [zFixed_coded, List.mem_singleton] at ha
    subst ha; decide +kernel
  injective a ha b hb _ := by
    rw [zFixed_coded, List.mem_singleton] at ha hb
    rw [ha, hb]
  reverse v a := by
    rw [zFixed_coded, List.mem_singleton, zFixed_cval, (zFixed_reverse v).1, (zFixed_reverse v).2]
    by_cases hv : v = 1#8 <;> by_cases ha : a = 0x7A#8
    · simp [hv, ha]
    · simp [hv, ha, Ne.symm ha]
    · have : ¬ 1 = v.toNat := fun e => hv (BitVec.eq_of_toNat_eq e.symm)
      simp [hv, ha, this]
    · simp [hv, ha]
  reverse_none v h := by
    have hv := zFixed_reverse v
    rw [hv.2]
    rw [hv.1] at h
    rw [if_neg (of_decide_eq_false h)]

/-- The state with P full to its last bit, in MODE HUFF, meets every invariant. -/
def fullHuff : State := aaabTree.setStream .P { buf := [(65535, 0x01#8)], wbits := 524288, rpos := 524288 }

theorem sumOver_zero : sumOver (fun a => (Table.at (Vector.replicate 256 0#32) a).toNat) = 0 := by
  decide +kernel

theorem thisHardware_legal : Config.thisHardware.Legal := ⟨by decide, by decide, by decide, by decide⟩

theorem fullHuff_inv : Inv fullHuff where
  legal := thisHardware_legal
  total := by
    show (0#32).toNat = sumOver _
    exact sumOver_zero.symm
  wsum := by unfold WsumOk; decide
  payload := ⟨by decide, by decide, by decide, by decide⟩
  metadata := ⟨by decide, by decide, by decide, by decide⟩
  error := ⟨.inl rfl, fun _ => ⟨rfl, rfl⟩⟩
  lock w hw := by cases hw
  table := by
    obtain ⟨⟨t, ht⟩, h2, h3, h4, h5⟩ := aaabTree_huffOk
    obtain ⟨k1, k2, k3, k4, k5, k6, k7, k8, k9⟩ := ht
    exact ⟨⟨t, k1, k2, k3, k4, k5, k6, k7, k8, k9⟩, h2, h3, h4, h5⟩

/-- Each register's greatest reading that the block reaches with a full payload stream: P_WBITS is 524288. -/
theorem witness_RegistersReadZeroAboveTheirUsedBits :
    Inv fullHuff ∧ (0x64#8).toNat ≥ 0x64 ∧ fullHuff.p.wbits = 8 * fullHuff.config.pcap := ⟨fullHuff_inv, by decide, rfl⟩

theorem witness_ResetMeetsEveryInvariant :
    Config.thisHardware.Legal ∧ ({ pcap := 1, mcap := 513 } : Config.Params).Legal ∧
    ({ pcap := 65536, mcap := 65536 } : Config.Params).Legal :=
  ⟨thisHardware_legal, ⟨by decide, by decide, by decide, by decide⟩, ⟨by decide, by decide, by decide, by decide⟩⟩

theorem witness_StepKeepsEveryInvariant :
    Inv fullHuff ∧ ∃ t, step fullHuff = .next t := ⟨fullHuff_inv, ⟨_, rfl⟩⟩

/-- A state with a next step, and one whose host makes an access that the spec does not define. -/
theorem witness_SafeStatesHaveANextStep :
    Inv fullHuff ∧ (∃ t, step fullHuff = .next t) ∧
    (16 ≠ 32 ∨ (0x04#8).toNat % 4 ≠ 0) ∧ (fullHuff.setHost [.read 16 0x04#8]).host = [.read 16 0x04#8] :=
  ⟨fullHuff_inv, ⟨_, rfl⟩, by decide, rfl⟩

/-! ### Reset, errors and frames -/

/-- A locked block at its power-on; the first and the last reserved offset; an idle block. -/
theorem witness_EveryItemHoldsItsResetValue :
    (lockedBlock 0#32 |>.setHost [.powerOn]).host = [.powerOn] ∧ 0x64 ≤ (0x64#8).toNat ∧ 0x64 ≤ (0xFC#8).toNat ∧
    (lockedBlock 0#32).busy = false := ⟨rfl, by decide, by decide, rfl⟩

/-- An error and a success of commands that both statements speak of. -/
theorem witness_ErrorsArePrecise :
    (Instr.enc 0x61#8 ≠ .sreset ∧ Instr.enc 0x61#8 ≠ .clrErr ∧ ∃ t, exec (.enc 0x61#8) State.reset = .next t ∧ t.errcode ≠ 0#8) ∧
    (∃ t, exec .pClr State.reset = .next t ∧ t.errcode = 0#8) :=
  ⟨⟨by decide, by decide, _, rfl, by decide⟩, ⟨_, rfl, rfl⟩⟩

/-- One error with a cursor in ERRPOS and one without. -/
theorem witness_EachCommandRaisesOnlyItsErrors :
    ((Instr.mGet 1#5).wf = true ∧ (counted .M 9 9).errcode = 0#8 ∧
      ∃ t, exec (.mGet 1#5) (counted .M 9 9) = .next t ∧ t.errcode = 0x0A#8) ∧
    ((Instr.flBuild).wf = true ∧ ∃ t, exec .flBuild State.reset = .next t ∧ t.errcode = 0x06#8) := by
  refine ⟨⟨by decide, rfl, _, rfl, by decide +kernel⟩, ⟨rfl, State.reset.raise (encode .flBuild) .emptyInput 0, ?_, rfl⟩⟩
  have : alphabet State.reset.freq = [] := by decide +kernel
  simp [exec, execFlBuild, this, fail]

theorem witness_UninitializedExactlyWhenTheModeIsMissing :
    (Instr.nodeRd 511#9).wf = true ∧ State.reset.errcode = 0#8 ∧ modeMissing (.nodeRd 511#9) State.reset ∧
    ¬ modeMissing (.nodeRd 511#9) aaabTree ∧ aaabTree.errcode = 0#8 := by
  refine ⟨rfl, rfl, ?_, ?_, rfl⟩
  · simp [modeMissing, State.reset, State.resetOf]
  · simp [modeMissing, aaabTree, State.loadHuff]

/-- The last byte of P and the first address past M; and the two sides of what WR and PUT store to. -/
theorem witness_EveryCommandChangesOnlyWhatItWrites :
    (∃ t, exec (.pWr 65535#16 1#8) State.reset = .next t ∧ t.errcode = 0#8) ∧
    (∃ t, exec (.mWr 1024#16 1#8) State.reset = .next t ∧ t.errcode ≠ 0#8) ∧
    StoresTo (.pWr 65535#16 1#8) State.reset .P 65535 ∧ ¬ StoresTo (.pWr 65535#16 1#8) State.reset .P 65534 ∧
    StoresTo (.mPut 16#5 0#16) (counted .M 7 0) .M 2 ∧ ¬ StoresTo (.mPut 16#5 0#16) (counted .M 7 0) .M 3 := by
  refine ⟨⟨_, rfl, rfl⟩, ⟨_, rfl, by decide⟩, ⟨65535, 65536, rfl, by decide, by decide⟩, ?_, ⟨0, 3, rfl, by decide, by decide⟩, ?_⟩
  · rintro ⟨x, y, h, h1, -⟩
    cases h; exact absurd h1 (by decide)
  · rintro ⟨x, y, h, -, h2⟩
    cases h; exact absurd h2 (by decide)

theorem witness_OnlyValueCommandsWriteResult :
    ∃ t, exec (.codeLen 0x61#8) aaabTree = .next t ∧ Instr.codeLen 0x61#8 ≠ .sreset ∧ t.result ≠ aaabTree.result :=
  ⟨_, rfl, by decide, by decide +kernel⟩

/-! ### The bit streams -/

theorem witness_SetlenDeclaresTheLength :
    ((1024#21).toNat ≤ State.reset.config.cap .M ∧ ¬ ((1024#21).toNat = 0 ∧ (7#3).toNat ≠ 0)) ∧
    ((65536#21).toNat ≤ State.reset.config.cap .P ∧ ¬ ((65536#21).toNat = 0 ∧ (0#3).toNat ≠ 0)) ∧
    ((0#21).toNat ≤ State.reset.config.cap .M ∧ ¬ ((0#21).toNat = 0 ∧ (0#3).toNat ≠ 0)) ∧
    State.reset.config.cap .M < (1025#21).toNat ∧ State.reset.config.cap .P < (65537#21).toNat ∧ ((0#21).toNat = 0 ∧ (1#3).toNat ≠ 0) := by decide

theorem witness_PutAppendsTheGroup :
    (1 ≤ (16#5).toNat ∧ (16#5).toNat ≤ 16 ∧ (0xFFFF#16).toNat < 2 ^ (16#5).toNat) ∧
    (1 ≤ (1#5).toNat ∧ (1#5).toNat ≤ 16 ∧ (1#16).toNat < 2 ^ (1#5).toNat) ∧
    ((counted .M 8176 0).stream .M).wbits + (16#5).toNat ≤ 8 * (counted .M 8176 0).config.cap .M ∧
    8 * (counted .M 8177 0).config.cap .M < ((counted .M 8177 0).stream .M).wbits + (16#5).toNat ∧
    ((counted .P 524287 0).stream .P).wbits + (1#5).toNat ≤ 8 * (counted .P 524287 0).config.cap .P ∧
    8 * (counted .P 524288 0).config.cap .P < ((counted .P 524288 0).stream .P).wbits + (1#5).toNat := by decide

theorem witness_GetConsumesTheNextBits :
    (1 ≤ (16#5).toNat ∧ (16#5).toNat ≤ 16) ∧ (1 ≤ (1#5).toNat ∧ (1#5).toNat ≤ 16) ∧
    (16#5).toNat ≤ ((counted .P 20 4).stream .P).wbits - ((counted .P 20 4).stream .P).rpos ∧
    ((counted .P 20 5).stream .P).wbits - ((counted .P 20 5).stream .P).rpos < (16#5).toNat ∧
    ((counted .M 20 20).stream .M).wbits - ((counted .M 20 20).stream .M).rpos < (1#5).toNat := by decide

theorem witness_IllegalGroupsRaiseIllegalCommand :
    (0#5).toNat = 0 ∧ 16 < (17#5).toNat ∧ 2 ^ (2#5).toNat ≤ (4#16).toNat := by decide

theorem witness_PutThenGetReturnsTheGroup :
    1 ≤ (16#5).toNat ∧ (16#5).toNat ≤ 16 ∧ (0xFFFF#16).toNat < 2 ^ (16#5).toNat ∧
    ((counted .M 8176 8176).stream .M).wbits + (16#5).toNat ≤ 8 * (counted .M 8176 8176).config.cap .M ∧
    ((counted .M 8176 8176).stream .M).rpos = ((counted .M 8176 8176).stream .M).wbits := by decide

theorem witness_WrWritesOneByte :
    (1023#16).toNat < State.reset.config.cap .M ∧ State.reset.config.cap .M ≤ (1024#16).toNat ∧ (65535#16).toNat < State.reset.config.cap .P := by decide

theorem witness_RdReadsOneByte :
    (1023#16).toNat < State.reset.config.cap .M ∧ State.reset.config.cap .M ≤ (1024#16).toNat ∧ (65535#16).toNat < State.reset.config.cap .P ∧
    ∃ t u, exec (wrCmd 1023#16 0xA5#8 .M) State.reset = .next t ∧ t.errcode = 0#8 ∧ State.reset.errcode = 0#8 ∧
      exec (rdCmd 1023#16 .M) t = .next u := ⟨by decide, by decide, by decide, _, _, rfl, rfl, rfl, rfl⟩

theorem witness_StreamCommandsTouchOneStream :
    [clrCmd .M, rewindCmd .M, setlenCmd 0#21 0#3 .M, putCmd 16#5 0#16 .M, getCmd 16#5 .M, wrCmd 0#16 0#8 .M, rdCmd 0#16 .M][4]? =
      some (getCmd 16#5 .M) ∧ (∃ t, exec (getCmd 16#5 .M) (counted .M 16 0) = .next t ∧ t.errcode = 0#8) ∧
    (0x1FFFFFFF#32).extractLsb' 28 4 = 1#4 ∧ (0x1FFFFFFF#32).extractLsb' 24 3 = 7#3 :=
  ⟨rfl, ⟨_, rfl, rfl⟩, by decide, by decide⟩

/-- Two states whose streams are three bits of one byte, with different pad bits. -/
theorem witness_BitsBeyondTheStreamNeverMatter :
    let s := State.reset.setStream .P { buf := [(0, 0xA0#8)], wbits := 3, rpos := 3 };
    let s' := State.reset.setStream .P { buf := [(0, 0xBF#8)], wbits := 3, rpos := 3 };
    (∀ a, Instr.pGet 1#5 ≠ .pRd a) ∧ (∀ a, Instr.pGet 1#5 ≠ .mRd a) ∧ s.p.rpos ≤ s.p.wbits ∧
    (∀ q, (∀ S, q ≠ .bytes S) → Unchanged q s s') ∧ (∀ S k, k < (s.stream S).wbits → s'.bit S k = s.bit S k) ∧
    (∃ t, exec (.pGet 1#5) s = .next t) ∧ s.p.buf ≠ s'.p.buf := by
  refine ⟨by simp, by simp, by decide, ?_, ?_, ⟨_, rfl⟩, by decide⟩
  · intro q hq
    cases q with
    | bytes S => exact absurd rfl (hq S)
    | wbits S => cases S <;> rfl
    | rpos S => cases S <;> rfl
    | _ => simp [Unchanged, State.setStream]
  · intro S k hk
    cases S with
    | P =>
      have hk' : k < 3 := hk
      interval_cases k <;> rfl
    | M => exact absurd hk (Nat.not_lt_zero k)

/-! ### The profiler -/

theorem sumOver_const_zero : sumOver (fun _ => 0) = 0 := by decide +kernel

/-- One symbol counted k times. -/
theorem counting_one_totalOk (a : Symbol) (k : Word) : TotalOk (counting [(a, k)] State.reset) := by
  have h : sumOver (fun b => (Table.at (counting [(a, k)] State.reset).freq b).toNat) =
      sumOver (fun _ => 0) + k.toNat := by
    apply sumOver_update (a := a)
    intro b
    by_cases hb : b = a <;> simp [counting, List.lookup, hb, beq_eq_false_iff_ne.mpr]
  show (counting [(a, k)] State.reset).total.toNat = _
  rw [h, sumOver_const_zero]
  simp [counting]

theorem witness_ProfAddCountsK :
    TotalOk (counting [(0x00#8, 0xFFFF0000#32)] State.reset) ∧
    (counting [(0x00#8, 0xFFFF0000#32)] State.reset).total.toNat + (0xFFFF#16).toNat ≤ 2 ^ 32 - 1 ∧
    TotalOk (counting [(0x00#8, 0xFFFF0001#32)] State.reset) ∧
    2 ^ 32 - 1 < (counting [(0x00#8, 0xFFFF0001#32)] State.reset).total.toNat + (0xFFFF#16).toNat :=
  ⟨counting_one_totalOk _ _, by decide, counting_one_totalOk _ _, by decide⟩

theorem witness_TotalIsAlwaysTheSum :
    TotalOk (counting [(0x00#8, 0xFFFFFFFF#32)] State.reset) ∧
    ∃ t, step (counting [(0x00#8, 0xFFFFFFFF#32)] State.reset) = .next t := ⟨counting_one_totalOk _ _, ⟨_, rfl⟩⟩

/-! ### The fixed-length codec -/

theorem witness_WidthIsTheCeilingOfLog2 : (2 ≤ 2 ∧ 1 ≤ 256 ∧ 256 ≤ 256 ∧ codeWidth 256 = 8) := by decide +kernel

theorem witness_RanksNumberTheAlphabet :
    0x61#8 ∈ alphabet (counting abraCounts State.reset).freq ∧ 0x72#8 ∈ alphabet (counting abraCounts State.reset).freq ∧
    4 < (alphabet (counting abraCounts State.reset).freq).length := by decide +kernel

theorem witness_FlBuildAssignsTheRanks :
    (∃ a, Table.at (counting abraCounts State.reset).freq a ≠ 0#32) ∧ (∀ a, Table.at State.reset.freq a = 0#32) :=
  ⟨⟨0x61#8, by decide +kernel⟩, fun a => by simp [State.reset, State.resetOf]⟩

theorem zFixed_bits (bits : List Bool) : BitsAt (zFixed.append .P bits) .P 0 bits := by
  intro j h
  have := BitStream.bit_append_new (zFixed.blank .P) zFixed.p bits j h
  rwa [show zFixed.p.wbits = 0 from rfl] at this

/-- Each clause of FL_DEC: no bit left, too few bits, a group of exactly the bits left, known and unknown. -/
theorem witness_FlDecDecodesOneGroup :
    State.reset.mode ≠ .fixed ∧
    (zFixed.mode = .fixed ∧ zFixed.p.rpos = zFixed.p.wbits) ∧
    (let s := abraFixed.append .P [true, false];
      s.mode = .fixed ∧ s.p.rpos < s.p.wbits ∧ s.p.wbits - s.p.rpos < s.width.toNat) ∧
    (let s := zFixed.append .P [true];
      s.mode = .fixed ∧ s.p.rpos < s.p.wbits ∧ s.width.toNat ≤ s.p.wbits - s.p.rpos ∧ (1#8).toNat < 2 ^ s.width.toNat ∧
        BitsAt s .P s.p.rpos (natToBits s.width.toNat (1#8).toNat) ∧ Table.at s.rvalid 1#8 = true) ∧
    (let s := zFixed.append .P [false];
      s.mode = .fixed ∧ s.p.rpos < s.p.wbits ∧ s.width.toNat ≤ s.p.wbits - s.p.rpos ∧ (0#8).toNat < 2 ^ s.width.toNat ∧
        BitsAt s .P s.p.rpos (natToBits s.width.toNat (0#8).toNat) ∧ Table.at s.rvalid 0#8 = false) := by
  refine ⟨by decide, ⟨rfl, rfl⟩, by decide +kernel, ⟨rfl, ?_, ?_, ?_, zFixed_bits [true], ?_⟩,
    ⟨rfl, ?_, ?_, ?_, zFixed_bits [false], ?_⟩⟩
  all_goals decide +kernel

theorem witness_FlMwriteSerializesTheTable : State.reset.mode ≠ .fixed ∧ zFixed.mode = .fixed ∧ FixedOk zFixed :=
  ⟨by decide, rfl, zFixed_fixedOk⟩

theorem witness_FlMreadRestoresTheWrittenTable : zFixed.mode = .fixed ∧ FixedOk zFixed := ⟨rfl, zFixed_fixedOk⟩

theorem witness_EncThenFlDecReturnsTheSymbol :
    let s := zFixed.setStream .P { buf := [], wbits := 524287, rpos := 524287 }
    s.mode = .fixed ∧ FixedOk s ∧ Table.at s.clen 0x7A#8 ≠ 0#8 ∧ s.p.rpos = s.p.wbits ∧
      s.p.wbits + s.width.toNat ≤ 8 * s.config.pcap := by
  refine ⟨rfl, ?_, by decide +kernel, rfl, by decide⟩
  obtain ⟨h1, h2, h3, h4, h5, h6, h7, h8, h9, h10, h11, h12, h13, h14⟩ := zFixed_fixedOk
  exact ⟨h1, h2, h3, h4, h5, h6, h7, h8, h9, h10, h11, h12, h13, h14⟩

/-- A metadata stream that holds exactly these bits. -/
def metadata (bits : List Bool) : State := State.reset.append .M bits

theorem metadata_bits (bits : List Bool) : BitsAt (metadata bits) .M 0 bits := by
  intro j h
  exact BitStream.bit_append_new (State.reset.blank .M) State.reset.m bits j h

theorem metadata_length (bits : List Bool) : (metadata bits).m.wbits = bits.length := by
  simp [metadata, State.append, State.setStream, State.stream, State.reset, State.resetOf, BitStream.reset]

/-- The least blob, one entry of one bit, and a blob of three entries; and a stream that holds no blob. -/
theorem witness_FlMreadLoadsExactlyTheLegalBlobs :
    HoldsFixedBlob (metadata (fixedBlob 1 [(0x7A#8, 1)])) 1 [(0x7A#8, 1)] ∧
    HoldsFixedBlob (metadata (fixedBlob 2 [(0x61#8, 3), (0x62#8, 0), (0x63#8, 1)])) 2 [(0x61#8, 3), (0x62#8, 0), (0x63#8, 1)] ∧
    ¬ ∃ w entries, HoldsFixedBlob State.reset w entries := by
  refine ⟨⟨?_, ?_, ?_, ?_, ?_, ?_, ?_, metadata_length _, metadata_bits _⟩,
    ⟨?_, ?_, ?_, ?_, ?_, ?_, ?_, metadata_length _, metadata_bits _⟩, ?_⟩
  all_goals try decide +kernel
  rintro ⟨w, entries, h⟩
  have := h.length
  simp [fixedBlob, State.reset, State.resetOf, BitStream.reset] at this
  generalize entries.length * (8 + w) = k at this
  omega

/-! ### The Huffman codec -/

theorem witness_HufBuild :
    (∃ a, Table.at (counting abraCounts State.reset).freq a ≠ 0#32) ∧ (∀ a, Table.at State.reset.freq a = 0#32) :=
  witness_FlBuildAssignsTheRanks

/-- HUF_BUILD of "aaab" makes one internal node: k = 2 meets both bounds. -/
theorem witness_HufBuildMergesTheTwoLeastKeys :
    let s := counting [(0x61#8, 3#32), (0x62#8, 1#32)] State.reset
    (∃ a, Table.at s.freq a ≠ 0#32) ∧
      after (exec .hufBuild s) (fun t => decide ((alphabet s.freq).length ≤ 2 ∧ 2 < t.nnodes.toNat)) = true :=
  ⟨⟨0x61#8, by decide +kernel⟩, by decide +kernel⟩

theorem witness_RootWeightIsTotal :
    let s := counting [(0x61#8, 0xFFFFFFFF#32)] State.reset
    TotalOk s ∧ (∃ a, Table.at s.freq a ≠ 0#32) ∧ after (exec .hufBuild s) (fun t => decide (t.errcode = 0#8)) = true :=
  ⟨counting_one_totalOk _ _, ⟨0x61#8, by decide +kernel⟩, by decide +kernel⟩

theorem append_p_huffTree {s : State} {t : Tree} (bits : List Bool) (h : HuffTree s t) : HuffTree (s.append .P bits) t := by
  obtain ⟨h1, h2, h3, h4, h5, h6, h7, h8, h9⟩ := h
  exact ⟨h1, h2, h3, h4, h5, h6, h7, h8, h9⟩

/-- Each clause of HUF_DEC: no bit left; the last bit of the stream a code; a one-leaf tree and a 1 bit, no code. -/
theorem witness_HufDecDecodesOneCode :
    State.reset.mode ≠ .huff ∧
    (aaabTree.mode = .huff ∧ aaabTree.p.rpos = aaabTree.p.wbits) ∧
    (let s := aaabTree.append .P [true];
      s.mode = .huff ∧ HuffTree s aaab ∧ s.p.rpos < s.p.wbits ∧ (0x61#8, [true]) ∈ aaab.codes ∧
        s.p.rpos + [true].length ≤ s.p.wbits ∧ s.bit .P s.p.rpos = true) ∧
    (let s := oneLeaf.append .P [true];
      s.mode = .huff ∧ HuffTree s (.leaf 0 0x61#8) ∧ s.p.rpos < s.p.wbits ∧
        (Tree.leaf 0 0x61#8).codes = [(0x61#8, [false])] ∧ s.bit .P s.p.rpos = true) := by
  refine ⟨by decide, ⟨rfl, rfl⟩, ⟨rfl, append_p_huffTree _ aaabTree_huffTree, ?_, ?_, ?_, ?_⟩,
    ⟨rfl, append_p_huffTree _ oneLeaf_huffTree, ?_, rfl, ?_⟩⟩
  all_goals decide +kernel

theorem witness_EncThenHufDecReturnsTheSymbol :
    let s := aaabTree.setStream .P { buf := [], wbits := 524287, rpos := 524287 }
    s.mode = .huff ∧ HuffOk s ∧ Table.at s.clen 0x61#8 ≠ 0#8 ∧ s.p.rpos = s.p.wbits ∧
      s.p.wbits + (Table.at s.clen 0x61#8).toNat ≤ 8 * s.config.pcap := by
  obtain ⟨⟨t, ht⟩, h2, h3, h4, h5⟩ := aaabTree_huffOk
  obtain ⟨k1, k2, k3, k4, k5, k6, k7, k8, k9⟩ := ht
  exact ⟨rfl, ⟨⟨t, k1, k2, k3, k4, k5, k6, k7, k8, k9⟩, h2, h3, h4, h5⟩, by decide +kernel, rfl, by decide +kernel⟩

theorem witness_HufMwriteSerializesTheTree :
    State.reset.mode ≠ .huff ∧ aaabTree.mode = .huff ∧ HuffTree aaabTree aaab ∧
    oneLeaf.mode = .huff ∧ HuffTree oneLeaf (.leaf 0 0x61#8) := ⟨by decide, rfl, aaabTree_huffTree, rfl, oneLeaf_huffTree⟩

/-- The least blob, one leaf, and the blob of "aaab"; and a stream that holds no blob. -/
theorem witness_HufMreadLoadsExactlyTheSerializedTrees :
    HoldsHuffBlob (metadata (Tree.blob (.leaf 0 0x7A#8))) (.leaf 0 0x7A#8) ∧ HoldsHuffBlob (metadata aaab.blob) aaab ∧
    ¬ ∃ tree, HoldsHuffBlob State.reset tree := by
  refine ⟨⟨by decide, metadata_length _, metadata_bits _⟩, ⟨by decide, metadata_length _, metadata_bits _⟩, ?_⟩
  rintro ⟨tree, h⟩
  have := h.length
  cases tree <;> simp [Tree.blob, State.reset, State.resetOf, BitStream.reset] at this

theorem witness_HufMreadRestoresTheWrittenCodes : aaabTree.mode = .huff ∧ HuffOk aaabTree := ⟨rfl, aaabTree_huffOk⟩

/-- The last index in use, the first that is not, and the wrong mode; a leaf and an internal node. -/
theorem witness_NodeReadsReturnTheArenaEntry :
    State.reset.mode ≠ .huff ∧ aaabTree.mode = .huff ∧ aaabTree.nnodes.toNat ≤ (3#9).toNat ∧
    (2#9).toNat < aaabTree.nnodes.toNat ∧ aaabTree.node 2 = .internal 4#32 1#9 0#9 ∧ aaabTree.node 0 = .leaf 0x61#8 3#32 :=
  ⟨by decide, rfl, by decide, by decide, rfl, rfl⟩

theorem witness_HuffmanCodesArePrefixFree :
    aaabTree.mode = .huff ∧ HuffOk aaabTree ∧ Table.at aaabTree.clen 0x61#8 ≠ 0#8 ∧ Table.at aaabTree.clen 0x62#8 ≠ 0#8 ∧
    0x61#8 ≠ 0x62#8 := ⟨rfl, aaabTree_huffOk, by decide +kernel, by decide +kernel, by decide⟩

/-! ### Code lookup and encode -/

/-- Each clause of ENC: no table, no code, a code that ends at the last bit of P, a code one bit too long. -/
theorem witness_EncAppendsTheCode :
    State.reset.mode = .none ∧ (zFixed.mode ≠ .none ∧ Table.at zFixed.clen 0x61#8 = 0#8) ∧
    (Table.at zFixed.clen 0x7A#8 ≠ 0#8 ∧
      8 * zFixed.config.pcap < (zFixed.setStream .P { buf := [], wbits := 524288, rpos := 0 }).p.wbits + (Table.at zFixed.clen 0x7A#8).toNat) ∧
    (zFixed.setStream .P { buf := [], wbits := 524287, rpos := 0 }).p.wbits + (Table.at zFixed.clen 0x7A#8).toNat ≤ 8 * zFixed.config.pcap := by
  decide +kernel

/-- The chunks of one code value. -/
theorem witness_CodeReadsReturnTheCode :
    ∃ chunk : Nat → State, ∀ c : BitVec 3, exec (.codeRd 0x61#8 c) aaabTree = .next (chunk c.toNat) :=
  ⟨fun c => aaabTree.setResult (codeChunk (Table.at aaabTree.cval 0x61#8) (BitVec.ofNat 3 c)), fun c => by
    simp [exec, execCodeRd]⟩

theorem witness_WsumCalcSumsTheWeightedLengths :
    State.reset.mode = .none ∧ (counting [(0xFF#8, 0xFFFFFFFF#32)] { State.reset with mode := .huff }).mode ≠ .none ∧
    TotalOk (counting [(0xFF#8, 0xFFFFFFFF#32)] { State.reset with mode := .huff }) :=
  ⟨rfl, by simp [counting], counting_one_totalOk 0xFF#8 0xFFFFFFFF#32⟩

end Sys2Proof.Tests
end

section
/-!
PROOF. The width function of the fixed-length codec (00_scope.md R9): its bounds as powers of two, and the values of R9's
table.
-/
namespace Sys2Proof.Machine

theorem codeWidth_of_le_one {n : Nat} (h : n ≤ 1) : codeWidth n = 1 := if_pos h

theorem codeWidth_of_two_le {n : Nat} (h : 2 ≤ n) : codeWidth n = Nat.log2 (n - 1) + 1 :=
  if_neg (by omega)

/-- The lower half of "width(n) is the least w with n at most 2^w" (R9); `lt_two_pow_codeWidth` is the upper half. -/
theorem two_pow_codeWidth_pred_lt {n : Nat} (h : 2 ≤ n) : 2 ^ (codeWidth n - 1) < n := by
  have hlog : 2 ^ Nat.log2 (n - 1) ≤ n - 1 := Nat.log2_self_le (by omega)
  rw [codeWidth_of_two_le h, Nat.add_sub_cancel]
  omega

theorem pred_lt_two_pow_codeWidth {n : Nat} (h : 2 ≤ n) : n - 1 < 2 ^ codeWidth n := by
  have := lt_two_pow_codeWidth n
  omega

theorem testBit_pred_codeWidth_pred {n : Nat} (h : 2 ≤ n) : (n - 1).testBit (codeWidth n - 1) = true := by
  rw [codeWidth_of_two_le h, Nat.add_sub_cancel]
  exact Nat.testBit_log2 (by omega)

/-- A width w is enough for n symbols exactly when width(n) is at most w (for w ≥ 1, as one symbol still takes one bit). -/
theorem codeWidth_le_iff {n w : Nat} (hw : 1 ≤ w) : codeWidth n ≤ w ↔ n ≤ 2 ^ w := by
  constructor
  · intro h
    exact (lt_two_pow_codeWidth n).trans (Nat.pow_le_pow_right (by decide) h)
  · intro h
    rcases Nat.lt_or_ge n 2 with hn | hn
    · rw [codeWidth_of_le_one (by omega)]
      exact hw
    · have hlt : 2 ^ (codeWidth n - 1) < 2 ^ w := (two_pow_codeWidth_pred_lt hn).trans_le h
      have := (Nat.pow_lt_pow_iff_right (by decide)).mp hlt
      omega

/-- Settles O37: the bounds are the lemmas above, the width of at most 256 = 2^8 symbols is at most 8, and R9's table is
evaluated. -/
theorem widthIsTheCeilingOfLog2 : Obligations.WidthIsTheCeilingOfLog2 := by
  unfold Obligations.WidthIsTheCeilingOfLog2
  refine ⟨codeWidth_one, ?least, ?bits, ?range, ?table⟩
  case least => exact fun n h _ => ⟨lt_two_pow_codeWidth n, two_pow_codeWidth_pred_lt h⟩
  case bits => exact fun n h _ => ⟨testBit_pred_codeWidth_pred h, pred_lt_two_pow_codeWidth h⟩
  case range => exact fun n _ h => ⟨codeWidth_pos n, (codeWidth_le_iff (by decide)).mpr h⟩
  case table => decide

end Sys2Proof.Machine
end

section
/-!
PROOF. Host accesses that 20_memory.md R71 leaves undefined.
-/
namespace Sys2Proof.Machine

theorem accessDefined_eq_false {bits : Nat} {offset : BitVec 8} (h : bits ≠ 32 ∨ offset.toNat % 4 ≠ 0) :
    accessDefined bits offset = false :=
  decide_eq_false fun ⟨hbits, hoffset⟩ => h.elim (absurd hbits) (absurd hoffset)

theorem hostWrite_undefined {bits : Nat} {offset : BitVec 8} (h : accessDefined bits offset = false) (x : Word) (s : State) :
    hostWrite bits offset x s = .refused .undefinedHostAccess := if_pos h

theorem hostRead_undefined {bits : Nat} {offset : BitVec 8} (h : accessDefined bits offset = false) (s : State) :
    hostRead bits offset s = .refused .undefinedHostAccess := if_pos h

/-- Settles O12: the step hands the event to the host port, which refuses it before it looks at the state. -/
theorem undefinedHostAccessIsRefused : Obligations.UndefinedHostAccessIsRefused := by
  unfold Obligations.UndefinedHostAccessIsRefused
  intro s bits offset x rest h
  have hundefined := accessDefined_eq_false h
  constructor
  · intro hwrite
    rw [step_host hwrite (by simp)]
    exact hostWrite_undefined hundefined x _
  · intro hread
    rw [step_host hread (by simp)]
    exact hostRead_undefined hundefined _

end Sys2Proof.Machine
end

section
/-!
PROOF. Noninterference of the stream bits at or above WBITS (20_memory.md R86). Two states that differ in buffer contents alone
are a state `s` and `s.withBuffers pbuf mbuf`, so that every other field of the two is the same by computation. Each operation
reads stream bits below WBITS only, and so gives the two states the same answer up to buffer contents (`SameAnswer`).
-/
namespace Sys2Proof.Machine

/-! ## States that differ in buffer contents alone -/

/-- The state with the contents of both buffers replaced. -/
def State.withBuffers (s : State) (pbuf mbuf : Memory) : State :=
  { s with p := { s.p with buf := pbuf }, m := { s.m with buf := mbuf } }

theorem unchanged_withBuffers (s : State) (pbuf mbuf : Memory) {q : Part} (hq : ∀ S, q ≠ .bytes S) :
    Unchanged q s (s.withBuffers pbuf mbuf) := by
  cases q with
  | bytes S => exact absurd rfl (hq S)
  | wbits S => cases S <;> rfl
  | rpos S => cases S <;> rfl
  | _ => simp [Unchanged, State.withBuffers]

theorem eq_withBuffers_of_unchanged {s t : State} (h : ∀ q, (∀ S, q ≠ .bytes S) → Unchanged q s t) :
    t = s.withBuffers t.p.buf t.m.buf := by
  obtain ⟨herrcode, herrcmd, herrpos⟩ := h .error (by simp)
  obtain ⟨hmode, halpha, hwidth, hroot, hnnodes, hmaxlen, hclen, hcval, hrvalid, hrsym, harena⟩ := h .table (by simp)
  obtain ⟨hfreq, htotal⟩ := h .profile (by simp)
  obtain ⟨hhost, hreads, hdraws, hpowerOns⟩ := h .environment (by simp)
  have hp : t.p = { s.p with buf := t.p.buf } :=
    (BitStream.mk.injEq ..).mpr ⟨rfl, h (.wbits .P) (by simp), h (.rpos .P) (by simp)⟩
  have hm : t.m = { s.m with buf := t.m.buf } :=
    (BitStream.mk.injEq ..).mpr ⟨rfl, h (.wbits .M) (by simp), h (.rpos .M) (by simp)⟩
  exact (State.mk.injEq ..).mpr ⟨h .config (by simp), h .latch (by simp), h .ovr (by simp), hmode, h .result (by simp),
    herrcode, herrcmd, herrpos, halpha, hwidth, hroot, hnnodes, hmaxlen, hfreq, htotal, hclen, hcval, hrvalid, hrsym, harena,
    h .wsum (by simp), hp, hm, hhost, hreads, hdraws, hpowerOns⟩

/-! ## Answers that differ in buffer contents alone -/

/-- Two outcomes of a command are the same but for the contents of the buffers in the next state. A command refuses nothing, so
a refusal has no case. -/
inductive SameAnswer : Result → Result → Prop where
  | next (t : State) (pbuf mbuf : Memory) : SameAnswer (.next t) (.next (t.withBuffers pbuf mbuf))
  | fault (f : Fault) : SameAnswer (.fault f) (.fault f)

theorem SameAnswer.ite_of_not {c : Prop} [Decidable c] {r₁ r₂ r₁' r₂' : Result} (h₁ : SameAnswer r₁ r₁')
    (h₂ : ¬ c → SameAnswer r₂ r₂') : SameAnswer (if c then r₁ else r₂) (if c then r₁' else r₂') := by
  by_cases hc : c
  · rwa [if_pos hc, if_pos hc]
  · rw [if_neg hc, if_neg hc]
    exact h₂ hc

theorem SameAnswer.ite {c : Prop} [Decidable c] {r₁ r₂ r₁' r₂' : Result} (h₁ : SameAnswer r₁ r₁') (h₂ : SameAnswer r₂ r₂') :
    SameAnswer (if c then r₁ else r₂) (if c then r₁' else r₂') := .ite_of_not h₁ fun _ => h₂

theorem SameAnswer.exists_unchanged {r : Result} {t : State} (h : SameAnswer (.next t) r) :
    ∃ t', r = .next t' ∧ ∀ q, (∀ S, q ≠ .bytes S) → Unchanged q t t' := by
  cases h with
  | next _ pbuf mbuf => exact ⟨_, rfl, fun _ hq => unchanged_withBuffers t pbuf mbuf hq⟩

theorem SameAnswer.fail {i : Instr} {e : ErrCode} {pos : Nat} {s : State} {pbuf mbuf : Memory} :
    SameAnswer (fail i e pos s) (fail i e pos (s.withBuffers pbuf mbuf)) := .next _ pbuf mbuf

section Operations

variable (s : State) (pbuf mbuf : Memory) (S : StreamId) (i : Instr)

@[simp] theorem stream_withBuffers_wbits : ((s.withBuffers pbuf mbuf).stream S).wbits = (s.stream S).wbits := by
  cases S <;> rfl

@[simp] theorem stream_withBuffers_rpos : ((s.withBuffers pbuf mbuf).stream S).rpos = (s.stream S).rpos := by
  cases S <;> rfl

theorem overflows_withBuffers (n : Nat) : (s.withBuffers pbuf mbuf).overflows S n = s.overflows S n := by
  unfold State.overflows
  rw [stream_withBuffers_wbits]
  rfl

/-- A stream replaced in both states, by streams of the same counts. -/
theorem setStream_sameAnswer {st st' : BitStream} (hwbits : st'.wbits = st.wbits) (hrpos : st'.rpos = st.rpos) :
    SameAnswer (.next (s.setStream S st)) (.next ((s.withBuffers pbuf mbuf).setStream S st')) := by
  obtain ⟨buf, wbits, rpos⟩ := st'
  cases hwbits
  cases hrpos
  cases S with
  | P => exact .next (s.setStream .P st) buf mbuf
  | M => exact .next (s.setStream .M st) pbuf buf

theorem setRpos_sameAnswer (k : Nat) :
    SameAnswer (.next (s.setRpos S k)) (.next ((s.withBuffers pbuf mbuf).setRpos S k)) :=
  setStream_sameAnswer s pbuf mbuf S (by simp) rfl

theorem append_sameAnswer (bits : List Bool) :
    SameAnswer (.next (s.append S bits)) (.next ((s.withBuffers pbuf mbuf).append S bits)) :=
  setStream_sameAnswer s pbuf mbuf S (by simp) (by simp)

/-! ## The commands that read no stream bit -/

theorem setlenStream_sameAnswer (b : BitVec 21) (p : BitVec 3) :
    SameAnswer (setlenStream S i b p s) (setlenStream S i b p (s.withBuffers pbuf mbuf)) :=
  .ite .fail (.ite .fail (setStream_sameAnswer s pbuf mbuf S rfl rfl))

theorem putStream_sameAnswer (n : BitVec 5) (v : BitVec 16) :
    SameAnswer (putStream S i n v s) (putStream S i n v (s.withBuffers pbuf mbuf)) := by
  unfold putStream
  rw [overflows_withBuffers]
  exact .ite .fail (.ite .fail (append_sameAnswer s pbuf mbuf S _))

theorem wrStream_sameAnswer (a : BitVec 16) (d : Byte) :
    SameAnswer (wrStream S i a d s) (wrStream S i a d (s.withBuffers pbuf mbuf)) :=
  .ite .fail (setStream_sameAnswer s pbuf mbuf S (by simp) (by simp))

theorem execProfAdd_sameAnswer (a : Symbol) (k : BitVec 16) :
    SameAnswer (execProfAdd a k s) (execProfAdd a k (s.withBuffers pbuf mbuf)) :=
  .ite .fail (.next _ pbuf mbuf)

theorem execFlBuild_sameAnswer : SameAnswer (execFlBuild s) (execFlBuild (s.withBuffers pbuf mbuf)) :=
  .ite .fail (.next _ pbuf mbuf)

theorem execFlMwrite_sameAnswer : SameAnswer (execFlMwrite s) (execFlMwrite (s.withBuffers pbuf mbuf)) :=
  .ite .fail (append_sameAnswer (s.clearStream .M) pbuf mbuf .M s.fixedMetadata)

theorem execHufBuild_sameAnswer : SameAnswer (execHufBuild s) (execHufBuild (s.withBuffers pbuf mbuf)) :=
  .ite .fail (.next _ pbuf mbuf)

theorem serializeTree_withBuffers (n : Nat) :
    serializeTree (s.withBuffers pbuf mbuf).node n (s.withBuffers pbuf mbuf).root.toNat =
      serializeTree s.node n s.root.toNat := rfl

theorem execHufMwrite_sameAnswer : SameAnswer (execHufMwrite s) (execHufMwrite (s.withBuffers pbuf mbuf)) := by
  refine .ite .fail ?_
  rw [serializeTree_withBuffers]
  cases serializeTree s.node Config.nnodeMax s.root.toNat with
  | none => exact .fault .arenaNotATree
  | some bits => exact .ite (.fault .arenaNotATree) (append_sameAnswer (s.clearStream .M) pbuf mbuf .M bits)

theorem execNodeRd_sameAnswer (j : BitVec 9) : SameAnswer (execNodeRd j s) (execNodeRd j (s.withBuffers pbuf mbuf)) :=
  .ite .fail (.ite .fail (.next _ pbuf mbuf))

theorem execNodeWt_sameAnswer (j : BitVec 9) : SameAnswer (execNodeWt j s) (execNodeWt j (s.withBuffers pbuf mbuf)) :=
  .ite .fail (.ite .fail (.next _ pbuf mbuf))

theorem execEnc_sameAnswer (a : Symbol) : SameAnswer (execEnc a s) (execEnc a (s.withBuffers pbuf mbuf)) :=
  .ite .fail (.ite .fail (.ite .fail (append_sameAnswer s pbuf mbuf .P (s.codeBits a))))

theorem execWsumCalc_sameAnswer : SameAnswer (execWsumCalc s) (execWsumCalc (s.withBuffers pbuf mbuf)) :=
  .ite .fail (.next _ pbuf mbuf)

end Operations

/-! ## Reading below WBITS -/

/-- The walk from `pos` looks at no more than the `left` bits from there on. -/
theorem walkTree_congr {node : Nat → Node} {bit bit' : Nat → Bool} {left pos : Nat} (i : Nat)
    (h : ∀ k, pos ≤ k → k < pos + left → bit' k = bit k) : walkTree node bit' left pos i = walkTree node bit left pos i := by
  induction left generalizing pos i with
  | zero => rw [walkTree, walkTree]
  | succ left ih =>
    rw [walkTree, walkTree]
    cases node i with
    | leaf a w => rfl
    | internal w l r =>
      have hhead : bit' pos = bit pos := h pos le_rfl (by omega)
      simp only [hhead]
      exact ih _ fun k hle hlt => h k (by omega) (by omega)

/-- Parse() looks at no bit at or above WBITS: it stops at WBITS, and takes a leaf's ordinal only when 8 bits remain. -/
theorem parseTree_congr {bit bit' : Nat → Bool} {wbits : Nat} (h : ∀ k, k < wbits → bit' k = bit k)
    (n pos k internals : Nat) (seen : List Symbol) :
    parseTree bit' wbits n pos k internals seen = parseTree bit wbits n pos k internals seen := by
  induction n generalizing pos k internals seen with
  | zero => rfl
  | succ n ih =>
    rw [parseTree, parseTree]
    by_cases hend : wbits ≤ pos
    · rw [if_pos hend, if_pos hend]
    · rw [if_neg hend, if_neg hend, h pos (by omega)]
      by_cases hleaf : wbits - (pos + 1) < 8
      · simp only [hleaf, ih, if_true]
      · have hsymbol : (List.range 8).map (fun j => bit' (pos + 1 + j)) = (List.range 8).map fun j => bit (pos + 1 + j) :=
          List.map_congr_left fun j hj => h _ (by have := List.mem_range.mp hj; omega)
        simp only [hsymbol, ih]

theorem groupWidthOk_bounds {n : BitVec 5} (h : groupWidthOk n = true) : 1 ≤ n.toNat ∧ n.toNat ≤ Config.gmax :=
  of_decide_eq_true h

section Reads

variable {s : State} {pbuf mbuf : Memory}
  (hbits : ∀ S k, k < (s.stream S).wbits → (s.withBuffers pbuf mbuf).bit S k = s.bit S k)
include hbits

theorem bits_withBuffers (S : StreamId) {k n : Nat} (h : k + n ≤ (s.stream S).wbits) :
    ((s.withBuffers pbuf mbuf).stream S).bits (s.blank S) k n = (s.stream S).bits (s.blank S) k n :=
  BitStream.bits_congr _ _ _ _ _ fun j hj => hbits S (k + j) (by omega)

theorem number_withBuffers (S : StreamId) {k n : Nat} (h : k + n ≤ (s.stream S).wbits) :
    (s.withBuffers pbuf mbuf).number S k n = s.number S k n :=
  congrArg bitsToNat (bits_withBuffers hbits S h)

/-- GET reads its group after its own check that the group ends at or below WBITS. -/
theorem getStream_sameAnswer (S : StreamId) (i : Instr) (n : BitVec 5) :
    SameAnswer (getStream S i n s) (getStream S i n (s.withBuffers pbuf mbuf)) := by
  unfold getStream
  simp only [stream_withBuffers_wbits, stream_withBuffers_rpos]
  refine .ite_of_not .fail fun hwidth => .ite_of_not .fail fun hfits => ?_
  have hpos : 1 ≤ n.toNat := (groupWidthOk_bounds (Bool.eq_true_of_not_eq_false hwidth)).1
  rw [number_withBuffers hbits S (by omega)]
  exact setRpos_sameAnswer (s.setResult _) pbuf mbuf S _

theorem readFixedEntry_withBuffers {w j : Nat} (hj : j < (s.m.wbits - 8) / (8 + w)) :
    (s.withBuffers pbuf mbuf).readFixedEntry w j = s.readFixedEntry w j := by
  have hend : (j + 1) * (8 + w) ≤ s.m.wbits - 8 := (Nat.le_div_iff_mul_le (by omega)).mp hj
  have hfits : 16 + j * (8 + w) + w ≤ (s.stream .M).wbits := by
    change _ ≤ s.m.wbits
    rw [Nat.succ_mul] at hend
    omega
  have hsymbol := number_withBuffers hbits .M (k := 8 + j * (8 + w)) (n := 8) (by omega)
  have hcode := bits_withBuffers hbits .M (k := 16 + j * (8 + w)) (n := w) (by omega)
  exact Prod.ext (congrArg (BitVec.ofNat 8) hsymbol) hcode

theorem parseFixed_withBuffers : (s.withBuffers pbuf mbuf).parseFixed = s.parseFixed := by
  have hwbits : (s.withBuffers pbuf mbuf).m.wbits = s.m.wbits := rfl
  by_cases hshort : s.m.wbits < 8
  · simp only [State.parseFixed, hwbits, if_pos hshort]
  · have hw := number_withBuffers hbits .M (k := 0) (n := 8) (Nat.le_of_not_lt hshort)
    have hentries (w : Nat) : (List.range ((s.m.wbits - 8) / (8 + w))).map ((s.withBuffers pbuf mbuf).readFixedEntry w) =
        (List.range ((s.m.wbits - 8) / (8 + w))).map (s.readFixedEntry w) :=
      List.map_congr_left fun _ hj => readFixedEntry_withBuffers hbits (List.mem_range.mp hj)
    simp only [State.parseFixed, hwbits, hw, hentries]

theorem execFlMread_sameAnswer : SameAnswer (execFlMread s) (execFlMread (s.withBuffers pbuf mbuf)) := by
  unfold execFlMread
  rw [parseFixed_withBuffers hbits]
  cases s.parseFixed with
  | none => exact .fail
  | some blob => exact setRpos_sameAnswer (s.loadFixed blob.2 blob.1) pbuf mbuf .M _

theorem parseHuff_withBuffers : (s.withBuffers pbuf mbuf).parseHuff = s.parseHuff := by
  have hwbits : (s.withBuffers pbuf mbuf).m.wbits = s.m.wbits := rfl
  have htree : parseTree ((s.withBuffers pbuf mbuf).bit .M) s.m.wbits = parseTree (s.bit .M) s.m.wbits := by
    funext n pos k internals seen
    exact parseTree_congr (hbits .M) n pos k internals seen
  simp only [State.parseHuff, hwbits, htree]

theorem execHufMread_sameAnswer : SameAnswer (execHufMread s) (execHufMread (s.withBuffers pbuf mbuf)) := by
  unfold execHufMread
  rw [parseHuff_withBuffers hbits]
  cases s.parseHuff with
  | none => exact .fail
  | some t => exact setRpos_sameAnswer (s.loadHuff t.nodes 0 _ _) pbuf mbuf .M _

variable (hrpos : s.p.rpos ≤ s.p.wbits)
include hrpos

/-- FL_DEC reads its group after its own check that the group ends at or below WBITS. -/
theorem execFlDec_sameAnswer : SameAnswer (execFlDec s) (execFlDec (s.withBuffers pbuf mbuf)) := by
  refine .ite .fail (.ite (.next _ pbuf mbuf) (.ite_of_not .fail fun hfits => ?_))
  have hend : s.p.rpos + s.width.toNat ≤ s.p.wbits := by omega
  have hgroup : (s.withBuffers pbuf mbuf).number .P (s.withBuffers pbuf mbuf).p.rpos (s.withBuffers pbuf mbuf).width.toNat =
      s.number .P s.p.rpos s.width.toNat := number_withBuffers hbits .P hend
  rw [hgroup]
  exact .ite .fail (setRpos_sameAnswer (s.setResult _) pbuf mbuf .P _)

/-- The decode walk starts below WBITS, and each of its steps has a bit remaining. -/
theorem huffWalk_withBuffers (hne : s.p.rpos ≠ s.p.wbits) : (s.withBuffers pbuf mbuf).huffWalk = s.huffWalk := by
  have hhead : (s.withBuffers pbuf mbuf).bit .P (s.withBuffers pbuf mbuf).p.rpos = s.bit .P s.p.rpos :=
    hbits .P _ (lt_of_le_of_ne hrpos hne)
  have hwalk := walkTree_congr (node := s.node) (left := s.p.wbits - s.p.rpos) s.root.toNat
    fun k (_ : s.p.rpos ≤ k) hk => hbits .P k (show k < s.p.wbits by omega)
  have hroot : (s.withBuffers pbuf mbuf).node (s.withBuffers pbuf mbuf).root.toNat = s.node s.root.toNat := rfl
  unfold State.huffWalk
  rw [hhead, hroot]
  cases s.node s.root.toNat with
  | leaf a w => rfl
  | internal w l r => exact hwalk

theorem execHufDec_sameAnswer : SameAnswer (execHufDec s) (execHufDec (s.withBuffers pbuf mbuf)) := by
  refine .ite .fail (.ite_of_not (.next _ pbuf mbuf) fun hne => ?_)
  rw [huffWalk_withBuffers hbits hrpos hne]
  cases s.huffWalk with
  | none => exact .fail
  | some found => exact setRpos_sameAnswer (s.setResult _) pbuf mbuf .P _

/-! ## Every command -/

/-- R86 for one command: P_RD and M_RD, which read a whole byte at any address, are left out. -/
theorem exec_sameAnswer {i : Instr} (hpRd : ∀ a, i ≠ .pRd a) (hmRd : ∀ a, i ≠ .mRd a) :
    SameAnswer (exec i s) (exec i (s.withBuffers pbuf mbuf)) := by
  cases i with
  | nop => exact .next s pbuf mbuf
  | sreset => exact .next s.softReset pbuf mbuf
  | clrErr => exact .next s.clearError pbuf mbuf
  | pClr => exact setStream_sameAnswer s pbuf mbuf .P rfl rfl
  | mClr => exact setStream_sameAnswer s pbuf mbuf .M rfl rfl
  | pRewind => exact setRpos_sameAnswer s pbuf mbuf .P 0
  | mRewind => exact setRpos_sameAnswer s pbuf mbuf .M 0
  | pSetlen b p => exact setlenStream_sameAnswer s pbuf mbuf .P _ b p
  | mSetlen b p => exact setlenStream_sameAnswer s pbuf mbuf .M _ b p
  | pPut n v => exact putStream_sameAnswer s pbuf mbuf .P _ n v
  | mPut n v => exact putStream_sameAnswer s pbuf mbuf .M _ n v
  | pGet n => exact getStream_sameAnswer hbits .P _ n
  | mGet n => exact getStream_sameAnswer hbits .M _ n
  | pWr a d => exact wrStream_sameAnswer s pbuf mbuf .P _ a d
  | mWr a d => exact wrStream_sameAnswer s pbuf mbuf .M _ a d
  | pRd a => exact absurd rfl (hpRd a)
  | mRd a => exact absurd rfl (hmRd a)
  | profClr => exact .next (s.setProfile _ _) pbuf mbuf
  | profAdd a k => exact execProfAdd_sameAnswer s pbuf mbuf a k
  | freqRd a => exact .next (s.setResult _) pbuf mbuf
  | flBuild => exact execFlBuild_sameAnswer s pbuf mbuf
  | flDec => exact execFlDec_sameAnswer hbits hrpos
  | flMwrite => exact execFlMwrite_sameAnswer s pbuf mbuf
  | flMread => exact execFlMread_sameAnswer hbits
  | hufBuild => exact execHufBuild_sameAnswer s pbuf mbuf
  | hufDec => exact execHufDec_sameAnswer hbits hrpos
  | hufMwrite => exact execHufMwrite_sameAnswer s pbuf mbuf
  | hufMread => exact execHufMread_sameAnswer hbits
  | nodeRd j => exact execNodeRd_sameAnswer s pbuf mbuf j
  | nodeWt j => exact execNodeWt_sameAnswer s pbuf mbuf j
  | enc a => exact execEnc_sameAnswer s pbuf mbuf a
  | codeLen a => exact .next (s.setResult _) pbuf mbuf
  | codeRd a c => exact .next (s.setResult _) pbuf mbuf
  | wsumCalc => exact execWsumCalc_sameAnswer s pbuf mbuf

end Reads

/-- Settles O32: two such states are a state and the same state with other buffers, and then every command answers alike. -/
theorem bitsBeyondTheStreamNeverMatter : Obligations.BitsBeyondTheStreamNeverMatter := by
  unfold Obligations.BitsBeyondTheStreamNeverMatter
  intro i s s' t hpRd hmRd hrpos hsame hbits hexec
  obtain ⟨pbuf, mbuf, rfl⟩ : ∃ pbuf mbuf, s' = s.withBuffers pbuf mbuf := ⟨_, _, eq_withBuffers_of_unchanged hsame⟩
  have hanswer := exec_sameAnswer hbits hrpos hpRd hmRd
  rw [hexec] at hanswer
  exact hanswer.exists_unchanged

end Sys2Proof.Machine
end

section
/-!
PROOF. The ten readers of 30_encoding.md R92 and R94 as one check by format: a reader looks at the bits that its format marks 0,
then at the group's width and value, and builds its command only when all three pass.
-/
namespace Sys2Proof

/-- The bits that a format marks 0 (R92), as fields: the lowest bit of each and its length. -/
def Format.reserved : Format → List (Nat × Nat)
  | .N => [(0, 24)]
  | .S => [(8, 16)]
  | .SC => [(11, 13)]
  | .I => [(9, 15)]
  | .G => [(21, 3)]
  | .Q => [(21, 3), (0, 16)]
  | .AR => [(0, 8)]
  | .SK | .L | .AW => []

abbrev Format.ReservedZero (f : Format) (w : Word) : Prop := ∀ d ∈ f.reserved, w.extractLsb' d.1 d.2 = 0

/-- The checks of a format's reader, in the decoder's order. -/
def Format.check (f : Format) (w : Word) : Except Reject Unit :=
  if ¬ f.ReservedZero w then .error .reservedBits
  else if (f = .G ∨ f = .Q) ∧ groupWidthOk (fieldN w) = false then .error .groupWidth
  else if f = .G ∧ groupValueOk (fieldN w) (fieldV w) = false then .error .groupValue
  else .ok ()

/-! ## The readers -/

section Readers

variable (w : Word)

/-- Formats other than G and Q check their reserved bits alone. -/
theorem Format.map_check {f : Format} (hG : f ≠ .G) (hQ : f ≠ .Q) (i : Instr) :
    ((f.check w).map fun _ => i) = if f.ReservedZero w then .ok i else .error .reservedBits := by
  simp only [check, hG, hQ, false_or, false_and, if_false]
  split_ifs <;> rfl

theorem readN_eq_check (i : Instr) : readN w i = (Format.check .N w).map fun _ => i := by
  simp [Format.map_check, Format.reserved, readN]

theorem readS_eq_check (f : Symbol → Instr) : readS w f = (Format.check .S w).map fun _ => f (fieldS w) := by
  simp [Format.map_check, Format.reserved, readS]

theorem readSK_eq_check (f : Symbol → BitVec 16 → Instr) :
    readSK w f = (Format.check .SK w).map fun _ => f (fieldS w) (fieldK w) := by
  simp [Format.map_check, Format.reserved, readSK]

theorem readSC_eq_check (f : Symbol → BitVec 3 → Instr) :
    readSC w f = (Format.check .SC w).map fun _ => f (fieldS w) (fieldC w) := by
  simp [Format.map_check, Format.reserved, readSC]

theorem readI_eq_check (f : BitVec 9 → Instr) : readI w f = (Format.check .I w).map fun _ => f (fieldI w) := by
  simp [Format.map_check, Format.reserved, readI]

theorem readL_eq_check (f : BitVec 21 → BitVec 3 → Instr) :
    readL w f = (Format.check .L w).map fun _ => f (fieldB w) (fieldP w) := by
  simp [Format.map_check, Format.reserved, readL]

theorem readAW_eq_check (f : BitVec 16 → Byte → Instr) :
    readAW w f = (Format.check .AW w).map fun _ => f (fieldA w) (fieldD w) := by
  simp [Format.map_check, Format.reserved, readAW]

theorem readAR_eq_check (f : BitVec 16 → Instr) : readAR w f = (Format.check .AR w).map fun _ => f (fieldA w) := by
  simp [Format.map_check, Format.reserved, readAR]

theorem readG_eq_check (f : BitVec 5 → BitVec 16 → Instr) :
    readG w f = (Format.check .G w).map fun _ => f (fieldN w) (fieldV w) := by
  have hreserved : Format.ReservedZero .G w ↔ w.extractLsb' 21 3 = 0 := by simp [Format.reserved]
  simp only [Format.check, hreserved, readG, true_or, true_and]
  split_ifs <;> rfl

theorem readQ_eq_check (f : BitVec 5 → Instr) : readQ w f = (Format.check .Q w).map fun _ => f (fieldN w) := by
  have hreserved : Format.ReservedZero .Q w ↔ ¬ (w.extractLsb' 21 3 ≠ 0 ∨ w.extractLsb' 0 16 ≠ 0) := by
    simp [Format.reserved, or_imp, forall_and]
  simp only [Format.check, hreserved, not_not, readQ, or_true, true_and, reduceCtorEq, false_and, if_false]
  split_ifs <;> rfl

end Readers

/-! ## The answers of the check -/

section Answers

variable {f : Format} {w : Word}

theorem Format.check_ne_unassignedOpcode : f.check w ≠ .error .unassignedOpcode := by
  unfold check
  split_ifs <;> simp

theorem Format.check_eq_reservedBits_iff : f.check w = .error .reservedBits ↔ ¬ f.ReservedZero w := by
  unfold check
  split_ifs <;> simp_all

theorem Format.check_eq_groupWidth_iff :
    f.check w = .error .groupWidth ↔ f.ReservedZero w ∧ (f = .G ∨ f = .Q) ∧ groupWidthOk (fieldN w) = false := by
  unfold check
  split_ifs <;> simp_all

theorem Format.check_eq_groupValue_iff :
    f.check w = .error .groupValue ↔
      f.ReservedZero w ∧ f = .G ∧ groupWidthOk (fieldN w) = true ∧ groupValueOk (fieldN w) (fieldV w) = false := by
  unfold check
  split_ifs <;> simp_all

theorem Row.inRange_iff {r : Row} : r.inRange w = true ↔
    (r.format = .G ∨ r.format = .Q → groupWidthOk (fieldN w) = true) ∧
      (r.format = .G → groupValueOk (fieldN w) (fieldV w) = true) := by
  unfold inRange
  cases r.format <;> simp

theorem Row.check_eq_ok_iff {r : Row} : r.format.check w = .ok () ↔ r.format.ReservedZero w ∧ r.inRange w = true := by
  rw [inRange_iff]
  unfold Format.check
  split_ifs <;> simp_all

end Answers

end Sys2Proof
end

section
/-!
PROOF. The decoder and the table of 30_encoding.md R96. A row matches a word exactly when the opcodes agree and the bits that
the row's format marks 0 are 0; a word with a row's opcode is decoded as that row says; any other opcode is unassigned.
-/
namespace Sys2Proof

/-! ## Masks as reserved bits -/

theorem extract_eq_iff (w v : Word) (lo len : Nat) :
    w.extractLsb' lo len = v.extractLsb' lo len ↔ ∀ k, lo ≤ k → k < lo + len → w.getLsbD k = v.getLsbD k := by
  simp only [BitVec.eq_of_getLsbD_eq_iff, BitVec.getLsbD_extractLsb']
  constructor
  · intro h k hlo hk
    simpa [show k - lo < len by omega, Nat.add_sub_cancel' hlo] using h (k - lo) (by omega)
  · intro h j hj
    rw [h (lo + j) (by omega) (by omega)]

/-- Bit k is one that the format marks 0. -/
def Format.reserves (f : Format) (k : Nat) : Bool := f.reserved.any fun d => decide (d.1 ≤ k ∧ k < d.1 + d.2)

theorem Format.reserves_lt {f : Format} {k : Nat} (h : f.reserves k = true) : k < 24 := by
  cases f <;> simp [reserves, reserved] at h <;> omega

theorem Format.reservedZero_iff (f : Format) (w : Word) :
    f.ReservedZero w ↔ ∀ k, f.reserves k = true → w.getLsbD k = false := by
  have hzero (d : Nat × Nat) :
      w.extractLsb' d.1 d.2 = 0 ↔ ∀ k, d.1 ≤ k → k < d.1 + d.2 → w.getLsbD k = false := by
    simpa using extract_eq_iff w 0#32 d.1 d.2
  simp only [ReservedZero, hzero, reserves, List.any_eq_true, decide_eq_true_eq]
  exact ⟨fun h k ⟨d, hd, hlo, hhi⟩ => h d hd k hlo hhi, fun h d hd k hlo hhi => h k ⟨d, hd, hlo, hhi⟩⟩

/-- R96's masks and matches, bit by bit: a mask covers the opcode and the reserved bits, and below the opcode a match is 0. -/
theorem opcodeTable_bits : ∀ r ∈ opcodeTable, ∀ k < 32,
    r.mask.getLsbD k = (decide (24 ≤ k) || r.format.reserves k) ∧ (k < 24 → r.pattern.getLsbD k = false) := by decide

theorem Row.and_mask_eq_iff {r : Row} (hr : r ∈ opcodeTable) (w : Word) :
    w &&& r.mask = r.pattern ↔ opcodeOf w = opcodeOf r.pattern ∧ r.format.ReservedZero w := by
  unfold opcodeOf
  rw [BitVec.eq_of_getLsbD_eq_iff, extract_eq_iff, Format.reservedZero_iff]
  constructor
  · intro h
    refine ⟨fun k hlo hk => ?_, fun k hk => ?_⟩
    · have := h k hk
      simpa [opcodeTable_bits r hr k hk, hlo] using this
    · have hlt := Format.reserves_lt hk
      have := h k (by omega)
      simpa [opcodeTable_bits r hr k (by omega), hk, hlt] using this
  · intro ⟨hop, hzero⟩ k hk
    obtain ⟨hmask, hpattern⟩ := opcodeTable_bits r hr k hk
    rw [BitVec.getLsbD_and, hmask]
    by_cases hlo : 24 ≤ k
    · simp [hlo, hop k hlo hk]
    · simpa [hlo, hpattern (by omega), imp_iff_not_or, or_comm] using hzero k

/-! ## The opcodes of the rows -/

/-- The opcodes that R96 assigns. -/
def assignedOpcodes : List (BitVec 8) := opcodeTable.map fun r => opcodeOf r.pattern

theorem assignedOpcodes_nodup : assignedOpcodes.Nodup := by decide

theorem mem_assignedOpcodes {op : BitVec 8} : op ∈ assignedOpcodes ↔ ∃ r ∈ opcodeTable, opcodeOf r.pattern = op :=
  List.mem_map

theorem row_eq_of_opcode {r q : Row} (hr : r ∈ opcodeTable) (hq : q ∈ opcodeTable)
    (h : opcodeOf r.pattern = opcodeOf q.pattern) : r = q :=
  List.inj_on_of_nodup_map assignedOpcodes_nodup hr hq h

theorem Row.opcode_of_matches {r : Row} {w : Word} (hr : r ∈ opcodeTable) (h : r.matches w = true) :
    opcodeOf w = opcodeOf r.pattern :=
  ((and_mask_eq_iff hr w).mp (of_decide_eq_true h)).1

/-- Two rows that match one word have its opcode. -/
theorem row_eq_of_matches {r q : Row} {w : Word} (hr : r ∈ opcodeTable) (hq : q ∈ opcodeTable)
    (hrw : r.matches w = true) (hqw : q.matches w = true) : r = q :=
  row_eq_of_opcode hr hq ((r.opcode_of_matches hr hrw).symm.trans (q.opcode_of_matches hq hqw))

/-- The complement of R96's opcodes, as R97 (a) lists it. -/
theorem notMem_assignedOpcodes_iff : ∀ op : BitVec 8, op ∉ assignedOpcodes ↔
    (0x03 ≤ op.toNat ∧ op.toNat ≤ 0x0F) ∨ op.toNat = 0x17 ∨ op.toNat = 0x1F ∨ (0x23 ≤ op.toNat ∧ op.toNat ≤ 0x2F) ∨
      (0x34 ≤ op.toNat ∧ op.toNat ≤ 0x3F) ∨ (0x46 ≤ op.toNat ∧ op.toNat ≤ 0x4F) ∨ 0x54 ≤ op.toNat := by decide

/-! ## The decoder, row by row -/

/-- An answer reads the word as the row says: a command with the row's mnemonic and fields if the checks of the row's format
pass, and otherwise what the check rejects the word for. -/
def Row.Reads (r : Row) (w : Word) (answer : Except Reject Instr) : Prop :=
  ∃ i : Instr, answer = ((r.format.check w).map fun _ => i) ∧ i.mnemonic = r.mnemonic ∧ i.operands = r.operands w

/-- One case per row of R96, in its order. -/
theorem decode_of_row {r : Row} {w : Word} (hr : r ∈ opcodeTable) (h : opcodeOf w = opcodeOf r.pattern) :
    r.Reads w (decode w) := by
  unfold decode
  rw [h]
  fin_cases hr
  -- NOP to CLR_ERR, P_CLR, P_REWIND
  iterate 5 exact ⟨_, readN_eq_check w _, rfl, rfl⟩
  · exact ⟨_, readL_eq_check w .pSetlen, rfl, rfl⟩
  · exact ⟨_, readG_eq_check w .pPut, rfl, rfl⟩
  · exact ⟨_, readQ_eq_check w .pGet, rfl, rfl⟩
  · exact ⟨_, readAW_eq_check w .pWr, rfl, rfl⟩
  · exact ⟨_, readAR_eq_check w .pRd, rfl, rfl⟩
  -- M_CLR, M_REWIND
  iterate 2 exact ⟨_, readN_eq_check w _, rfl, rfl⟩
  · exact ⟨_, readL_eq_check w .mSetlen, rfl, rfl⟩
  · exact ⟨_, readG_eq_check w .mPut, rfl, rfl⟩
  · exact ⟨_, readQ_eq_check w .mGet, rfl, rfl⟩
  · exact ⟨_, readAW_eq_check w .mWr, rfl, rfl⟩
  · exact ⟨_, readAR_eq_check w .mRd, rfl, rfl⟩
  · exact ⟨_, readN_eq_check w .profClr, rfl, rfl⟩
  · exact ⟨_, readSK_eq_check w .profAdd, rfl, rfl⟩
  · exact ⟨_, readS_eq_check w .freqRd, rfl, rfl⟩
  -- FL_BUILD to FL_MREAD, HUF_BUILD to HUF_MREAD
  iterate 8 exact ⟨_, readN_eq_check w _, rfl, rfl⟩
  · exact ⟨_, readI_eq_check w .nodeRd, rfl, rfl⟩
  · exact ⟨_, readI_eq_check w .nodeWt, rfl, rfl⟩
  · exact ⟨_, readS_eq_check w .enc, rfl, rfl⟩
  · exact ⟨_, readS_eq_check w .codeLen, rfl, rfl⟩
  · exact ⟨_, readSC_eq_check w .codeRd, rfl, rfl⟩
  · exact ⟨_, readN_eq_check w .wsumCalc, rfl, rfl⟩

theorem decode_of_notMem {w : Word} (h : opcodeOf w ∉ assignedOpcodes) : decode w = .error .unassignedOpcode := by
  unfold decode
  split
  case h_35 => rfl
  all_goals
    rename_i hop
    rw [hop] at h
    exact absurd (by decide) h

theorem Row.Reads.eq_error_iff {r : Row} {w : Word} {answer : Except Reject Instr} (h : r.Reads w answer) (e : Reject) :
    answer = .error e ↔ r.format.check w = .error e := by
  obtain ⟨i, rfl, -, -⟩ := h
  cases r.format.check w <;> simp [Except.map]

theorem decode_eq_unassignedOpcode_iff (w : Word) : decode w = .error .unassignedOpcode ↔ opcodeOf w ∉ assignedOpcodes := by
  refine ⟨fun hdec hmem => ?_, decode_of_notMem⟩
  obtain ⟨r, hr, hop⟩ := mem_assignedOpcodes.mp hmem
  exact Format.check_ne_unassignedOpcode (((decode_of_row hr hop.symm).eq_error_iff _).mp hdec)

/-- Every reject but that for the opcode is the check of the row that has the word's opcode. -/
theorem decode_eq_error_iff {e : Reject} (he : e ≠ .unassignedOpcode) (w : Word) :
    decode w = .error e ↔ ∃ r ∈ opcodeTable, opcodeOf w = opcodeOf r.pattern ∧ r.format.check w = .error e := by
  constructor
  · intro hdec
    have hmem : opcodeOf w ∈ assignedOpcodes := by
      by_contra hno
      rw [decode_of_notMem hno] at hdec
      exact he (Except.error.inj hdec).symm
    obtain ⟨r, hr, hop⟩ := mem_assignedOpcodes.mp hmem
    exact ⟨r, hr, hop.symm, ((decode_of_row hr hop.symm).eq_error_iff e).mp hdec⟩
  · rintro ⟨r, hr, hop, hcheck⟩
    exact ((decode_of_row hr hop).eq_error_iff e).mpr hcheck

/-! ## The search of R98 -/

theorem decodeByTable_of_matches {r : Row} {w : Word} (hr : r ∈ opcodeTable) (h : r.matches w = true) :
    decodeByTable w = if r.inRange w then some (r.mnemonic, r.operands w) else none := by
  have hfind : opcodeTable.find? (fun q => q.matches w) = some r := by
    obtain ⟨q, hq⟩ := Option.isSome_iff_exists.mp (List.find?_isSome (p := fun q : Row => q.matches w) |>.mpr ⟨r, hr, h⟩)
    rw [hq, row_eq_of_matches (List.mem_of_find?_eq_some hq) hr (List.find?_some (p := fun q : Row => q.matches w) hq) h]
  rw [decodeByTable, hfind]

theorem decodeByTable_of_no_match {w : Word} (h : ∀ r ∈ opcodeTable, ¬ r.matches w = true) : decodeByTable w = none := by
  rw [decodeByTable, List.find?_eq_none.mpr h]

theorem decodeByTable_of_row {r : Row} {w : Word} (hr : r ∈ opcodeTable) (hop : opcodeOf w = opcodeOf r.pattern) :
    decodeByTable w = ((r.format.check w).map fun _ => (r.mnemonic, r.operands w)).toOption := by
  have hmatch : r.matches w = true ↔ r.format.ReservedZero w := by
    rw [Row.matches, decide_eq_true_eq, Row.and_mask_eq_iff hr, and_iff_right hop]
  by_cases h : r.matches w = true
  · rw [decodeByTable_of_matches hr h]
    cases hcheck : r.format.check w with
    | ok => rw [if_pos (Row.check_eq_ok_iff.mp hcheck).2]; rfl
    | error e =>
      rw [if_neg fun hrange => by simp [Row.check_eq_ok_iff.mpr ⟨hmatch.mp h, hrange⟩] at hcheck]
      rfl
  · have hnone : ∀ q ∈ opcodeTable, ¬ q.matches w = true := by
      intro q hq hqw
      have hqr := row_eq_of_opcode hq hr ((q.opcode_of_matches hq hqw).symm.trans hop)
      exact h (hqr ▸ hqw)
    rw [decodeByTable_of_no_match hnone, Format.check_eq_reservedBits_iff.mpr (mt hmatch.mpr h)]
    rfl

/-- Settles O3: a word with a row's opcode is read by the decoder as that row says, and no other row can match it; a word with
another opcode is rejected and matched by none. -/
theorem decoderIsTheTableSearch : Obligations.DecoderIsTheTableSearch := by
  unfold Obligations.DecoderIsTheTableSearch
  refine ⟨fun w => ?search, ?pairwise⟩
  case search =>
    by_cases hmem : opcodeOf w ∈ assignedOpcodes
    · obtain ⟨r, hr, hop⟩ := mem_assignedOpcodes.mp hmem
      obtain ⟨i, hdec, hmnemonic, hoperands⟩ := decode_of_row hr hop.symm
      rw [hdec, decodeByTable_of_row hr hop.symm, ← hmnemonic, ← hoperands]
      cases r.format.check w <;> rfl
    · have hnone : ∀ r ∈ opcodeTable, ¬ r.matches w = true := fun r hr h =>
        hmem (mem_assignedOpcodes.mpr ⟨r, hr, (r.opcode_of_matches hr h).symm⟩)
      rw [decode_of_notMem hmem, decodeByTable_of_no_match hnone]
  case pairwise =>
    have hdistinct : opcodeTable.Pairwise fun r q => opcodeOf r.pattern ≠ opcodeOf q.pattern :=
      List.pairwise_map.mp assignedOpcodes_nodup
    refine hdistinct.imp_of_mem fun hr hq hne w ⟨hrw, hqw⟩ => hne ?_
    rw [row_eq_of_matches hr hq hrw hqw]

/-! ## The classes of illegal words (R97) -/

theorem decode_eq_reservedBits_iff (w : Word) : decode w = .error .reservedBits ↔
    ∃ r ∈ opcodeTable, opcodeOf r.pattern = opcodeOf w ∧ w &&& r.mask ≠ r.pattern := by
  rw [decode_eq_error_iff (by decide)]
  refine exists_congr fun r => and_congr_right fun hr => ?_
  rw [Format.check_eq_reservedBits_iff, ne_eq, Row.and_mask_eq_iff hr, eq_comm (a := opcodeOf w)]
  exact and_congr_right fun hop => by rw [and_iff_right hop]

theorem groupWidthOk_eq_false_iff (n : BitVec 5) : groupWidthOk n = false ↔ ¬ (1 ≤ n.toNat ∧ n.toNat ≤ 16) :=
  decide_eq_false_iff_not

theorem decode_eq_groupWidth_iff (w : Word) : decode w = .error .groupWidth ↔
    ∃ r ∈ opcodeTable, (r.format = .G ∨ r.format = .Q) ∧ w &&& r.mask = r.pattern ∧
      ¬ (1 ≤ (fieldN w).toNat ∧ (fieldN w).toNat ≤ 16) := by
  rw [decode_eq_error_iff (by decide)]
  refine exists_congr fun r => and_congr_right fun hr => ?_
  rw [Format.check_eq_groupWidth_iff, groupWidthOk_eq_false_iff, Row.and_mask_eq_iff hr, ← and_assoc, and_left_comm]

theorem decode_eq_groupValue_iff (w : Word) : decode w = .error .groupValue ↔
    ∃ r ∈ opcodeTable, r.format = .G ∧ w &&& r.mask = r.pattern ∧ 1 ≤ (fieldN w).toNat ∧ (fieldN w).toNat ≤ 16 ∧
      2 ^ (fieldN w).toNat ≤ (fieldV w).toNat := by
  have hwidth : groupWidthOk (fieldN w) = true ↔ 1 ≤ (fieldN w).toNat ∧ (fieldN w).toNat ≤ 16 := decide_eq_true_iff
  have hvalue : groupValueOk (fieldN w) (fieldV w) = false ↔ 2 ^ (fieldN w).toNat ≤ (fieldV w).toNat :=
    decide_eq_false_iff_not.trans Nat.not_lt
  rw [decode_eq_error_iff (by decide)]
  refine exists_congr fun r => and_congr_right fun hr => ?_
  rw [Format.check_eq_groupValue_iff, hwidth, hvalue, Row.and_mask_eq_iff hr, ← and_assoc, and_left_comm,
    and_assoc (a := 1 ≤ (fieldN w).toNat)]

end Sys2Proof
end

section
/-!
PROOF. The illegal words of 30_encoding.md R97, and that each raises ILLEGAL_COMMAND.
-/
namespace Sys2Proof.Machine

/-- The frame of the error entry (60_exceptions.md R234). -/
theorem raise_onlyChanges (s : State) (w : Word) (e : ErrCode) (pos : Nat) :
    OnlyChanges [.error, .latch] s (s.raise w e pos) := by
  intro q hq
  cases q with
  | error => exact absurd (by decide) hq
  | latch => exact absurd (by decide) hq
  | wbits S => cases S <;> rfl
  | rpos S => cases S <;> rfl
  | bytes S => cases S <;> exact fun _ => rfl
  | _ => simp [Unchanged]

/-- Settles O4: the classes are those of the decoder's rejects, and a rejected word's step is the error entry. -/
theorem illegalWordsRaiseIllegalCommand : Obligations.IllegalWordsRaiseIllegalCommand := by
  unfold Obligations.IllegalWordsRaiseIllegalCommand
  refine ⟨fun w => ?opcode, decode_eq_reservedBits_iff, decode_eq_groupWidth_iff, decode_eq_groupValue_iff, ?raises⟩
  case opcode => exact (decode_eq_unassignedOpcode_iff w).trans (notMem_assignedOpcodes_iff (opcodeOf w))
  case raises =>
    intro s w r hdec hlatched _ hhost
    refine ⟨s.raise w .illegalCommand 0, ?_, rfl, rfl, rfl, rfl, raise_onlyChanges s w _ _⟩
    rw [step_runs_last hhost hlatched, runCommand_error s hdec]

end Sys2Proof.Machine
end

section
/-!
PROOF. What holds of every stream command (41_bitstream.md R130): its opcode is made of the stream and the operation's number,
and its answer (`StreamAnswer`) raises no UNINITIALIZED_STATE and touches RESULT and the one stream alone.
-/
namespace Sys2Proof.Machine

/-! ## The commands by operation number -/

/-- Command i is operation k on stream S. -/
inductive StreamCmd (S : StreamId) : Nat → Instr → Prop where
  | clr : StreamCmd S 0 (clrCmd S)
  | rewind : StreamCmd S 1 (rewindCmd S)
  | setlen (b : BitVec 21) (p : BitVec 3) : StreamCmd S 2 (setlenCmd b p S)
  | put (n : BitVec 5) (v : BitVec 16) : StreamCmd S 3 (putCmd n v S)
  | get (n : BitVec 5) : StreamCmd S 4 (getCmd n S)
  | wr (a : BitVec 16) (d : Byte) : StreamCmd S 5 (wrCmd a d S)
  | rd (a : BitVec 16) : StreamCmd S 6 (rdCmd a S)

theorem streamCmd_of_getElem? {S : StreamId} {b : BitVec 21} {p : BitVec 3} {n : BitVec 5} {v a : BitVec 16} {d : Byte}
    {k : Nat} {i : Instr}
    (h : [clrCmd S, rewindCmd S, setlenCmd b p S, putCmd n v S, getCmd n S, wrCmd a d S, rdCmd a S][k]? = some i) :
    StreamCmd S k i := by
  obtain ⟨hk, rfl⟩ := List.getElem?_eq_some_iff.mp h
  match k, hk with
  | 0, _ => exact .clr
  | 1, _ => exact .rewind
  | 2, _ => exact .setlen b p
  | 3, _ => exact .put n v
  | 4, _ => exact .get n
  | 5, _ => exact .wr a d
  | 6, _ => exact .rd a

/-! ## The opcode -/

/-- The opcode of operation k on stream S: 0x10 + k for P and 0x18 + k for M (R96). -/
def streamOpcode : StreamId → Nat → BitVec 8
  | .P, k => BitVec.ofNat 8 (0x10 + k)
  | .M, k => BitVec.ofNat 8 (0x18 + k)

theorem StreamCmd.opcodeOf_encode {S : StreamId} {k : Nat} {i : Instr} (h : StreamCmd S k i) :
    opcodeOf (encode i) = streamOpcode S k := by
  cases h with
  | clr => cases S; exacts [Laws.Encoding.pClr, Laws.Encoding.mClr]
  | rewind => cases S; exacts [Laws.Encoding.pRewind, Laws.Encoding.mRewind]
  | setlen b p => cases S; exacts [Laws.Encoding.pSetlen b p, Laws.Encoding.mSetlen b p]
  | put n v => cases S; exacts [Laws.Encoding.pPut n v, Laws.Encoding.mPut n v]
  | get n => cases S; exacts [Laws.Encoding.pGet n, Laws.Encoding.mGet n]
  | wr a d => cases S; exacts [Laws.Encoding.pWr a d, Laws.Encoding.mWr a d]
  | rd a => cases S; exacts [Laws.Encoding.pRd a, Laws.Encoding.mRd a]

theorem StreamCmd.operation_lt {S : StreamId} {k : Nat} {i : Instr} (h : StreamCmd S k i) : k < 7 := by
  cases h <;> decide

theorem streamOpcode_fields (S : StreamId) : ∀ k < 7, (streamOpcode S k).extractLsb' 4 4 = 1#4 ∧
    (streamOpcode S k).getLsbD 3 = decide (S = .M) ∧ ((streamOpcode S k).extractLsb' 0 3).toNat = k := by
  cases S <;> decide

theorem extract_opcodeOf (w : Word) (lo len : Nat) (h : lo + len ≤ 8) :
    (opcodeOf w).extractLsb' lo len = w.extractLsb' (24 + lo) len := by
  ext j hj
  simp [opcodeOf, Nat.add_assoc, show lo + j < 8 by omega]

theorem opcodeOf_getLsbD (w : Word) {k : Nat} (h : k < 8) : (opcodeOf w).getLsbD k = w.getLsbD (24 + k) := by
  simp [opcodeOf, h]

/-- 0x17 and 0x1F are not in R96. -/
theorem notMem_assignedOpcodes_of_operation_seven :
    ∀ op : BitVec 8, op.extractLsb' 4 4 = 1#4 → op.extractLsb' 0 3 = 7#3 → op ∉ assignedOpcodes := by decide

/-! ## The command's meaning is its operation's -/

section Meanings

variable (S : StreamId) (s : State)

theorem exec_clrCmd : exec (clrCmd S) s = clrStream S s := by cases S <;> rfl

theorem exec_rewindCmd : exec (rewindCmd S) s = rewindStream S s := by cases S <;> rfl

theorem exec_setlenCmd (b : BitVec 21) (p : BitVec 3) :
    exec (setlenCmd b p S) s = setlenStream S (setlenCmd b p S) b p s := by cases S <;> rfl

theorem exec_putCmd (n : BitVec 5) (v : BitVec 16) : exec (putCmd n v S) s = putStream S (putCmd n v S) n v s := by
  cases S <;> rfl

theorem exec_getCmd (n : BitVec 5) : exec (getCmd n S) s = getStream S (getCmd n S) n s := by cases S <;> rfl

theorem exec_wrCmd (a : BitVec 16) (d : Byte) : exec (wrCmd a d S) s = wrStream S (wrCmd a d S) a d s := by
  cases S <;> rfl

theorem exec_rdCmd (a : BitVec 16) : exec (rdCmd a S) s = rdStream S (rdCmd a S) a s := by cases S <;> rfl

end Meanings

/-! ## The answers -/

/-- An answer that a command of stream S can give: an error that is not UNINITIALIZED_STATE, or the state with RESULT and the
stream replaced. -/
inductive StreamAnswer (S : StreamId) (s : State) : Result → Prop where
  | fail {i : Instr} {e : ErrCode} {pos : Nat} (he : e ≠ .uninitializedState) : StreamAnswer S s (fail i e pos s)
  | next (v : Word) (st : BitStream) : StreamAnswer S s (.next ((s.setResult v).setStream S st))

section Answers

variable {S : StreamId} {s : State}

theorem StreamAnswer.setStream (st : BitStream) : StreamAnswer S s (.next (s.setStream S st)) := .next s.result st

theorem StreamAnswer.setResult (v : Word) : StreamAnswer S s (.next (s.setResult v)) := by
  have hkeep : (s.setResult v).setStream S (s.stream S) = s.setResult v := by cases S <;> rfl
  exact hkeep ▸ .next v (s.stream S)

theorem StreamCmd.streamAnswer {k : Nat} {i : Instr} (h : StreamCmd S k i) : StreamAnswer S s (exec i s) := by
  cases h with
  | clr => exact exec_clrCmd S s ▸ .setStream _
  | rewind => exact exec_rewindCmd S s ▸ .setStream _
  | setlen b p =>
    rw [exec_setlenCmd]
    obtain ⟨-, hanswer⟩ | ⟨-, -, hanswer⟩ := setlenStream_cases S (setlenCmd b p S) s b p <;> rw [hanswer]
    · exact .fail (by decide)
    · exact .setStream _
  | put n v =>
    rw [exec_putCmd]
    obtain ⟨-, hanswer⟩ | ⟨-, -, hanswer⟩ | ⟨-, -, hanswer⟩ := putStream_cases S (putCmd n v S) s n v <;> rw [hanswer]
    · exact .fail (by decide)
    · exact .fail (by decide)
    · exact .setStream _
  | get n =>
    rw [exec_getCmd]
    obtain ⟨-, hanswer⟩ | ⟨-, -, hanswer⟩ | ⟨-, -, hanswer⟩ := getStream_cases S (getCmd n S) s n <;> rw [hanswer]
    · exact .fail (by decide)
    · exact .fail (by decide)
    · exact .next _ _
  | wr a d =>
    rw [exec_wrCmd]
    obtain ⟨-, hanswer⟩ | ⟨-, hanswer⟩ := wrStream_cases S (wrCmd a d S) s a d <;> rw [hanswer]
    · exact .fail (by decide)
    · exact .setStream _
  | rd a =>
    rw [exec_rdCmd]
    obtain ⟨-, hanswer⟩ | ⟨-, hanswer⟩ := rdStream_cases S (rdCmd a S) s a <;> rw [hanswer]
    · exact .fail (by decide)
    · exact .setResult _

theorem StreamAnswer.errcode_ne {t : State} (h : StreamAnswer S s (.next t)) (hs : s.errcode = 0#8) :
    t.errcode ≠ ErrCode.uninitializedState.code := by
  cases h with
  | fail he => exact fun hcode => he (ErrCode.code_injective hcode)
  | next v st =>
    rw [State.setStream_errcode, State.setResult_errcode, hs]
    exact (ErrCode.code_ne_zero _).symm

/-! ## The frame -/

theorem OnlyChanges.mono {parts parts' : List Part} {t : State} (h : OnlyChanges parts s t) (hsub : parts ⊆ parts') :
    OnlyChanges parts' s t :=
  fun q hq => h q fun hmem => hq (hsub hmem)

theorem setResult_setStream_onlyChanges (s : State) (v : Word) (S : StreamId) (st : BitStream) :
    OnlyChanges [.result, .wbits S, .rpos S, .bytes S] s ((s.setResult v).setStream S st) := by
  intro q hq
  have hother {T : StreamId} (hT : T ≠ S) : ((s.setResult v).setStream S st).stream T = s.stream T := by
    rw [State.setStream_stream_other _ _ hT, State.setResult_stream]
  cases q with
  | result => exact absurd (by simp) hq
  | wbits T => exact congrArg BitStream.wbits (hother (by simpa using hq))
  | rpos T => exact congrArg BitStream.rpos (hother (by simpa using hq))
  | bytes T =>
    intro a
    simp [State.byte, hother (T := T) (by simpa using hq)]
  | _ => simp [Unchanged]

theorem StreamAnswer.onlyChanges {t : State} (h : StreamAnswer S s (.next t)) :
    OnlyChanges [.error, .latch, .result, .wbits S, .rpos S, .bytes S] s t := by
  cases h with
  | fail _ => exact (raise_onlyChanges s _ _ _).mono (by simp)
  | next v st => exact (setResult_setStream_onlyChanges s v S st).mono (by simp)

end Answers

/-- Settles O31: the fields of the word are fields of its opcode, operation 7 is in no row of R96, and each operation's answer is
a `StreamAnswer`. -/
theorem streamCommandsTouchOneStream : Obligations.StreamCommandsTouchOneStream := by
  unfold Obligations.StreamCommandsTouchOneStream
  intro S b p n v a d k i hi
  have hcmd := streamCmd_of_getElem? hi
  obtain ⟨hfamily, hstream, hoperation⟩ := streamOpcode_fields S k hcmd.operation_lt
  rw [← hcmd.opcodeOf_encode] at hfamily hstream hoperation
  rw [extract_opcodeOf _ _ _ (by decide)] at hfamily hoperation
  rw [opcodeOf_getLsbD _ (by decide)] at hstream
  refine ⟨hfamily, hstream, hoperation, fun w hw hseven => ?illegal, fun s t hexec => ?frame⟩
  case illegal =>
    refine decode_of_notMem (notMem_assignedOpcodes_of_operation_seven _ ?_ ?_)
    · rw [extract_opcodeOf _ _ _ (by decide), hw]
    · rw [extract_opcodeOf _ _ _ (by decide), hseven]
  case frame =>
    have hanswer : StreamAnswer S s (.next t) := hexec ▸ hcmd.streamAnswer
    exact ⟨hanswer.errcode_ne, hanswer.onlyChanges⟩

end Sys2Proof.Machine
end

section
/-!
PROOF. A host write to CMD while the block is idle and locked (60_exceptions.md R235).
-/
namespace Sys2Proof.Machine

theorem mem_controlWords_iff {w : Word} :
    w ∈ controlWords ↔ w = 0x00000000#32 ∨ w = 0x01000000#32 ∨ w = 0x02000000#32 := by
  simp [controlWords]

theorem hostWrite_cmd (w : Word) (s : State) : hostWrite 32 0x00#8 w s = .next (s.writeCmd w) := rfl

theorem step_hostWrite_cmd {s : State} {w : Word} {rest : List HostEvent} (hhost : s.host = .write 32 0x00#8 w :: rest) :
    step s = .next ((s.setHost rest).writeCmd w) :=
  (step_host hhost (by simp)).trans (hostWrite_cmd w _)

theorem writeCmd_of_mem_controlWords {w : Word} {s : State} (hidle : s.latched = none) (hw : w ∈ controlWords) :
    s.writeCmd w = s.nextDraw.setLatched (some w) := by
  obtain ⟨hbusy, -⟩ | ⟨-, -, hdropped, -⟩ | ⟨-, -, hlatched⟩ := writeCmd_cases w s
  · exact absurd hidle hbusy
  · exact absurd hw hdropped
  · exact hlatched

theorem writeCmd_of_locked {w : Word} {s : State} (hidle : s.latched = none) (hlocked : s.errcode ≠ 0#8)
    (hw : w ∉ controlWords) : s.writeCmd w = s := by
  obtain ⟨hbusy, -⟩ | ⟨-, -, -, hsame⟩ | ⟨-, hunlocked | hcontrol, -⟩ := writeCmd_cases w s
  · exact absurd hidle hbusy
  · exact hsame
  · exact absurd hunlocked hlocked
  · exact absurd hcontrol hw

/-- The frame of a CMD write that the block takes (10_state.md R36). -/
theorem setHost_nextDraw_setLatched_onlyChanges (s : State) (rest : List HostEvent) (w : Option Word) :
    OnlyChanges [.latch, .environment] s ((s.setHost rest).nextDraw.setLatched w) := by
  intro q hq
  cases q with
  | latch => exact absurd (by decide) hq
  | environment => exact absurd (by decide) hq
  | bytes S => cases S <;> exact fun _ => rfl
  | _ => simp [Unchanged]

/-- Settles O8: on an idle block a CMD write latches a control word, locked or not, and a locked block drops any other word. -/
theorem lockedBlockDropsEveryOtherWord : Obligations.LockedBlockDropsEveryOtherWord := by
  unfold Obligations.LockedBlockDropsEveryOtherWord
  intro s w rest hhost hidle hlocked
  rw [step_hostWrite_cmd hhost, ← mem_controlWords_iff]
  constructor
  · intro hcontrol
    rw [writeCmd_of_mem_controlWords (s := s.setHost rest) hidle hcontrol]
    exact ⟨_, rfl, rfl, rfl, setHost_nextDraw_setLatched_onlyChanges s rest _, fun hrest => step_runs_last hrest rfl⟩
  · intro hother
    rw [writeCmd_of_locked (s := s.setHost rest) hidle hlocked hother]

end Sys2Proof.Machine
end

section
/-!
PROOF. Decoding and encoding are inverse (30_encoding.md R92, R97): each format's reader and word were shown inverse with the
formats' laws, so what is left is one case per command.
-/
namespace Sys2Proof

/-- Settles O1: the word of a command carries its opcode, and the reader of its format gives the operands back. -/
theorem decodingAnEncodedCommandGivesItBack : Obligations.DecodingAnEncodedCommandGivesItBack := by
  unfold Obligations.DecodingAnEncodedCommandGivesItBack
  intro i hwf
  cases i with
  | pPut n v =>
    obtain ⟨hn, hv⟩ := Bool.and_eq_true_iff.mp hwf
    simp [decode, encode, hn, hv]
  | mPut n v =>
    obtain ⟨hn, hv⟩ := Bool.and_eq_true_iff.mp hwf
    simp [decode, encode, hn, hv]
  | pGet n => simp [decode, encode, show groupWidthOk n = true from hwf]
  | mGet n => simp [decode, encode, show groupWidthOk n = true from hwf]
  | _ => simp [decode, encode]

/-! ## A word that a format's reader accepts -/

/-- Command i is well-formed and w is its word. -/
abbrev Instr.WordIs (i : Instr) (w : Word) : Prop := i.wf = true ∧ encode i = w

section Accepted

variable {w : Word} {op : BitVec 8} {j : Instr} (hop : opcodeOf w = op)
include hop

theorem wordIs_of_readN {i : Instr} (h : readN w i = .ok j) (hwf : i.wf = true) (henc : encode i = wordN op) :
    j.WordIs w := by
  obtain ⟨rfl, hw⟩ := eq_wordN_of_readN w i j h
  exact ⟨hwf, by rw [henc, ← hop, ← hw]⟩

theorem wordIs_of_readS {f : Symbol → Instr} (h : readS w f = .ok j) (hwf : ∀ s, (f s).wf = true)
    (henc : ∀ s, encode (f s) = wordS op s) : j.WordIs w := by
  obtain ⟨rfl, hw⟩ := eq_wordS_of_readS w f j h
  exact ⟨hwf _, by rw [henc, ← hop, ← hw]⟩

theorem wordIs_of_readSK {f : Symbol → BitVec 16 → Instr} (h : readSK w f = .ok j) (hwf : ∀ s k, (f s k).wf = true)
    (henc : ∀ s k, encode (f s k) = wordSK op k s) : j.WordIs w := by
  obtain ⟨rfl, hw⟩ := eq_wordSK_of_readSK w f j h
  exact ⟨hwf _ _, by rw [henc, ← hop, ← hw]⟩

theorem wordIs_of_readSC {f : Symbol → BitVec 3 → Instr} (h : readSC w f = .ok j) (hwf : ∀ s c, (f s c).wf = true)
    (henc : ∀ s c, encode (f s c) = wordSC op c s) : j.WordIs w := by
  obtain ⟨rfl, hw⟩ := eq_wordSC_of_readSC w f j h
  exact ⟨hwf _ _, by rw [henc, ← hop, ← hw]⟩

theorem wordIs_of_readI {f : BitVec 9 → Instr} (h : readI w f = .ok j) (hwf : ∀ i, (f i).wf = true)
    (henc : ∀ i, encode (f i) = wordI op i) : j.WordIs w := by
  obtain ⟨rfl, hw⟩ := eq_wordI_of_readI w f j h
  exact ⟨hwf _, by rw [henc, ← hop, ← hw]⟩

theorem wordIs_of_readL {f : BitVec 21 → BitVec 3 → Instr} (h : readL w f = .ok j) (hwf : ∀ b p, (f b p).wf = true)
    (henc : ∀ b p, encode (f b p) = wordL op p b) : j.WordIs w := by
  obtain ⟨rfl, hw⟩ := eq_wordL_of_readL w f j h
  exact ⟨hwf _ _, by rw [henc, ← hop, ← hw]⟩

theorem wordIs_of_readAW {f : BitVec 16 → Byte → Instr} (h : readAW w f = .ok j) (hwf : ∀ a d, (f a d).wf = true)
    (henc : ∀ a d, encode (f a d) = wordAW op a d) : j.WordIs w := by
  obtain ⟨rfl, hw⟩ := eq_wordAW_of_readAW w f j h
  exact ⟨hwf _ _, by rw [henc, ← hop, ← hw]⟩

theorem wordIs_of_readAR {f : BitVec 16 → Instr} (h : readAR w f = .ok j) (hwf : ∀ a, (f a).wf = true)
    (henc : ∀ a, encode (f a) = wordAR op a) : j.WordIs w := by
  obtain ⟨rfl, hw⟩ := eq_wordAR_of_readAR w f j h
  exact ⟨hwf _, by rw [henc, ← hop, ← hw]⟩

theorem wordIs_of_readG {f : BitVec 5 → BitVec 16 → Instr} (h : readG w f = .ok j)
    (hwf : ∀ n v, (f n v).wf = (groupWidthOk n && groupValueOk n v)) (henc : ∀ n v, encode (f n v) = wordG op n v) :
    j.WordIs w := by
  obtain ⟨rfl, hw, hn, hv⟩ := eq_wordG_of_readG w f j h
  exact ⟨by rw [hwf, hn, hv]; rfl, by rw [henc, ← hop, ← hw]⟩

theorem wordIs_of_readQ {f : BitVec 5 → Instr} (h : readQ w f = .ok j) (hwf : ∀ n, (f n).wf = groupWidthOk n)
    (henc : ∀ n, encode (f n) = wordQ op n) : j.WordIs w := by
  obtain ⟨rfl, hw, hn⟩ := eq_wordQ_of_readQ w f j h
  exact ⟨by rw [hwf, hn], by rw [henc, ← hop, ← hw]⟩

end Accepted

/-- Settles O2: each arm of the decoder reads the format of its command, and that format's reader accepts only the command's
own word. -/
theorem encodingADecodedWordGivesItBack : Obligations.EncodingADecodedWordGivesItBack := by
  unfold Obligations.EncodingADecodedWordGivesItBack
  intro w j h
  unfold decode at h
  split at h
  case h_1 hop => exact wordIs_of_readN hop h rfl rfl
  case h_2 hop => exact wordIs_of_readN hop h rfl rfl
  case h_3 hop => exact wordIs_of_readN hop h rfl rfl
  case h_4 hop => exact wordIs_of_readN hop h rfl rfl
  case h_5 hop => exact wordIs_of_readN hop h rfl rfl
  case h_6 hop => exact wordIs_of_readL hop h (fun _ _ => rfl) fun _ _ => rfl
  case h_7 hop => exact wordIs_of_readG hop h (fun _ _ => rfl) fun _ _ => rfl
  case h_8 hop => exact wordIs_of_readQ hop h (fun _ => rfl) fun _ => rfl
  case h_9 hop => exact wordIs_of_readAW hop h (fun _ _ => rfl) fun _ _ => rfl
  case h_10 hop => exact wordIs_of_readAR hop h (fun _ => rfl) fun _ => rfl
  case h_11 hop => exact wordIs_of_readN hop h rfl rfl
  case h_12 hop => exact wordIs_of_readN hop h rfl rfl
  case h_13 hop => exact wordIs_of_readL hop h (fun _ _ => rfl) fun _ _ => rfl
  case h_14 hop => exact wordIs_of_readG hop h (fun _ _ => rfl) fun _ _ => rfl
  case h_15 hop => exact wordIs_of_readQ hop h (fun _ => rfl) fun _ => rfl
  case h_16 hop => exact wordIs_of_readAW hop h (fun _ _ => rfl) fun _ _ => rfl
  case h_17 hop => exact wordIs_of_readAR hop h (fun _ => rfl) fun _ => rfl
  case h_18 hop => exact wordIs_of_readN hop h rfl rfl
  case h_19 hop => exact wordIs_of_readSK hop h (fun _ _ => rfl) fun _ _ => rfl
  case h_20 hop => exact wordIs_of_readS hop h (fun _ => rfl) fun _ => rfl
  case h_21 hop => exact wordIs_of_readN hop h rfl rfl
  case h_22 hop => exact wordIs_of_readN hop h rfl rfl
  case h_23 hop => exact wordIs_of_readN hop h rfl rfl
  case h_24 hop => exact wordIs_of_readN hop h rfl rfl
  case h_25 hop => exact wordIs_of_readN hop h rfl rfl
  case h_26 hop => exact wordIs_of_readN hop h rfl rfl
  case h_27 hop => exact wordIs_of_readN hop h rfl rfl
  case h_28 hop => exact wordIs_of_readN hop h rfl rfl
  case h_29 hop => exact wordIs_of_readI hop h (fun _ => rfl) fun _ => rfl
  case h_30 hop => exact wordIs_of_readI hop h (fun _ => rfl) fun _ => rfl
  case h_31 hop => exact wordIs_of_readS hop h (fun _ => rfl) fun _ => rfl
  case h_32 hop => exact wordIs_of_readS hop h (fun _ => rfl) fun _ => rfl
  case h_33 hop => exact wordIs_of_readSC hop h (fun _ _ => rfl) fun _ _ => rfl
  case h_34 hop => exact wordIs_of_readN hop h rfl rfl
  case h_35 => cases h

/-- Settles O5: the decoder evaluated on each word. -/
theorem wordsOfEachFormatDecode : Obligations.WordsOfEachFormatDecode := by
  unfold Obligations.WordsOfEachFormatDecode
  decide

end Sys2Proof
end

section
/-!
PROOF. The frame of each update of the state: the parts that it changes. A buffer is compared byte by byte.
-/
namespace Sys2Proof.Machine

/-! ## Frames -/

/-- A frame, part by part: each part is one of those listed, or is as before. -/
theorem OnlyChanges.of_parts {parts : List Part} {s t : State}
    (config : .config ∈ parts ∨ Unchanged .config s t := by simp [Unchanged])
    (latch : .latch ∈ parts ∨ Unchanged .latch s t := by simp [Unchanged])
    (ovr : .ovr ∈ parts ∨ Unchanged .ovr s t := by simp [Unchanged])
    (error : .error ∈ parts ∨ Unchanged .error s t := by simp [Unchanged])
    (result : .result ∈ parts ∨ Unchanged .result s t := by simp [Unchanged])
    (table : .table ∈ parts ∨ Unchanged .table s t := by simp [Unchanged])
    (profile : .profile ∈ parts ∨ Unchanged .profile s t := by simp [Unchanged])
    (wsum : .wsum ∈ parts ∨ Unchanged .wsum s t := by simp [Unchanged])
    (wbits : ∀ S, .wbits S ∈ parts ∨ Unchanged (.wbits S) s t := by simp [Unchanged])
    (rpos : ∀ S, .rpos S ∈ parts ∨ Unchanged (.rpos S) s t := by simp [Unchanged])
    (bytes : ∀ S, .bytes S ∈ parts ∨ Unchanged (.bytes S) s t := by simp [Unchanged, State.byte])
    (environment : .environment ∈ parts ∨ Unchanged .environment s t := by simp [Unchanged]) :
    OnlyChanges parts s t := by
  intro q hq
  cases q with
  | config => exact config.resolve_left hq
  | latch => exact latch.resolve_left hq
  | ovr => exact ovr.resolve_left hq
  | error => exact error.resolve_left hq
  | result => exact result.resolve_left hq
  | table => exact table.resolve_left hq
  | profile => exact profile.resolve_left hq
  | wsum => exact wsum.resolve_left hq
  | wbits S => exact (wbits S).resolve_left hq
  | rpos S => exact (rpos S).resolve_left hq
  | bytes S => exact (bytes S).resolve_left hq
  | environment => exact environment.resolve_left hq

theorem Unchanged.refl (q : Part) (s : State) : Unchanged q s s := by
  cases q with
  | bytes S => exact fun _ => rfl
  | _ => simp [Unchanged]

theorem Unchanged.trans {q : Part} {s t u : State} (h₁ : Unchanged q s t) (h₂ : Unchanged q t u) : Unchanged q s u := by
  cases q with
  | bytes S => exact fun a => (h₂ a).trans (h₁ a)
  | _ => simp_all [Unchanged]

theorem OnlyChanges.refl (parts : List Part) (s : State) : OnlyChanges parts s s := fun q _ => .refl q s

theorem OnlyChanges.trans {parts : List Part} {s t u : State} (h₁ : OnlyChanges parts s t) (h₂ : OnlyChanges parts t u) :
    OnlyChanges parts s u := fun q hq => (h₁ q hq).trans (h₂ q hq)

/-! ## Updates that leave the streams -/

section Updates

variable (s : State)

theorem setResult_onlyChanges (v : Word) : OnlyChanges [.result] s (s.setResult v) := .of_parts

theorem setProfile_onlyChanges (freq : Table Word) (total : Word) :
    OnlyChanges [.profile] s (s.setProfile freq total) := .of_parts

theorem setWsum_onlyChanges (v : BitVec 64) : OnlyChanges [.wsum] s (s.setWsum v) := .of_parts

theorem loadFixed_onlyChanges (codes : CodeList) (w : Nat) : OnlyChanges [.table] s (s.loadFixed codes w) := .of_parts

theorem loadHuff_onlyChanges (arena : List Node) (root n : Nat) (codes : CodeList) :
    OnlyChanges [.table] s (s.loadHuff arena root n codes) := .of_parts

theorem clearError_onlyChanges : OnlyChanges [.error, .ovr] s s.clearError := .of_parts

theorem setHost_onlyChanges (events : List HostEvent) : OnlyChanges [.environment] s (s.setHost events) := .of_parts

theorem setLatched_onlyChanges (w : Option Word) : OnlyChanges [.latch] s (s.setLatched w) := .of_parts

theorem nextDraw_onlyChanges : OnlyChanges [.environment] s s.nextDraw := .of_parts

theorem setOvr_onlyChanges : OnlyChanges [.ovr] s s.setOvr := .of_parts

theorem addRead_onlyChanges (v : Word) : OnlyChanges [.environment] s (s.addRead v) := .of_parts

theorem softReset_onlyChanges : OnlyChanges (partsWritten .sreset) s s.softReset :=
  .of_parts (config := .inr rfl) (latch := .inl (by simp [partsWritten]))
    (ovr := .inl (by simp [partsWritten])) (error := .inl (by simp [partsWritten]))
    (result := .inl (by simp [partsWritten])) (table := .inl (by simp [partsWritten]))
    (profile := .inl (by simp [partsWritten])) (wsum := .inl (by simp [partsWritten]))
    (wbits := fun S => .inl (by cases S <;> simp [partsWritten]))
    (rpos := fun S => .inl (by cases S <;> simp [partsWritten])) (bytes := fun S => .inr (by cases S <;> exact fun _ => rfl))
    (environment := .inr ⟨rfl, rfl, rfl, rfl⟩)

/-! ## A stream replaced -/

/-- A stream replaced: each of its counts and its bytes is listed or is kept. -/
theorem setStream_onlyChanges {S : StreamId} {st : BitStream} {parts : List Part}
    (wbits : .wbits S ∈ parts ∨ st.wbits = (s.stream S).wbits) (rpos : .rpos S ∈ parts ∨ st.rpos = (s.stream S).rpos)
    (bytes : .bytes S ∈ parts ∨ ∀ a, (s.setStream S st).byte S a = s.byte S a) :
    OnlyChanges parts s (s.setStream S st) := by
  have hother {T : StreamId} (hT : T ≠ S) := State.setStream_stream_other s st hT
  refine .of_parts (wbits := fun T => ?_) (rpos := fun T => ?_) (bytes := fun T => ?_)
  all_goals by_cases hT : T = S
  · subst hT; simpa [Unchanged] using wbits
  · exact .inr (congrArg BitStream.wbits (hother hT))
  · subst hT; simpa [Unchanged] using rpos
  · exact .inr (congrArg BitStream.rpos (hother hT))
  · subst hT; exact bytes
  · exact .inr (State.byte_setStream_other S s st hT)

variable (S : StreamId)

theorem setCounts_onlyChanges (wbits rpos : Nat) :
    OnlyChanges [.wbits S, .rpos S] s (s.setStream S { s.stream S with wbits := wbits, rpos := rpos }) :=
  setStream_onlyChanges s (.inl (by simp)) (.inl (by simp)) (.inr (State.byte_setStream_counts S s wbits rpos S))

theorem setRpos_onlyChanges (k : Nat) : OnlyChanges [.rpos S] s (s.setRpos S k) :=
  setStream_onlyChanges s (.inr rfl) (.inl (by simp)) (.inr (State.byte_setStream_counts S s _ k S))

theorem append_onlyChanges (bits : List Bool) : OnlyChanges [.wbits S, .bytes S] s (s.append S bits) :=
  setStream_onlyChanges s (.inl (by simp)) (.inr (BitStream.append_rpos ..)) (.inl (by simp))

theorem writeByte_onlyChanges (a : Nat) (d : Byte) :
    OnlyChanges [.bytes S] s (s.setStream S ((s.stream S).writeByte a d)) :=
  setStream_onlyChanges s (.inr rfl) (.inr rfl) (.inl (by simp))

theorem setResult_setRpos_onlyChanges (v : Word) (k : Nat) :
    OnlyChanges [.result, .rpos S] s ((s.setResult v).setRpos S k) :=
  ((setResult_onlyChanges s v).mono (by simp)).trans ((setRpos_onlyChanges _ S k).mono (by simp))

theorem clearStream_append_onlyChanges (bits : List Bool) :
    OnlyChanges [.wbits S, .rpos S, .bytes S] s ((s.clearStream S).append S bits) :=
  ((setCounts_onlyChanges s S 0 0).mono (by simp)).trans ((append_onlyChanges _ S bits).mono (by simp))

theorem byte_clearStream_append {T : StreamId} {a : Nat} (bits : List Bool) (h : T ≠ S ∨ bytesOf bits.length ≤ a) :
    ((s.clearStream S).append S bits).byte T a = s.byte T a := by
  rw [State.byte_append_other S (s.clearStream S) bits (by simpa using h)]
  exact State.byte_setStream_counts S s 0 0 T a

end Updates

end Sys2Proof.Machine
end

section
/-!
PROOF. What every command can answer, said once (`exec_answer`): an error of the table of causes (60_exceptions.md R232), the
fault of HUF_MWRITE, or a completion within the command's frame. The statements over all commands follow from it.
-/
namespace Sys2Proof.Machine

/-! ## The answers of a command -/

/-- Command i can raise e with this ERRPOS at s: the code is one of the command's, or the term is ill-formed; ERRPOS is that of
R232; and e is UNINITIALIZED_STATE exactly when the mode is missing. -/
structure CanRaise (i : Instr) (s : State) (e : ErrCode) (pos : Nat) : Prop where
  code : e.code ∈ errorCodes i ∨ i.wf = false
  pos : pos = if e = .streamUnderrun ∨ e = .corruptData then (s.stream (cursorStream i)).rpos else 0
  mode : e = .uninitializedState ↔ modeMissing i s

/-- State t can be the state in which command i completes from s: the mode is there, and only the parts and the bytes that the
command writes differ. -/
structure CanComplete (i : Instr) (s t : State) : Prop where
  frame : OnlyChanges (partsWritten i) s t
  bytes : ∀ S a, ¬ StoresTo i s S a → t.byte S a = s.byte S a
  mode : ¬ modeMissing i s

/-- An answer that command i can give at s. -/
inductive Answer (i : Instr) (s : State) : Result → Prop where
  | fail {e : ErrCode} {pos : Nat} (h : CanRaise i s e pos) : Answer i s (fail i e pos s)
  | fault (f : Fault) (h : ¬ modeMissing i s) : Answer i s (.fault f)
  | next {t : State} (h : CanComplete i s t) : Answer i s (.next t)

section Answers

variable {i : Instr} {s : State}

/-- A failure other than STREAM_UNDERRUN and CORRUPT_DATA, of a command whose mode is there. -/
theorem Answer.fail_at_zero {e : ErrCode} (hcode : e.code ∈ errorCodes i ∨ i.wf = false)
    (he : e ∉ [.streamUnderrun, .corruptData, .uninitializedState]) (hmode : ¬ modeMissing i s) :
    Answer i s (Machine.fail i e 0 s) := by
  simp only [List.mem_cons, List.not_mem_nil, or_false, not_or] at he
  obtain ⟨hunder, hdata, huninit⟩ := he
  exact .fail ⟨hcode, by simp [hunder, hdata], by simp [huninit, hmode]⟩

theorem Answer.fail_uninitialized (hcode : 0x02#8 ∈ errorCodes i) (hmode : modeMissing i s) :
    Answer i s (Machine.fail i .uninitializedState 0 s) :=
  .fail ⟨.inl hcode, rfl, by simp [hmode]⟩

theorem Answer.fail_at_cursor {e : ErrCode} (hcode : e.code ∈ errorCodes i) (he : e ∈ [.streamUnderrun, .corruptData])
    (hmode : ¬ modeMissing i s) : Answer i s (Machine.fail i e (s.stream (cursorStream i)).rpos s) := by
  simp only [List.mem_cons, List.not_mem_nil, or_false] at he
  refine .fail ⟨.inl hcode, by rw [if_pos he], ?_⟩
  obtain rfl | rfl := he <;> simp [hmode]

/-- A command that stores to no buffer completes within its frame. -/
theorem Answer.next_of_frame {t : State} (frame : OnlyChanges (partsWritten i) s t)
    (hbytes : ∀ S, .bytes S ∉ partsWritten i) (hmode : ¬ modeMissing i s) : Answer i s (.next t) :=
  .next ⟨frame, fun S a _ => frame (.bytes S) (hbytes S) a, hmode⟩

end Answers

/-! ## The stream commands -/

section Streams

variable (S : StreamId) (s : State)

theorem setlenCmd_answer (b : BitVec 21) (p : BitVec 3) : Answer (setlenCmd b p S) s (exec (setlenCmd b p S) s) := by
  have hmode : ¬ modeMissing (setlenCmd b p S) s := by cases S <;> exact id
  rw [exec_setlenCmd]
  obtain ⟨-, hanswer⟩ | ⟨-, -, hanswer⟩ := setlenStream_cases S (setlenCmd b p S) s b p <;> rw [hanswer]
  · exact .fail_at_zero (.inl (by cases S <;> exact List.mem_singleton.mpr rfl)) (by decide) hmode
  · refine .next_of_frame ?_ (by cases S <;> simp [partsWritten, setlenCmd]) hmode
    have hframe := setCounts_onlyChanges s S (setlenBits b p) 0
    cases S <;> exact hframe

theorem wf_putCmd (n : BitVec 5) (v : BitVec 16) : (putCmd n v S).wf = (groupWidthOk n && groupValueOk n v) := by
  cases S <;> rfl

theorem wf_getCmd (n : BitVec 5) : (getCmd n S).wf = groupWidthOk n := by cases S <;> rfl

theorem storedRange_putCmd (n : BitVec 5) (v : BitVec 16) : storedRange (putCmd n v S) s =
    some (S, (s.stream S).wbits / 8, bytesOf ((s.stream S).wbits + n.toNat)) := by cases S <;> rfl

theorem storedRange_wrCmd (a : BitVec 16) (d : Byte) :
    storedRange (wrCmd a d S) s = some (S, a.toNat, a.toNat + 1) := by cases S <;> rfl

/-- What is not stored to, as the condition under which an append keeps a byte. -/
theorem not_storesTo_iff {i : Instr} {s : State} {S T : StreamId} {first past a : Nat}
    (h : storedRange i s = some (S, first, past)) : ¬ StoresTo i s T a ↔ T ≠ S ∨ a < first ∨ past ≤ a := by
  simp only [StoresTo, h, Option.some.injEq, Prod.mk.injEq]
  constructor
  · intro hno
    by_contra hcon
    simp only [not_or, not_not, not_lt, not_le] at hcon
    exact hno ⟨first, past, ⟨hcon.1.symm, rfl, rfl⟩, hcon.2.1, hcon.2.2⟩
  · rintro hT ⟨f, q, ⟨rfl, rfl, rfl⟩, hle, hlt⟩
    simp at hT
    omega

theorem putCmd_answer (n : BitVec 5) (v : BitVec 16) : Answer (putCmd n v S) s (exec (putCmd n v S) s) := by
  have hmode : ¬ modeMissing (putCmd n v S) s := by cases S <;> exact id
  rw [exec_putCmd]
  obtain ⟨hwf, hanswer⟩ | ⟨-, -, hanswer⟩ | ⟨-, -, hanswer⟩ := putStream_cases S (putCmd n v S) s n v <;> rw [hanswer]
  · exact .fail_at_zero (.inr ((wf_putCmd S n v).trans hwf)) (by decide) hmode
  · exact .fail_at_zero (.inl (by cases S <;> exact List.mem_singleton.mpr rfl)) (by decide) hmode
  · have hframe := append_onlyChanges s S (natToBits n.toNat v.toNat)
    refine .next ⟨by cases S <;> exact hframe, fun T a ha => State.byte_append_other S s _ ?_, hmode⟩
    rw [natToBits_length]
    exact (not_storesTo_iff (storedRange_putCmd S s n v)).mp ha

theorem getCmd_answer (n : BitVec 5) : Answer (getCmd n S) s (exec (getCmd n S) s) := by
  have hmode : ¬ modeMissing (getCmd n S) s := by cases S <;> exact id
  have hcursor : (s.stream (cursorStream (getCmd n S))).rpos = (s.stream S).rpos := by cases S <;> rfl
  rw [exec_getCmd]
  obtain ⟨hwf, hanswer⟩ | ⟨-, -, hanswer⟩ | ⟨-, -, hanswer⟩ := getStream_cases S (getCmd n S) s n <;> rw [hanswer]
  · exact .fail_at_zero (.inr ((wf_getCmd S n).trans hwf)) (by decide) hmode
  · rw [← hcursor]
    exact .fail_at_cursor (by cases S <;> exact List.mem_singleton.mpr rfl) (by decide) hmode
  · refine .next_of_frame ?_ (by cases S <;> simp [partsWritten, getCmd]) hmode
    have hframe := setResult_setRpos_onlyChanges s S (BitVec.ofNat 32 (s.number S (s.stream S).rpos n.toNat))
      ((s.stream S).rpos + n.toNat)
    cases S <;> exact hframe

theorem wrCmd_answer (a : BitVec 16) (d : Byte) : Answer (wrCmd a d S) s (exec (wrCmd a d S) s) := by
  have hmode : ¬ modeMissing (wrCmd a d S) s := by cases S <;> exact id
  rw [exec_wrCmd]
  obtain ⟨-, hanswer⟩ | ⟨-, hanswer⟩ := wrStream_cases S (wrCmd a d S) s a d <;> rw [hanswer]
  · exact .fail_at_zero (.inl (by cases S <;> exact List.mem_singleton.mpr rfl)) (by decide) hmode
  · have hframe := writeByte_onlyChanges s S a.toNat d
    refine .next ⟨by cases S <;> exact hframe, fun T x hx => ?_, hmode⟩
    rw [State.byte_writeByte, if_neg]
    rintro ⟨rfl, rfl⟩
    have := (not_storesTo_iff (storedRange_wrCmd T s a d)).mp hx
    simp at this

theorem rdCmd_answer (a : BitVec 16) : Answer (rdCmd a S) s (exec (rdCmd a S) s) := by
  have hmode : ¬ modeMissing (rdCmd a S) s := by cases S <;> exact id
  rw [exec_rdCmd]
  obtain ⟨-, hanswer⟩ | ⟨-, hanswer⟩ := rdStream_cases S (rdCmd a S) s a <;> rw [hanswer]
  · exact .fail_at_zero (.inl (by cases S <;> exact List.mem_singleton.mpr rfl)) (by decide) hmode
  · refine .next_of_frame ?_ (by cases S <;> simp [partsWritten, rdCmd]) hmode
    have hframe := setResult_onlyChanges s ((s.byte S a.toNat).setWidth 32)
    cases S <;> exact hframe

theorem clrCmd_answer : Answer (clrCmd S) s (exec (clrCmd S) s) := by
  rw [exec_clrCmd, clrStream_eq]
  have hframe := setCounts_onlyChanges s S 0 0
  cases S <;> exact .next_of_frame hframe (by simp [partsWritten, clrCmd]) id

theorem rewindCmd_answer : Answer (rewindCmd S) s (exec (rewindCmd S) s) := by
  rw [exec_rewindCmd, rewindStream_eq]
  have hframe := setRpos_onlyChanges s S 0
  cases S <;> exact .next_of_frame hframe (by simp [partsWritten, rewindCmd]) id

end Streams

/-! ## The other commands -/

section Others

variable (s : State)

/-- A command that completes with a value for RESULT alone. -/
theorem setResult_answer {i : Instr} (v : Word) (hparts : partsWritten i = [.result]) (hmode : ¬ modeMissing i s) :
    Answer i s (.next (s.setResult v)) :=
  .next_of_frame (hparts ▸ setResult_onlyChanges s v) (by simp [hparts]) hmode

theorem profAdd_answer (a : Symbol) (k : BitVec 16) : Answer (.profAdd a k) s (execProfAdd a k s) := by
  obtain ⟨-, hanswer⟩ | ⟨-, hanswer⟩ := execProfAdd_cases s a k <;> rw [hanswer]
  · exact .fail_at_zero (.inl (by simp [errorCodes, ErrCode.code])) (by decide) id
  · exact .next_of_frame (setProfile_onlyChanges s _ _) (by simp [partsWritten]) id

theorem flBuild_answer : Answer .flBuild s (execFlBuild s) := by
  obtain ⟨-, hanswer⟩ | ⟨-, hanswer⟩ := execFlBuild_cases s <;> rw [hanswer]
  · exact .fail_at_zero (.inl (by decide)) (by decide) id
  · exact .next_of_frame (loadFixed_onlyChanges s _ _) (by simp [partsWritten]) id

theorem flDec_answer : Answer .flDec s (execFlDec s) := by
  obtain ⟨hmode, hanswer⟩ | ⟨hmode, -, hanswer⟩ | ⟨hmode, -, -, hanswer⟩ | ⟨hmode, -, -, -, hanswer⟩ := execFlDec_cases s <;>
    rw [hanswer]
  · exact .fail_uninitialized (by decide) hmode
  · exact .next_of_frame ((setResult_onlyChanges s _).mono (by simp [partsWritten])) (by simp [partsWritten])
      (not_not.mpr hmode)
  · exact .fail_at_cursor (by decide) (by decide) (not_not.mpr hmode)
  · exact .next_of_frame (setResult_setRpos_onlyChanges s .P _ _) (by simp [partsWritten]) (not_not.mpr hmode)

theorem flMwrite_answer : Answer .flMwrite s (execFlMwrite s) := by
  obtain ⟨hmode, hanswer⟩ | ⟨hmode, hanswer⟩ := execFlMwrite_cases s <;> rw [hanswer]
  · exact .fail_uninitialized (by decide) hmode
  · refine .next ⟨clearStream_append_onlyChanges s .M _, fun T a ha => byte_clearStream_append s .M _ ?_, not_not.mpr hmode⟩
    simpa using (not_storesTo_iff (i := .flMwrite) (first := 0) rfl).mp ha

theorem flMread_answer : Answer .flMread s (execFlMread s) := by
  obtain ⟨-, hanswer⟩ | ⟨w, entries, -, hanswer⟩ := execFlMread_cases s <;> rw [hanswer]
  · exact .fail_at_zero (.inl (by decide)) (by decide) id
  · exact .next_of_frame (((loadFixed_onlyChanges s _ _).mono (by simp [partsWritten])).trans
      ((setRpos_onlyChanges _ .M _).mono (by simp [partsWritten]))) (by simp [partsWritten]) id

theorem hufBuild_answer : Answer .hufBuild s (execHufBuild s) := by
  obtain ⟨-, hanswer⟩ | ⟨-, hanswer⟩ := execHufBuild_cases s <;> rw [hanswer]
  · exact .fail_at_zero (.inl (by decide)) (by decide) id
  · exact .next_of_frame (loadHuff_onlyChanges s _ _ _ _) (by simp [partsWritten]) id

theorem hufDec_answer : Answer .hufDec s (execHufDec s) := by
  obtain ⟨hmode, hanswer⟩ | ⟨hmode, -, hanswer⟩ | ⟨hmode, -, -, hanswer⟩ | ⟨a, pos, hmode, -, -, hanswer⟩ :=
    execHufDec_cases s <;> rw [hanswer]
  · exact .fail_uninitialized (by decide) hmode
  · exact .next_of_frame ((setResult_onlyChanges s _).mono (by simp [partsWritten])) (by simp [partsWritten])
      (not_not.mpr hmode)
  · exact .fail_at_cursor (by decide) (by decide) (not_not.mpr hmode)
  · exact .next_of_frame (setResult_setRpos_onlyChanges s .P _ _) (by simp [partsWritten]) (not_not.mpr hmode)

theorem hufMwrite_answer : Answer .hufMwrite s (execHufMwrite s) := by
  obtain ⟨hmode, hanswer⟩ | ⟨hmode, -, hanswer⟩ | ⟨bits, hmode, hbits, -, hanswer⟩ := execHufMwrite_cases s <;> rw [hanswer]
  · exact .fail_uninitialized (by decide) hmode
  · exact .fault _ (not_not.mpr hmode)
  · have hrange : storedRange .hufMwrite s = some (.M, 0, bytesOf bits.length) := by simp [storedRange, hbits]
    refine .next ⟨clearStream_append_onlyChanges s .M _, fun T a ha => byte_clearStream_append s .M _ ?_, not_not.mpr hmode⟩
    simpa using (not_storesTo_iff hrange).mp ha

theorem hufMread_answer : Answer .hufMread s (execHufMread s) := by
  obtain ⟨-, hanswer⟩ | ⟨t, -, hanswer⟩ := execHufMread_cases s <;> rw [hanswer]
  · exact .fail_at_zero (.inl (by decide)) (by decide) id
  · exact .next_of_frame (((loadHuff_onlyChanges s _ _ _ _).mono (by simp [partsWritten])).trans
      ((setRpos_onlyChanges _ .M _).mono (by simp [partsWritten]))) (by simp [partsWritten]) id

theorem nodeRd_answer (j : BitVec 9) : Answer (.nodeRd j) s (execNodeRd j s) := by
  obtain ⟨hmode, hanswer⟩ | ⟨hmode, -, hanswer⟩ | ⟨hmode, -, hanswer⟩ := execNodeRd_cases s j <;> rw [hanswer]
  · exact .fail_uninitialized (by simp [errorCodes]) hmode
  · exact .fail_at_zero (.inl (by simp [errorCodes, ErrCode.code])) (by decide) (not_not.mpr hmode)
  · exact setResult_answer s _ rfl (not_not.mpr hmode)

theorem nodeWt_answer (j : BitVec 9) : Answer (.nodeWt j) s (execNodeWt j s) := by
  obtain ⟨hmode, hanswer⟩ | ⟨hmode, -, hanswer⟩ | ⟨hmode, -, hanswer⟩ := execNodeWt_cases s j <;> rw [hanswer]
  · exact .fail_uninitialized (by simp [errorCodes]) hmode
  · exact .fail_at_zero (.inl (by simp [errorCodes, ErrCode.code])) (by decide) (not_not.mpr hmode)
  · exact setResult_answer s _ rfl (not_not.mpr hmode)

theorem enc_answer (a : Symbol) : Answer (.enc a) s (execEnc a s) := by
  obtain ⟨hmode, hanswer⟩ | ⟨hmode, -, hanswer⟩ | ⟨hmode, -, -, hanswer⟩ | ⟨hmode, -, -, hanswer⟩ := execEnc_cases s a <;>
    rw [hanswer]
  · exact .fail_uninitialized (by simp [errorCodes]) hmode
  · exact .fail_at_zero (.inl (by simp [errorCodes, ErrCode.code])) (by decide) hmode
  · exact .fail_at_zero (.inl (by simp [errorCodes, ErrCode.code])) (by decide) hmode
  · refine .next ⟨append_onlyChanges s .P _, fun T x hx => State.byte_append_other .P s _ ?_, hmode⟩
    simpa [State.codeBits] using (not_storesTo_iff (i := .enc a) rfl).mp hx

theorem wsumCalc_answer : Answer .wsumCalc s (execWsumCalc s) := by
  obtain ⟨hmode, hanswer⟩ | ⟨hmode, hanswer⟩ := execWsumCalc_cases s <;> rw [hanswer]
  · exact .fail_uninitialized (by decide) hmode
  · exact .next_of_frame (((setWsum_onlyChanges s _).mono (by simp [partsWritten])).trans
      ((setResult_onlyChanges _ _).mono (by simp [partsWritten]))) (by simp [partsWritten]) hmode

/-- What every command can answer. -/
theorem exec_answer (i : Instr) : Answer i s (exec i s) := by
  cases i with
  | nop => exact .next_of_frame (.refl _ s) (by simp [partsWritten]) id
  | sreset => exact .next_of_frame (softReset_onlyChanges s) (by simp [partsWritten]) id
  | clrErr => exact .next_of_frame (clearError_onlyChanges s) (by simp [partsWritten]) id
  | pClr => exact clrCmd_answer .P s
  | mClr => exact clrCmd_answer .M s
  | pRewind => exact rewindCmd_answer .P s
  | mRewind => exact rewindCmd_answer .M s
  | pSetlen b p => exact setlenCmd_answer .P s b p
  | mSetlen b p => exact setlenCmd_answer .M s b p
  | pPut n v => exact putCmd_answer .P s n v
  | mPut n v => exact putCmd_answer .M s n v
  | pGet n => exact getCmd_answer .P s n
  | mGet n => exact getCmd_answer .M s n
  | pWr a d => exact wrCmd_answer .P s a d
  | mWr a d => exact wrCmd_answer .M s a d
  | pRd a => exact rdCmd_answer .P s a
  | mRd a => exact rdCmd_answer .M s a
  | profClr => exact .next_of_frame (setProfile_onlyChanges s _ _) (by simp [partsWritten]) id
  | profAdd a k => exact profAdd_answer s a k
  | freqRd a => exact setResult_answer s _ rfl id
  | flBuild => exact flBuild_answer s
  | flDec => exact flDec_answer s
  | flMwrite => exact flMwrite_answer s
  | flMread => exact flMread_answer s
  | hufBuild => exact hufBuild_answer s
  | hufDec => exact hufDec_answer s
  | hufMwrite => exact hufMwrite_answer s
  | hufMread => exact hufMread_answer s
  | nodeRd j => exact nodeRd_answer s j
  | nodeWt j => exact nodeWt_answer s j
  | enc a => exact enc_answer s a
  | codeLen a => exact setResult_answer s _ rfl id
  | codeRd a c => exact setResult_answer s _ rfl id
  | wsumCalc => exact wsumCalc_answer s

end Others

/-- A command that answers a next state has raised or has completed. -/
theorem exec_next_cases {i : Instr} {s t : State} (h : exec i s = .next t) :
    (∃ e pos, CanRaise i s e pos ∧ t = s.raise (encode i) e pos) ∨ CanComplete i s t := by
  have hanswer := exec_answer s i
  rw [h] at hanswer
  generalize hr : (Host.Outcome.next t : Result) = r at hanswer
  cases hanswer with
  | @fail e pos hraise => exact .inl ⟨e, pos, hraise, by rw [fail_eq] at hr; exact Host.Outcome.next.inj hr⟩
  | fault f => cases hr
  | next hcomplete => cases hr; exact .inr hcomplete

end Sys2Proof.Machine
end

section
/-!
PROOF. The statements over every command: precision, causes, the mode's check, the frame, and who writes RESULT.
-/
namespace Sys2Proof.Machine

/-! ## Errors -/

theorem raises_of_eq_fail {i : Instr} {s : State} {e : ErrCode} {pos : Nat} (h : exec i s = fail i e pos s) :
    Raises i s e.code pos :=
  ⟨_, h, rfl, rfl, rfl, rfl, raise_onlyChanges s _ _ _⟩

theorem CanComplete.unchanged {i : Instr} {s t : State} (h : CanComplete i s t) {q : Part} (hq : q ∉ partsWritten i) :
    Unchanged q s t := h.frame q hq

/-- SRESET and CLR_ERR alone write the error registers when they complete. -/
theorem error_notMem_partsWritten {i : Instr} (hsreset : i ≠ .sreset) (hclrErr : i ≠ .clrErr) : .error ∉ partsWritten i := by
  cases i with
  | sreset => exact absurd rfl hsreset
  | clrErr => exact absurd rfl hclrErr
  | _ => simp [partsWritten]

/-- SRESET alone ends the latched word by itself when it completes. -/
theorem latch_notMem_partsWritten {i : Instr} (hsreset : i ≠ .sreset) : .latch ∉ partsWritten i := by
  cases i with
  | sreset => exact absurd rfl hsreset
  | _ => simp [partsWritten]

theorem errcode_of_sreset_or_clrErr {i : Instr} {s t : State} (hi : i = .sreset ∨ i = .clrErr) (h : exec i s = .next t) :
    t.errcode = 0#8 := by
  rcases hi with rfl | rfl <;> cases h <;> rfl

/-- A command that completes from an unlocked state leaves it unlocked. -/
theorem CanComplete.errcode_eq_zero {i : Instr} {s t : State} (h : CanComplete i s t) (hexec : exec i s = .next t)
    (hs : s.errcode = 0#8) : t.errcode = 0#8 := by
  by_cases hi : i = .sreset ∨ i = .clrErr
  · exact errcode_of_sreset_or_clrErr hi hexec
  · obtain ⟨hsreset, hclrErr⟩ := not_or.mp hi
    obtain ⟨hcode, -, -⟩ := h.unchanged (error_notMem_partsWritten hsreset hclrErr)
    exact hcode.trans hs

/-- Settles O17: a raised error is the error entry, and a completed command writes neither the error registers nor the latch. -/
theorem errorsArePrecise : Obligations.ErrorsArePrecise := by
  unfold Obligations.ErrorsArePrecise
  intro i s t hsreset hclrErr hexec
  obtain ⟨e, pos, -, rfl⟩ | hcomplete := exec_next_cases hexec
  · exact .inr ⟨ErrCode.code_ne_zero e, rfl⟩
  · obtain ⟨hcode, hcmd, hpos⟩ := hcomplete.unchanged (error_notMem_partsWritten hsreset hclrErr)
    exact .inl ⟨hcode, hcmd, hpos, hcomplete.unchanged (latch_notMem_partsWritten hsreset)⟩

/-- Settles O18: an unlocked state is locked only by an error that the command can raise. -/
theorem eachCommandRaisesOnlyItsErrors : Obligations.EachCommandRaisesOnlyItsErrors := by
  unfold Obligations.EachCommandRaisesOnlyItsErrors
  intro i s t hwf hs hexec ht
  obtain ⟨e, pos, hraise, rfl⟩ | hcomplete := exec_next_cases hexec
  · refine ⟨hraise.code.resolve_right (by simp [hwf]), rfl, ?_⟩
    have hcursor : (e.code = 0x0A#8 ∨ e.code = 0x04#8) ↔ (e = .streamUnderrun ∨ e = .corruptData) :=
      or_congr ⟨fun h => ErrCode.code_injective (f := .streamUnderrun) h, fun h => h ▸ rfl⟩
        ⟨fun h => ErrCode.code_injective (f := .corruptData) h, fun h => h ▸ rfl⟩
    rw [State.raise_errpos, State.raise_errcode, hraise.pos]
    simp only [hcursor]
    split_ifs <;> rfl
  · exact absurd (hcomplete.errcode_eq_zero hexec hs) ht

/-- Settles O19: UNINITIALIZED_STATE is what a command raises exactly when its mode is missing, and a command whose mode is
missing does not complete. -/
theorem uninitializedExactlyWhenTheModeIsMissing : Obligations.UninitializedExactlyWhenTheModeIsMissing := by
  unfold Obligations.UninitializedExactlyWhenTheModeIsMissing
  intro i s _ hs
  constructor
  · rintro ⟨t, hexec, hcode, -⟩
    obtain ⟨e, pos, hraise, rfl⟩ | hcomplete := exec_next_cases hexec
    · exact hraise.mode.mp (ErrCode.code_injective hcode)
    · rw [hcomplete.errcode_eq_zero hexec hs] at hcode
      exact absurd hcode (by decide)
  · intro hmissing
    have hanswer := exec_answer s i
    generalize hr : exec i s = r at hanswer
    cases hanswer with
    | fail hraise =>
      obtain rfl := hraise.mode.mpr hmissing
      obtain rfl := hraise.pos
      exact raises_of_eq_fail hr
    | fault f hmode => exact absurd hmissing hmode
    | next hcomplete => exact absurd hmissing hcomplete.mode

/-! ## Frames -/

/-- Settles O20. -/
theorem everyCommandChangesOnlyWhatItWrites : Obligations.EveryCommandChangesOnlyWhatItWrites := by
  unfold Obligations.EveryCommandChangesOnlyWhatItWrites
  intro i s t hexec
  obtain ⟨e, pos, -, rfl⟩ | hcomplete := exec_next_cases hexec
  · exact .inr ⟨ErrCode.code_ne_zero e, rfl, rfl, raise_onlyChanges s _ e pos⟩
  · exact .inl ⟨hcomplete.frame, hcomplete.bytes⟩

/-- Settles O21: RESULT is in the frame of these twelve commands and of SRESET, and none of the twelve writes the error
registers. -/
theorem onlyValueCommandsWriteResult : Obligations.OnlyValueCommandsWriteResult := by
  unfold Obligations.OnlyValueCommandsWriteResult
  intro i s t hexec hsreset hresult
  obtain ⟨e, pos, -, rfl⟩ | hcomplete := exec_next_cases hexec
  · exact absurd rfl hresult
  · have hwrites : .result ∈ partsWritten i := by
      by_contra hno
      exact hresult (hcomplete.unchanged hno)
    have hclrErr : i ≠ .clrErr := by
      rintro rfl
      simp [partsWritten] at hwrites
    refine ⟨(hcomplete.unchanged (error_notMem_partsWritten hsreset hclrErr)).1, ?_⟩
    cases i <;> simp [partsWritten] at hwrites hsreset ⊢

/-- Settles O16: the frame of CLR_ERR. -/
theorem nopAndClrErrDoOnlyTheirEffect : Obligations.NopAndClrErrDoOnlyTheirEffect := by
  unfold Obligations.NopAndClrErrDoOnlyTheirEffect
  exact fun s => ⟨rfl, s.clearError, rfl, rfl, rfl, rfl, rfl, clearError_onlyChanges s⟩

end Sys2Proof.Machine
end

section
/-!
PROOF. The host port and the command lifecycle (10_state.md R36): CMD writes, the run of the latched word, register reads, and
the lock (60_exceptions.md R235, R237).
-/
namespace Sys2Proof.Machine

/-! ## The run of the latched word -/

theorem complete_next (t : State) : complete (.next t) = .next (t.setLatched none) := rfl

/-- Settles O6: the two steps that run the latched word, which decodes to the command. -/
theorem stepRunsTheLatchedCommand : Obligations.StepRunsTheLatchedCommand := by
  unfold Obligations.StepRunsTheLatchedCommand
  intro s w i hlatched hdec
  refine ⟨fun hhost => ?_, fun rest hhost => ?_, complete_next, fun _ => rfl⟩
  · rw [step_runs_last hhost hlatched, runCommand_ok s hdec]
  · rw [step_runs hhost hlatched, runCommand_ok _ hdec]

/-- The run of a word is the meaning of its command, after which the latch is empty, or the error entry of ILLEGAL_COMMAND. -/
theorem runCommand_next_cases {w : Word} {s t : State} (h : runCommand w s = .next t) :
    (∃ i u, decode w = .ok i ∧ exec i s = .next u ∧ t = u.setLatched none) ∨
    (∃ r, decode w = .error r ∧ t = s.raise w .illegalCommand 0) := by
  cases hdec : decode w with
  | ok i =>
    rw [runCommand_ok s hdec] at h
    cases hexec : exec i s with
    | next u =>
      rw [hexec, complete_next] at h
      exact .inl ⟨i, u, rfl, hexec, (Host.Outcome.next.inj h).symm⟩
    | fault f => rw [hexec] at h; cases h
    | refused r => rw [hexec] at h; cases h
  | error r =>
    rw [runCommand_error s hdec] at h
    exact .inr ⟨r, rfl, (Host.Outcome.next.inj h).symm⟩

theorem latched_of_runCommand {w : Word} {s t : State} (h : runCommand w s = .next t) : t.latched = none := by
  obtain ⟨i, u, -, -, rfl⟩ | ⟨r, -, rfl⟩ := runCommand_next_cases h
  · rfl
  · rfl

/-! ## The host's accesses -/

theorem busy_eq_true_iff {s : State} : s.busy = true ↔ s.latched ≠ none := by
  rw [State.busy, Option.isSome_iff_ne_none]

theorem busy_eq_false_iff {s : State} : s.busy = false ↔ s.latched = none := by
  rw [State.busy, Option.isSome_eq_false_iff, Option.isNone_iff_eq_none]

theorem writeCmd_of_busy {w : Word} {s : State} (hbusy : s.latched ≠ none) : s.writeCmd w = s.nextDraw.setOvr := by
  obtain ⟨-, h⟩ | ⟨hidle, -⟩ | ⟨hidle, -⟩ := writeCmd_cases w s
  · exact h
  · exact absurd hidle hbusy
  · exact absurd hidle hbusy

theorem writeCmd_of_idle {w : Word} {s : State} (hidle : s.latched = none) (hw : s.errcode = 0#8 ∨ w ∈ controlWords) :
    s.writeCmd w = s.nextDraw.setLatched (some w) := by
  obtain ⟨hbusy, -⟩ | ⟨-, hlocked, hother, -⟩ | ⟨-, -, h⟩ := writeCmd_cases w s
  · exact absurd hidle hbusy
  · exact absurd hw (by simp [hlocked, hother])
  · exact h

theorem setHost_nextDraw_setOvr_onlyChanges (s : State) (rest : List HostEvent) :
    OnlyChanges [.ovr, .environment] s (s.setHost rest).nextDraw.setOvr :=
  (((setHost_onlyChanges s rest).mono (by simp)).trans ((nextDraw_onlyChanges _).mono (by simp))).trans
    ((setOvr_onlyChanges _).mono (by simp))

theorem hostWrite_other {offset : BitVec 8} (haligned : offset.toNat % 4 = 0) (hoffset : offset ≠ 0x00#8) (x : Word)
    (s : State) : hostWrite 32 offset x s = .next s := by
  rw [hostWrite, if_neg (by simp [accessDefined, haligned]), if_neg hoffset]

theorem hostRead_aligned {offset : BitVec 8} (haligned : offset.toNat % 4 = 0) (s : State) :
    hostRead 32 offset s = .next (s.addRead (s.hostValue offset)) := by
  rw [hostRead, if_neg (by simp [accessDefined, haligned])]

/-- Settles O11. -/
theorem writeToAnyOffsetButCmdIsIgnored : Obligations.WriteToAnyOffsetButCmdIsIgnored := by
  unfold Obligations.WriteToAnyOffsetButCmdIsIgnored
  intro s offset x rest haligned hoffset hhost
  rw [step_host hhost (by simp)]
  exact hostWrite_other haligned hoffset x _

theorem hostValue_setHost (s : State) (rest : List HostEvent) (offset : BitVec 8) :
    (s.setHost rest).hostValue offset = s.hostValue offset := rfl

theorem hostValue_addRead (s : State) (v : Word) (offset : BitVec 8) :
    (s.addRead v).hostValue offset = s.hostValue offset := rfl

theorem step_hostRead {s : State} {offset : BitVec 8} {rest : List HostEvent} (haligned : offset.toNat % 4 = 0)
    (hhost : s.host = .read 32 offset :: rest) :
    step s = .next ((s.setHost rest).addRead (s.hostValue offset)) := by
  rw [step_host hhost (by simp), ← hostValue_setHost s rest]
  exact hostRead_aligned haligned _

theorem setHost_addRead_onlyChanges (s : State) (rest : List HostEvent) (v : Word) :
    OnlyChanges [.environment] s ((s.setHost rest).addRead v) :=
  (setHost_onlyChanges s rest).trans (addRead_onlyChanges _ v)

/-- Settles O10: the value that a read returns does not depend on the host's events, nor on what it has read before. -/
theorem hostReadHasNoSideEffect : Obligations.HostReadHasNoSideEffect := by
  unfold Obligations.HostReadHasNoSideEffect
  intro s offset rest haligned hhost
  have hfirst := step_hostRead haligned hhost
  have hsecond := step_hostRead (s := (s.setHost (.read 32 offset :: rest)).addRead (s.hostValue offset)) haligned rfl
  rw [hostValue_addRead, hostValue_setHost] at hsecond
  have hframe := setHost_addRead_onlyChanges s (.read 32 offset :: rest) (s.hostValue offset)
  refine ⟨_, _, hfirst, hsecond, by simp, by simp, by simp, by simp, hframe, hframe.trans (setHost_addRead_onlyChanges _ _ _)⟩

/-! ## What the host reads -/

theorem hostValue_reserved (s : State) {offset : BitVec 8} (h : 0x64 ≤ offset.toNat) : s.hostValue offset = 0#32 := by
  simp [State.hostValue, reservedOffset, h]

theorem hostValue_idle {s : State} (h : s.busy = false) (offset : BitVec 8) : s.hostValue offset = s.register offset := by
  by_cases hoffset : 0x64 ≤ offset.toNat
  · rw [hostValue_reserved s hoffset, register_reserved s offset hoffset]
  · simp [State.hostValue, reservedOffset, hoffset, h]

theorem hostValue_status_busy {s : State} (h : s.busy = true) : s.hostValue 0x04#8 = s.statusWordBusy := by
  simp [State.hostValue, reservedOffset, h]

theorem hostValue_busy {s : State} (h : s.busy = true) {offset : BitVec 8} (hstatus : offset ≠ 0x04#8)
    (hoffset : offset.toNat < 0x64) : s.hostValue offset = Config.busyRead s.draws offset := by
  simp [State.hostValue, reservedOffset, h, hstatus, hoffset]

theorem statusWordBusy_bits (s : State) :
    s.statusWordBusy.getLsbD 0 = true ∧ s.statusWordBusy.getLsbD 2 = s.ovr := by
  cases h : s.ovr <;> simp [State.statusWordBusy, statusFreeMask, h]

/-- Settles O7: a CMD write by its three cases, the run of the latched word, and reads while BUSY = 1 and BUSY = 0. -/
theorem cmdWriteFollowsTheLifecycle : Obligations.CmdWriteFollowsTheLifecycle := by
  unfold Obligations.CmdWriteFollowsTheLifecycle
  refine ⟨fun s w rest hhost => ?write, fun s w hlatched => ⟨fun hhost => step_runs_last hhost hlatched,
    fun rest hhost => step_runs hhost hlatched⟩, fun w s => ?run, fun s hbusy => ?busy, fun s _ h => hostValue_reserved s h,
    fun s hidle => hostValue_idle hidle⟩
  case write =>
    rw [step_hostWrite_cmd hhost, busy_eq_true_iff, busy_eq_false_iff]
    refine ⟨fun hbusy => ?_, fun hidle hlocked hw => ?_, fun hidle hw => ?_⟩
    · rw [writeCmd_of_busy (s := s.setHost rest) hbusy]
      exact ⟨_, rfl, rfl, rfl, setHost_nextDraw_setOvr_onlyChanges s rest⟩
    · rw [writeCmd_of_locked (s := s.setHost rest) hidle hlocked hw]
    · rw [writeCmd_of_idle (s := s.setHost rest) hidle hw]
      exact ⟨_, rfl, rfl, rfl, rfl, setHost_nextDraw_setLatched_onlyChanges s rest _⟩
  case run =>
    refine ⟨fun i t hdec hexec => ?_, fun r hdec => ?_, fun t h => busy_eq_false_iff.mpr (latched_of_runCommand h)⟩
    · rw [runCommand_ok s hdec, hexec, complete_next]
    · exact ⟨_, runCommand_error s hdec, rfl, rfl, rfl, rfl, raise_onlyChanges s w _ _⟩
  case busy =>
    rw [hostValue_status_busy hbusy]
    obtain ⟨hbit0, hbit2⟩ := statusWordBusy_bits s
    exact ⟨hbit0, hbit2, fun offset hstatus hoffset => hostValue_busy hbusy hstatus hoffset⟩

/-! ## The lock -/

theorem decode_controlWords {w : Word} {i : Instr} (hw : w ∈ controlWords) (h : decode w = .ok i) :
    (i = .nop ∧ w = 0x00000000#32) ∨ (i = .sreset ∧ w = 0x01000000#32) ∨ (i = .clrErr ∧ w = 0x02000000#32) := by
  rcases mem_controlWords_iff.mp hw with rfl | rfl | rfl
  · exact .inl ⟨(Except.ok.inj h).symm, rfl⟩
  · exact .inr (.inl ⟨(Except.ok.inj h).symm, rfl⟩)
  · exact .inr (.inr ⟨(Except.ok.inj h).symm, rfl⟩)

theorem decode_controlWords_ne_error {w : Word} {r : Reject} (hw : w ∈ controlWords) : decode w ≠ .error r := by
  rcases mem_controlWords_iff.mp hw with rfl | rfl | rfl <;> exact fun h => by cases h

/-- What R237 says of a step: the error registers are kept, or the error and OVR are cleared by one of the three. -/
def KeepsFirstError (s t : State) (cleared : Prop) : Prop :=
  (t.errcode = s.errcode ∧ t.errcmd = s.errcmd ∧ t.errpos = s.errpos) ∨ (t.errcode = 0#8 ∧ t.ovr = false ∧ cleared)

/-- The run of a control word keeps the error registers, or is that of SRESET or CLR_ERR, which clear them. -/
theorem runCommand_controlWord {w : Word} {s t : State} (hw : w ∈ controlWords) (h : runCommand w s = .next t) :
    KeepsFirstError s t (w = 0x01000000#32 ∨ w = 0x02000000#32) := by
  obtain ⟨i, u, hdec, hexec, rfl⟩ | ⟨r, hdec, -⟩ := runCommand_next_cases h
  · obtain ⟨rfl, -⟩ | ⟨rfl, rfl⟩ | ⟨rfl, rfl⟩ := decode_controlWords hw hdec
    · cases hexec
      exact .inl ⟨rfl, rfl, rfl⟩
    · cases hexec
      exact .inr ⟨rfl, rfl, .inl rfl⟩
    · cases hexec
      exact .inr ⟨rfl, rfl, .inr rfl⟩
  · exact absurd hdec (decode_controlWords_ne_error hw)

/-- What a host event but a power-on reset can answer: a CMD write, a read, or the state as it is. -/
theorem hostEvent_next_cases {e : HostEvent} {s t : State} (h : hostEvent e s = .next t) :
    (∃ bits offset w, e = .write bits offset w ∧ t = s.writeCmd w) ∨ (∃ v, t = s.addRead v) ∨ t = s ∨
    (e = .powerOn ∧ powerOnReset s = .next t) := by
  cases e with
  | write bits offset w =>
    simp only [hostEvent, hostWrite] at h
    split_ifs at h
    · exact .inl ⟨bits, offset, w, rfl, (Host.Outcome.next.inj h).symm⟩
    · exact .inr (.inr (.inl (Host.Outcome.next.inj h).symm))
  | read bits offset =>
    simp only [hostEvent, hostRead] at h
    split_ifs at h
    exact .inr (.inl ⟨_, (Host.Outcome.next.inj h).symm⟩)
  | awaitIdle => exact .inr (.inr (.inl (Host.Outcome.next.inj h).symm))
  | powerOn => exact .inr (.inr (.inr ⟨rfl, h⟩))

theorem lockOk_of_latched_none {t : State} (h : t.latched = none) : LockOk t := fun w hw => by simp [h] at hw

theorem LockOk.congr {s t : State} (h : LockOk s) (hlatched : t.latched = s.latched) (hcode : t.errcode = s.errcode) :
    LockOk t := fun w hw hlocked => h w (hlatched ▸ hw) (hcode ▸ hlocked)

theorem writeCmd_lockOk {s : State} (w : Word) (h : LockOk s) : LockOk (s.writeCmd w) := by
  obtain ⟨-, heq⟩ | ⟨-, -, -, heq⟩ | ⟨-, hw, heq⟩ := writeCmd_cases w s <;> rw [heq]
  · exact h.congr rfl rfl
  · exact h
  · intro x hx hlocked
    obtain rfl := Option.some.inj hx
    exact hw.resolve_left hlocked

/-- A CMD write leaves the error registers. -/
theorem writeCmd_errors (w : Word) (s : State) :
    (s.writeCmd w).errcode = s.errcode ∧ (s.writeCmd w).errcmd = s.errcmd ∧ (s.writeCmd w).errpos = s.errpos := by
  obtain ⟨-, heq⟩ | ⟨-, -, -, heq⟩ | ⟨-, -, heq⟩ := writeCmd_cases w s <;> rw [heq] <;> exact ⟨rfl, rfl, rfl⟩

/-- LockOk is kept by every step (60_exceptions.md R235). -/
theorem step_lockOk {s t : State} (h : LockOk s) (hstep : step s = .next t) : LockOk t := by
  obtain ⟨-, -, heq⟩ | ⟨w, -, -, heq⟩ | ⟨w, rest, -, -, heq⟩ | ⟨rest, -, -, heq⟩ | ⟨e, rest, -, -, heq⟩ := step_cases s <;>
    rw [heq] at hstep
  · exact Host.Outcome.next.inj hstep ▸ h
  · exact lockOk_of_latched_none (latched_of_runCommand hstep)
  · exact lockOk_of_latched_none (latched_of_runCommand hstep)
  · exact Host.Outcome.next.inj hstep ▸ h.congr rfl rfl
  · obtain ⟨-, -, w, -, rfl⟩ | ⟨v, rfl⟩ | rfl | ⟨-, hreset⟩ := hostEvent_next_cases hstep
    · exact writeCmd_lockOk w (h.congr rfl rfl)
    · exact h.congr rfl rfl
    · exact h.congr rfl rfl
    · exact Host.Outcome.next.inj hreset ▸ lockOk_of_latched_none rfl

/-- Settles O9: a locked block runs control words alone, and a host event but a power-on reset leaves the error registers. -/
theorem lockKeepsTheFirstError : Obligations.LockKeepsTheFirstError := by
  unfold Obligations.LockKeepsTheFirstError
  intro s t hlock hlocked hstep
  refine ⟨step_lockOk hlock hstep, ?_⟩
  have hcleared {w : Word} (hlatched : s.latched = some w) (hw : w = 0x01000000#32 ∨ w = 0x02000000#32) :
      s.latched = some 0x01000000#32 ∨ s.latched = some 0x02000000#32 ∨ s.host.head? = some .powerOn :=
    or_assoc.mp (.inl (by simpa [hlatched] using hw))
  obtain ⟨-, -, heq⟩ | ⟨w, -, hlatched, heq⟩ | ⟨w, rest, -, hlatched, heq⟩ | ⟨rest, -, -, heq⟩ | ⟨e, rest, hhost, -, heq⟩ :=
    step_cases s <;> rw [heq] at hstep
  · exact .inl (Host.Outcome.next.inj hstep ▸ ⟨rfl, rfl, rfl⟩)
  · exact (runCommand_controlWord (hlock w hlatched hlocked) hstep).imp_right fun h => h.imp_right (.imp_right (hcleared hlatched))
  · exact (runCommand_controlWord (hlock w hlatched hlocked) hstep).imp_right fun h => h.imp_right (.imp_right (hcleared hlatched))
  · exact .inl (Host.Outcome.next.inj hstep ▸ ⟨rfl, rfl, rfl⟩)
  · obtain ⟨-, -, w, -, rfl⟩ | ⟨v, rfl⟩ | rfl | ⟨rfl, hreset⟩ := hostEvent_next_cases hstep
    · exact .inl (writeCmd_errors w _)
    · exact .inl ⟨rfl, rfl, rfl⟩
    · exact .inl ⟨rfl, rfl, rfl⟩
    · cases hreset
      exact .inr ⟨rfl, rfl, .inr (.inr (by simp [hhost]))⟩

end Sys2Proof.Machine
end

section
/-!
PROOF. The register window (10_state.md R24, R25) and the reset values (70_reset_and_hazards.md R260).
-/
namespace Sys2Proof.Machine

/-! ## STATUS -/

/-- The word that STATUS reads for these values of its four fields (10_state.md R25). -/
def statusOf (busy err ovr : Bool) (mode : Mode) : Word :=
  (BitVec.ofBool busy).setWidth 32 ||| (BitVec.ofBool err).setWidth 32 <<< 1 |||
    (BitVec.ofBool ovr).setWidth 32 <<< 2 ||| mode.code.setWidth 32 <<< 4

theorem register_status (s : State) : s.register 0x04#8 = statusOf s.busy s.err s.ovr s.mode := rfl

theorem statusOf_fields (busy err ovr : Bool) (mode : Mode) :
    (statusOf busy err ovr mode).getLsbD 0 = busy ∧ (statusOf busy err ovr mode).getLsbD 1 = err ∧
    (statusOf busy err ovr mode).getLsbD 2 = ovr ∧ (statusOf busy err ovr mode).extractLsb' 4 2 = mode.code ∧
    (statusOf busy err ovr mode).toNat < 2 ^ 6 ∧ (statusOf busy err ovr mode).getLsbD 3 = false := by
  cases mode <;> revert busy err ovr <;> decide

theorem statusOf_unused_bits (busy err ovr : Bool) (mode : Mode) {k : Nat} (h3 : k = 3 ∨ 6 ≤ k) :
    (statusOf busy err ovr mode).getLsbD k = false := by
  obtain ⟨-, -, -, -, hlt, hbit3⟩ := statusOf_fields busy err ovr mode
  obtain rfl | hk := h3
  · exact hbit3
  · exact BitVec.testBit_toNat _ ▸ Nat.testBit_lt_two_pow (hlt.trans_le (Nat.pow_le_pow_right (by decide) hk))

/-- Settles O14: the four fields, and the bits outside them. -/
theorem statusReadsItsFields : Obligations.StatusReadsItsFields := by
  unfold Obligations.StatusReadsItsFields
  intro s
  rw [register_status]
  obtain ⟨hbusy, herr, hovr, hmode, -⟩ := statusOf_fields s.busy s.err s.ovr s.mode
  refine ⟨hbusy, ?_, hovr, ?_, fun k h0 h1 h2 h4 h5 => statusOf_unused_bits _ _ _ _ (by omega)⟩
  · rw [herr, State.err, decide_eq_true_iff]
  · rw [hmode]
    cases s.mode <;> rfl

/-! ## The other registers -/

/-- A register that holds a value of fewer bits reads below the bound of those bits. -/
theorem setWidth_toNat_lt {n : Nat} (x : BitVec n) : (x.setWidth 32).toNat < 2 ^ n :=
  (BitVec.toNat_setWidth 32 x ▸ Nat.mod_le _ _).trans_lt x.isLt

theorem ofNat_toNat_of_lt {k bound : Nat} (h : k < bound) (hbound : bound ≤ 2 ^ 32) :
    (BitVec.ofNat 32 k).toNat = k ∧ (BitVec.ofNat 32 k).toNat < bound := by
  have heq : (BitVec.ofNat 32 k).toNat = k := by rw [BitVec.toNat_ofNat, Nat.mod_eq_of_lt (h.trans_le hbound)]
  exact ⟨heq, heq.symm ▸ h⟩

theorem tree_symbols_length_le {t : Tree} (h : t.symbols.Nodup) : t.symbols.length ≤ 256 := by
  have hsub := h.subperm (fun a _ => mem_allSymbols a)
  simpa using hsub.length_le

/-- ALPHA is at most 256 in every mode (10_state.md R37). -/
theorem TableOk.alpha_le {s : State} (h : TableOk s) : s.alpha.toNat ≤ 256 := by
  unfold TableOk at h
  cases hmode : s.mode <;> simp only [hmode] at h
  · simp [h.alpha]
  · exact h.alpha_le
  · obtain ⟨t, ht⟩ := h.tree
    exact ht.alpha ▸ tree_symbols_length_le ht.distinct

/-- Settles O13: each register by what it holds; the counts are bounded by the capacities, the parameters by their ranges. -/
theorem registersReadZeroAboveTheirUsedBits : Obligations.RegistersReadZeroAboveTheirUsedBits := by
  unfold Obligations.RegistersReadZeroAboveTheirUsedBits
  intro s hinv
  obtain ⟨hpcap_pos, hpcap, hmcap_ge, hmcap⟩ := hinv.legal
  have hp := hinv.payload.wbits_le
  have hpr := hinv.payload.rpos_le
  have hm := hinv.metadata.wbits_le
  have hmr := hinv.metadata.rpos_le
  have hwsum : s.wsum.toNat ≤ (2 ^ 32 - 1) * 255 := hinv.wsum
  obtain ⟨-, -, -, -, hstatus, hbit3⟩ := statusOf_fields s.busy s.err s.ovr s.mode
  have hcount {k : Nat} (hk : k < 2 ^ 20) := ofNat_toNat_of_lt hk (by decide)
  have hbytes {k : Nat} (hk : k < 2 ^ 17) := ofNat_toNat_of_lt hk (by decide)
  have hpad {k : Nat} (hk : k < 2 ^ 3) := ofNat_toNat_of_lt hk (by decide)
  obtain ⟨hpw, hpw'⟩ := hcount (k := s.p.wbits) (by omega)
  obtain ⟨hpc, hpc'⟩ := hcount (k := s.p.rpos) (by omega)
  obtain ⟨hpb, hpb'⟩ := hbytes (k := bytesOf s.p.wbits) (by unfold bytesOf; omega)
  obtain ⟨hpp, hpp'⟩ := hpad (k := padOf s.p.wbits) (by unfold padOf; omega)
  obtain ⟨hmw, hmw'⟩ := hcount (k := s.m.wbits) (by omega)
  obtain ⟨hmc, hmc'⟩ := hcount (k := s.m.rpos) (by omega)
  obtain ⟨hmb, hmb'⟩ := hbytes (k := bytesOf s.m.wbits) (by unfold bytesOf; omega)
  obtain ⟨hmp, hmp'⟩ := hpad (k := padOf s.m.wbits) (by unfold padOf; omega)
  obtain ⟨hcp, hcp'⟩ := hbytes (k := s.config.pcap) (by omega)
  obtain ⟨hcm, hcm'⟩ := hbytes (k := s.config.mcap) (by omega)
  refine ⟨rfl, hstatus, hbit3, setWidth_toNat_lt _, setWidth_toNat_lt _, ?alpha, setWidth_toNat_lt _, setWidth_toNat_lt _,
    setWidth_toNat_lt _, setWidth_toNat_lt _, ?wsum, hpw, hpw', hpc, hpc', hpb, hpb', hpp, hpp', hmw, hmw', hmc, hmc', hmb,
    hmb', hmp, hmp', rfl, hcp, hcp', hcm, hcm', register_reserved s⟩
  case alpha => exact (BitVec.toNat_setWidth 32 s.alpha ▸ Nat.mod_le _ _).trans hinv.table.alpha_le
  case wsum =>
    change (s.wsum.extractLsb' 32 32).toNat < 2 ^ 8
    rw [BitVec.extractLsb'_toNat, Nat.shiftRight_eq_div_pow]
    omega

/-! ## Reset -/

/-- The reset values, but for the buffer bytes and the model's own fields. -/
theorem atReset_of {t : State} (c : Config.Params) (p m : BitStream) (host : List HostEvent) (reads : List Word)
    (draws powerOns : Nat) (hp : p.wbits = 0 ∧ p.rpos = 0) (hm : m.wbits = 0 ∧ m.rpos = 0)
    (ht : t = { State.resetOf c with p := p, m := m, host := host, reads := reads, draws := draws, powerOns := powerOns }) :
    AtReset t := by
  subst ht
  obtain ⟨pbuf, pw, pr⟩ := p
  obtain ⟨mbuf, mw, mr⟩ := m
  obtain ⟨rfl, rfl⟩ := hp
  obtain ⟨rfl, rfl⟩ := hm
  constructor
  case freq | clen | cval | rvalid | rsym => exact fun a => Table.at_replicate _ a
  case counts => intro S; cases S <;> exact ⟨rfl, rfl⟩
  case status => exact show statusOf false false false .none = 0#32 by decide
  case derived =>
    have hbytes : BitVec.ofNat 32 (bytesOf 0) = 0#32 := by decide
    have hpad : BitVec.ofNat 32 (padOf 0) = 0#32 := by decide
    exact ⟨hbytes, hpad, hbytes, hpad⟩
  case constants => exact ⟨rfl, rfl, rfl⟩
  all_goals rfl

/-- Settles O15: the reset state, the state after power-on and the state after SRESET differ from each other in the buffers and
in the model's own fields alone. -/
theorem everyItemHoldsItsResetValue : Obligations.EveryItemHoldsItsResetValue := by
  unfold Obligations.EveryItemHoldsItsResetValue
  refine ⟨rfl, fun c => ⟨?resetOf, rfl, fun S a => by cases S <;> rfl⟩, fun s rest hhost => ?powerOn, fun s => ?sreset,
    fun s offset h => hostValue_reserved s h, fun s hidle => ?constants⟩
  case resetOf => exact atReset_of c .reset .reset [] [] 0 0 ⟨rfl, rfl⟩ ⟨rfl, rfl⟩ rfl
  case powerOn =>
    refine ⟨_, step_host hhost (by simp), ?_, rfl, fun S a => by cases S <;> rfl⟩
    exact atReset_of s.config .reset .reset _ _ _ _ ⟨rfl, rfl⟩ ⟨rfl, rfl⟩ rfl
  case sreset =>
    refine ⟨s.softReset, rfl, ?_, rfl, fun S => softReset_onlyChanges s (.bytes S) (by cases S <;> simp [partsWritten]),
      rfl, rfl, rfl, rfl⟩
    exact atReset_of s.config { s.p with wbits := 0, rpos := 0 } { s.m with wbits := 0, rpos := 0 } _ _ _ _ ⟨rfl, rfl⟩
      ⟨rfl, rfl⟩ rfl
  case constants => exact ⟨hostValue_idle hidle _, hostValue_idle hidle _, hostValue_idle hidle _⟩

end Sys2Proof.Machine
end

section
/-!
PROOF. The stream commands (41_bitstream.md R131 to R137) and ENC (45_code_lookup.md R220), each from what its operation can
answer and from the rules of the stream primitives (20_memory.md R64 to R67).
-/
namespace Sys2Proof.Machine

/-! ## Bits and fields -/

theorem bitsToNat_map_range (f : Nat → Bool) (n : Nat) :
    bitsToNat ((List.range n).map f) = ((List.range n).map fun j => (f j).toNat * 2 ^ (n - 1 - j)).sum := by
  induction n generalizing f with
  | zero => rfl
  | succ n ih =>
    rw [List.range_succ_eq_map, List.map_cons, bitsToNat_cons, List.map_map, ih]
    simp [Function.comp_def, Nat.sub_sub, Nat.add_comm]

/-- Settles O22: the bit is taken out of the byte, and the field is the number that its bits write. -/
theorem streamBitsAreMostSignificantFirst : Obligations.StreamBitsAreMostSignificantFirst := by
  unfold Obligations.StreamBitsAreMostSignificantFirst
  intro s S k n
  exact ⟨Nat.toNat_testBit _ _, bitsToNat_map_range _ n⟩

/-! ## CLR, REWIND and SETLEN -/

/-- Settles O23. -/
theorem clrEmptiesAndRewindRestartsTheStream : Obligations.ClrEmptiesAndRewindRestartsTheStream := by
  unfold Obligations.ClrEmptiesAndRewindRestartsTheStream
  intro S s
  rw [exec_clrCmd, exec_rewindCmd]
  exact ⟨⟨_, clrStream_eq S s, by simp, by simp, setCounts_onlyChanges s S 0 0⟩,
    ⟨_, rewindStream_eq S s, by simp, setRpos_onlyChanges s S 0⟩⟩

theorem setlen_zero_iff (b : BitVec 21) (p : BitVec 3) : (b = 0#21 ∧ p ≠ 0#3) ↔ (b.toNat = 0 ∧ p.toNat ≠ 0) := by
  simp [← BitVec.toNat_inj]

/-- Settles O24: a length of b bytes with p pad bits is below 8·b only when b = 0 does not stand with a pad. -/
theorem setlenDeclaresTheLength : Obligations.SetlenDeclaresTheLength := by
  unfold Obligations.SetlenDeclaresTheLength
  intro S b p s
  rw [← setlen_zero_iff]
  obtain ⟨hbad, hanswer⟩ | ⟨hcap, hpad, hanswer⟩ := setlenStream_cases S (setlenCmd b p S) s b p <;>
    rw [← exec_setlenCmd] at hanswer
  · exact ⟨fun ⟨hcap, hpad⟩ => absurd hbad (not_or.mpr ⟨Nat.not_lt.mpr hcap, hpad⟩), fun _ => raises_of_eq_fail hanswer⟩
  · refine ⟨fun _ => ⟨_, hanswer, ?_, by simp, setCounts_onlyChanges s S _ 0⟩,
      fun hbad => absurd hbad (not_or.mpr ⟨Nat.not_lt.mpr hcap, hpad⟩)⟩
    have hp := p.isLt
    rw [setlen_zero_iff] at hpad
    simp only [State.setStream_stream, setlenBits]
    omega

/-! ## PUT and ENC -/

/-- Bits appended to a stream of the state: they stand at the old WBITS and on, every earlier bit is kept, the rest of the last
byte is 0, and every byte that holds none of them is kept (R66, R67). -/
theorem append_spec (s : State) (S : StreamId) {bits : List Bool} (hne : bits ≠ []) :
    ((s.append S bits).stream S).wbits = (s.stream S).wbits + bits.length ∧
    (∀ k, k < (s.stream S).wbits → (s.append S bits).bit S k = s.bit S k) ∧
    BitsAt (s.append S bits) S (s.stream S).wbits bits ∧
    (∀ k, ((s.append S bits).stream S).wbits ≤ k → k < 8 * bytesOf ((s.append S bits).stream S).wbits →
      (s.append S bits).bit S k = false) ∧
    (∀ a, (a < (s.stream S).wbits / 8 ∨ bytesOf ((s.append S bits).stream S).wbits ≤ a) →
      (s.append S bits).byte S a = s.byte S a) := by
  simp only [BitsAt, State.bit, State.append_stream, State.append_blank, BitStream.append_wbits]
  refine ⟨trivial, fun k hk => BitStream.bit_append_below _ _ bits hk, BitStream.bit_append_new _ _ bits, fun k hk hlt => ?_,
    fun a ha => State.byte_append_other S s bits (.inr ha)⟩
  have hpos := List.length_pos_iff.mpr hne
  exact BitStream.bit_append_filler _ _ bits hne hk (by unfold bytesOf at hlt; omega)

theorem natToBits_ne_nil {n : Nat} (hn : 1 ≤ n) (v : Nat) : natToBits n v ≠ [] :=
  List.length_pos_iff.mp (by rw [natToBits_length]; exact hn)

/-- The bits at k of a field of a bit vector, bit by bit. -/
theorem BitsAt.getLsbD {s : State} {S : StreamId} {k n m : Nat} {v : BitVec m} (h : BitsAt s S k (natToBits n v.toNat)) :
    ∀ j, j < n → s.bit S (k + j) = v.getLsbD (n - 1 - j) := by
  intro j hj
  have hbit := h j (by simpa using hj)
  rwa [natToBits_getElem] at hbit

theorem groupWidthOk_of_bounds {n : BitVec 5} (h1 : 1 ≤ n.toNat) (h16 : n.toNat ≤ 16) : groupWidthOk n = true :=
  decide_eq_true ⟨h1, h16⟩

theorem groupOk_of_bounds {n : BitVec 5} {v : BitVec 16} (h1 : 1 ≤ n.toNat) (h16 : n.toNat ≤ 16)
    (hv : v.toNat < 2 ^ n.toNat) : (groupWidthOk n && groupValueOk n v) = true := by
  rw [groupWidthOk_of_bounds h1 h16, Bool.true_and]
  exact decide_eq_true hv

/-- PUT of a legal group that fits. -/
theorem exec_putCmd_fits {S : StreamId} {n : BitVec 5} {v : BitVec 16} {s : State}
    (hok : (groupWidthOk n && groupValueOk n v) = true) (hfits : (s.stream S).wbits + n.toNat ≤ 8 * s.config.cap S) :
    exec (putCmd n v S) s = .next (s.append S (natToBits n.toNat v.toNat)) := by
  rw [exec_putCmd]
  obtain ⟨hbad, -⟩ | ⟨-, hover, -⟩ | ⟨-, -, hanswer⟩ := putStream_cases S (putCmd n v S) s n v
  · exact absurd hok (by simp [hbad])
  · omega
  · exact hanswer

/-- Settles O25. -/
theorem putAppendsTheGroup : Obligations.PutAppendsTheGroup := by
  unfold Obligations.PutAppendsTheGroup
  intro S n v s h1 h16 hv
  have hok := groupOk_of_bounds h1 h16 hv
  constructor
  · intro hfits
    obtain ⟨-, hbelow, hnew, hfiller, hbytes⟩ := append_spec s S (natToBits_ne_nil h1 v.toNat)
    exact ⟨_, exec_putCmd_fits hok hfits, by simp, hbelow, hnew.getLsbD, hfiller, hbytes,
      append_onlyChanges s S _⟩
  · intro hover
    refine raises_of_eq_fail (e := .capacityExceeded) ?_
    rw [exec_putCmd]
    obtain ⟨hbad, -⟩ | ⟨-, -, hanswer⟩ | ⟨-, hfits, -⟩ := putStream_cases S (putCmd n v S) s n v
    · exact absurd hok (by simp [hbad])
    · exact hanswer
    · omega

/-- Settles O55: ENC by its four cases; the code's bits are a field of CVAL. -/
theorem encAppendsTheCode : Obligations.EncAppendsTheCode := by
  unfold Obligations.EncAppendsTheCode
  intro s a
  obtain ⟨hmode, hanswer⟩ | ⟨hmode, hlen, hanswer⟩ | ⟨hmode, hlen, hover, hanswer⟩ | ⟨hmode, hlen, hfits, hanswer⟩ :=
    execEnc_cases s a
  · exact ⟨fun _ => raises_of_eq_fail (i := .enc a) hanswer, fun h => absurd hmode h, fun h => absurd hmode h, fun h => absurd hmode h⟩
  · exact ⟨fun h => absurd h hmode, fun _ _ => raises_of_eq_fail (i := .enc a) hanswer, fun _ h => absurd hlen h, fun _ h => absurd hlen h⟩
  · exact ⟨fun h => absurd h hmode, fun _ h => absurd h hlen, fun _ _ _ => raises_of_eq_fail (i := .enc a) hanswer, fun _ _ h => by omega⟩
  · refine ⟨fun h => absurd h hmode, fun _ h => absurd h hlen, fun _ _ h => by omega, fun _ _ _ => ?_⟩
    have hpos : 1 ≤ (Table.at s.clen a).toNat := Nat.one_le_iff_ne_zero.mpr fun h => hlen (BitVec.eq_of_toNat_eq h)
    obtain ⟨-, hbelow, hnew, hfiller, hbytes⟩ :=
      append_spec s .P (bits := s.codeBits a) (natToBits_ne_nil hpos _)
    exact ⟨_, hanswer, by simp [State.codeBits], hbelow, hnew.getLsbD, hfiller, hbytes, append_onlyChanges s .P _⟩

/-! ## GET -/

/-- GET of a legal width with enough bits left. -/
theorem exec_getCmd_fits {S : StreamId} {n : BitVec 5} {s : State} (hok : groupWidthOk n = true)
    (hfits : n.toNat ≤ (s.stream S).wbits - (s.stream S).rpos) :
    exec (getCmd n S) s = .next ((s.setResult (BitVec.ofNat 32 (s.number S (s.stream S).rpos n.toNat))).setRpos S
      ((s.stream S).rpos + n.toNat)) := by
  rw [exec_getCmd]
  obtain ⟨hbad, -⟩ | ⟨-, hunder, -⟩ | ⟨-, -, hanswer⟩ := getStream_cases S (getCmd n S) s n
  · exact absurd hok (by simp [hbad])
  · omega
  · exact hanswer

theorem number_toNat {s : State} {S : StreamId} {k n : Nat} (hn : n ≤ 32) :
    (BitVec.ofNat 32 (s.number S k n)).toNat = s.number S k n := by
  have hlt : s.number S k n < 2 ^ n := BitStream.number_lt _ _ k n
  rw [BitVec.toNat_ofNat, Nat.mod_eq_of_lt (hlt.trans_le (Nat.pow_le_pow_right (by decide) hn))]

theorem number_testBit (s : State) (S : StreamId) (k : Nat) {n j : Nat} (hj : j < n) :
    (s.number S k n).testBit (n - 1 - j) = s.bit S (k + j) := by
  have hlen := BitStream.bits_length (s.blank S) (s.stream S) k n
  have hbit := bitsToNat_testBit ((s.stream S).bits (s.blank S) k n) j (by omega)
  rw [BitStream.bits_getElem, hlen] at hbit
  exact hbit

/-- Settles O26. -/
theorem getConsumesTheNextBits : Obligations.GetConsumesTheNextBits := by
  unfold Obligations.GetConsumesTheNextBits
  intro S n s h1 h16
  have hok := groupWidthOk_of_bounds h1 h16
  constructor
  · intro hfits
    refine ⟨_, exec_getCmd_fits hok hfits, by simp, fun j hj => ?_, ?_, setResult_setRpos_onlyChanges s S _ _⟩
    · rw [State.setRpos_result, State.setResult_result, ← number_testBit s S _ hj, ← BitVec.testBit_toNat,
        number_toNat (by omega)]
    · rw [State.setRpos_result, State.setResult_result, number_toNat (by omega)]
      exact BitStream.number_lt _ _ _ _
  · intro hunder
    refine raises_of_eq_fail (e := .streamUnderrun) ?_
    rw [exec_getCmd]
    obtain ⟨hbad, -⟩ | ⟨-, -, hanswer⟩ | ⟨-, hfits, -⟩ := getStream_cases S (getCmd n S) s n
    · exact absurd hok (by simp [hbad])
    · exact hanswer
    · omega

/-- The field at k is the number that the bits there write. -/
theorem BitsAt.number_eq {s : State} {S : StreamId} {k : Nat} {bits : List Bool} (h : BitsAt s S k bits) :
    s.number S k bits.length = bitsToNat bits := by
  refine congrArg bitsToNat (List.ext_getElem (BitStream.bits_length ..) fun j h1 h2 => ?_)
  rw [BitStream.bits_getElem]
  exact h j h2

theorem BitsAt.number_natToBits {s : State} {S : StreamId} {k n v : Nat} (h : BitsAt s S k (natToBits n v))
    (hv : v < 2 ^ n) : s.number S k n = v := by
  have hnumber := h.number_eq
  rwa [natToBits_length, bitsToNat_natToBits_of_lt hv] at hnumber

/-- Settles O28: GET reads the bits that PUT has appended. -/
theorem putThenGetReturnsTheGroup : Obligations.PutThenGetReturnsTheGroup := by
  unfold Obligations.PutThenGetReturnsTheGroup
  intro S n v s h1 h16 hv hfits hcursor
  obtain ⟨hwbits, -, hnew, -, -⟩ := append_spec s S (natToBits_ne_nil h1 v.toNat)
  have hrpos : ((s.append S (natToBits n.toNat v.toNat)).stream S).rpos = (s.stream S).wbits := by simp [hcursor]
  rw [natToBits_length] at hwbits
  refine ⟨_, _, exec_putCmd_fits (groupOk_of_bounds h1 h16 hv) hfits,
    exec_getCmd_fits (groupWidthOk_of_bounds h1 h16) (by omega), ?_, ?_⟩
  · rw [State.setRpos_result, State.setResult_result, hrpos, hnew.number_natToBits hv]
    exact BitVec.eq_of_toNat_eq (by simp)
  · rw [State.setRpos_stream]
    change _ + n.toNat = (((s.append S _).setResult _).stream S).wbits
    rw [State.setResult_stream, hrpos, hwbits]

/-- Settles O27. -/
theorem illegalGroupsRaiseIllegalCommand : Obligations.IllegalGroupsRaiseIllegalCommand := by
  unfold Obligations.IllegalGroupsRaiseIllegalCommand
  intro S n v s
  constructor
  · intro hbad
    refine raises_of_eq_fail (e := .illegalCommand) ?_
    rw [exec_putCmd]
    refine if_pos (Bool.eq_false_iff.mpr fun hok => ?_)
    obtain ⟨hwidth, hvalue⟩ := Bool.and_eq_true_iff.mp hok
    have hbounds : 1 ≤ n.toNat ∧ n.toNat ≤ 16 := of_decide_eq_true hwidth
    have hlt : v.toNat < 2 ^ n.toNat := of_decide_eq_true hvalue
    omega
  · intro hbad
    refine raises_of_eq_fail (e := .illegalCommand) ?_
    rw [exec_getCmd]
    exact if_pos ((groupWidthOk_eq_false_iff n).mpr (by omega))

/-! ## WR and RD -/

/-- Settles O29. -/
theorem wrWritesOneByte : Obligations.WrWritesOneByte := by
  unfold Obligations.WrWritesOneByte
  intro S a d s
  obtain ⟨hcap, hanswer⟩ | ⟨hcap, hanswer⟩ := wrStream_cases S (wrCmd a d S) s a d <;> rw [← exec_wrCmd] at hanswer
  · exact ⟨fun h => by omega, fun _ => raises_of_eq_fail hanswer⟩
  · refine ⟨fun _ => ⟨_, hanswer, ?_, fun x hx => ?_, writeByte_onlyChanges s S _ d⟩, fun h => by omega⟩
    · rw [State.byte_writeByte, if_pos ⟨rfl, rfl⟩]
    · rw [State.byte_writeByte, if_neg fun h => hx h.2]

/-- Settles O30: a WR that raised no error has stored the byte that RD reads. -/
theorem rdReadsOneByte : Obligations.RdReadsOneByte := by
  unfold Obligations.RdReadsOneByte
  intro S a s
  have hrd (s : State) := rdStream_cases S (rdCmd a S) s a
  simp only [← exec_rdCmd] at hrd
  refine ⟨fun hcap => ?_, fun hcap => ?_, fun d t u hwr ht _ hu => ?_⟩
  · obtain ⟨hover, -⟩ | ⟨-, hanswer⟩ := hrd s
    · omega
    · refine ⟨_, hanswer, ?_, setResult_onlyChanges s _⟩
      rw [State.setResult_result, BitVec.toNat_setWidth_of_le (by decide)]
  · obtain ⟨-, hanswer⟩ | ⟨hfits, -⟩ := hrd s
    · exact raises_of_eq_fail hanswer
    · omega
  · obtain ⟨-, hanswer⟩ | ⟨hcap, hanswer⟩ := wrStream_cases S (wrCmd a d S) s a d <;>
      rw [← exec_wrCmd, hwr] at hanswer <;> obtain rfl := Host.Outcome.next.inj hanswer
    · exact absurd ht (ErrCode.code_ne_zero .badAddress)
    · obtain ⟨hover, -⟩ | ⟨-, hread⟩ := hrd (s.setStream S ((s.stream S).writeByte a.toNat d))
      · rw [State.setStream_config] at hover
        omega
      · rw [hu] at hread
        rw [Host.Outcome.next.inj hread, State.setResult_result, State.byte_writeByte, if_pos ⟨rfl, rfl⟩]

end Sys2Proof.Machine
end

section
/-!
PROOF. The symbol profiler (42_profiler.md), the reads of the code table (45_code_lookup.md) and of the arena (44_huffman.md
R197, R198), and TOTAL as the sum of the counters in every state that a step reaches (10_state.md R27).
-/
namespace Sys2Proof.Machine

/-! ## What a step keeps -/

/-- The state with the latch, OVR, and the model's own fields but powerOns replaced. -/
def State.withPort (s : State) (latched : Option Word) (ovr : Bool) (host : List HostEvent) (reads : List Word)
    (draws : Nat) : State :=
  { s with latched := latched, ovr := ovr, host := host, reads := reads, draws := draws }

theorem writeCmd_eq_withPort (w : Word) (s : State) :
    ∃ latched ovr draws, s.writeCmd w = s.withPort latched ovr s.host s.reads draws := by
  obtain ⟨-, heq⟩ | ⟨-, -, -, heq⟩ | ⟨-, -, heq⟩ := writeCmd_cases w s <;> rw [heq]
  · exact ⟨s.latched, true, s.draws + 1, rfl⟩
  · exact ⟨s.latched, s.ovr, s.draws, rfl⟩
  · exact ⟨some w, s.ovr, s.draws + 1, rfl⟩

/-- A predicate that speaks of no port field is kept by every step if every command, the error entry of an illegal word and
power-on reset keep it. -/
theorem step_preserves {I : State → Prop}
    (hport : ∀ s latched ovr host reads draws, I s → I (s.withPort latched ovr host reads draws))
    (hexec : ∀ i s t, I s → exec i s = .next t → I t)
    (hillegal : ∀ w s, I s → I (s.raise w .illegalCommand 0))
    (hpowerOn : ∀ s t, I s → powerOnReset s = .next t → I t) {s t : State} (hs : I s) (hstep : step s = .next t) : I t := by
  have hrun {w : Word} {s t : State} (hs : I s) (h : runCommand w s = .next t) : I t := by
    obtain ⟨i, u, -, hu, rfl⟩ | ⟨r, -, rfl⟩ := runCommand_next_cases h
    · exact hport u none u.ovr u.host u.reads u.draws (hexec i s u hs hu)
    · exact hillegal w s hs
  have hhost (rest : List HostEvent) : I (s.setHost rest) := hport s s.latched s.ovr rest s.reads s.draws hs
  obtain ⟨-, -, heq⟩ | ⟨w, -, -, heq⟩ | ⟨w, rest, -, -, heq⟩ | ⟨rest, -, -, heq⟩ | ⟨e, rest, -, -, heq⟩ := step_cases s <;>
    rw [heq] at hstep
  · exact Host.Outcome.next.inj hstep ▸ hs
  · exact hrun hs hstep
  · exact hrun (hhost rest) hstep
  · exact Host.Outcome.next.inj hstep ▸ hhost rest
  · obtain ⟨-, -, w, -, rfl⟩ | ⟨v, rfl⟩ | rfl | ⟨-, hreset⟩ := hostEvent_next_cases hstep
    · obtain ⟨latched, ovr, draws, hw⟩ := writeCmd_eq_withPort w (s.setHost rest)
      exact hw ▸ hport _ _ _ _ _ _ (hhost rest)
    · exact hport _ s.latched s.ovr rest (v :: s.reads) s.draws (hhost rest)
    · exact hhost rest
    · exact hpowerOn _ t (hhost rest) hreset

/-! ## The profiler -/

/-- Settles O33. -/
theorem profClrClearsEveryCounter : Obligations.ProfClrClearsEveryCounter := by
  unfold Obligations.ProfClrClearsEveryCounter
  exact fun s => ⟨_, rfl, fun a => by rw [State.setProfile_freq, Table.at_ofFun], rfl, setProfile_onlyChanges s _ _⟩

/-- Settles O35. -/
theorem freqRdReturnsTheCounter : Obligations.FreqRdReturnsTheCounter := by
  unfold Obligations.FreqRdReturnsTheCounter
  exact fun a s => ⟨_, rfl, rfl, setResult_onlyChanges s _⟩

theorem le_sumOver (f : Symbol → Nat) (a : Symbol) : f a ≤ sumOver f :=
  List.le_sum_of_mem (List.mem_map_of_mem (mem_allSymbols a))

/-- A sum of 32-bit words that stays below 2^32 is exact. -/
theorem add_setWidth_toNat {x : Word} {k : BitVec 16} (h : x.toNat + k.toNat ≤ 2 ^ 32 - 1) :
    (x + k.setWidth 32).toNat = x.toNat + k.toNat := by
  rw [BitVec.toNat_add, BitVec.toNat_setWidth_of_le (by decide), Nat.mod_eq_of_lt (by omega)]

/-- The counter that PROF_ADD grows cannot overflow where TOTAL does not, as TOTAL is the sum of all counters (R161). -/
theorem TotalOk.freq_add {s : State} (h : TotalOk s) {k : BitVec 16} (hfits : s.total.toNat + k.toNat ≤ 2 ^ 32 - 1)
    (a : Symbol) : (Table.at s.freq a + k.setWidth 32).toNat = (Table.at s.freq a).toNat + k.toNat := by
  have hle := le_sumOver (fun a => (Table.at s.freq a).toNat) a
  have htotal : s.total.toNat = sumOver fun a => (Table.at s.freq a).toNat := h
  exact add_setWidth_toNat (by omega)

/-- Settles O34. -/
theorem profAddCountsK : Obligations.ProfAddCountsK := by
  unfold Obligations.ProfAddCountsK
  intro a k s htotal
  obtain ⟨hover, hanswer⟩ | ⟨hfits, hanswer⟩ := execProfAdd_cases s a k
  · exact ⟨fun h => by omega, fun _ => raises_of_eq_fail (i := .profAdd a k) hanswer⟩
  · refine ⟨fun _ => ⟨_, hanswer, ?_, fun b hb => Table.at_put_other s.freq a b _ hb, add_setWidth_toNat hfits,
      setProfile_onlyChanges s _ _⟩, fun h => by omega⟩
    rw [State.setProfile_freq, Table.at_put_same, htotal.freq_add hfits]

/-! ## TOTAL is the sum of the counters -/

theorem TotalOk.congr {s t : State} (h : TotalOk s) (hprofile : Unchanged .profile s t) : TotalOk t := by
  obtain ⟨hfreq, htotal⟩ := hprofile
  rw [TotalOk, hfreq, htotal]
  exact h

/-- Counters that are all 0, with TOTAL = 0. -/
theorem totalOk_of_zero {s : State} (hfreq : ∀ a, Table.at s.freq a = 0#32) (htotal : s.total = 0#32) : TotalOk s := by
  have hsum : (sumOver fun a => (Table.at s.freq a).toNat) = (sumOver fun _ => 0) :=
    congrArg sumOver (funext fun a => congrArg BitVec.toNat (hfreq a))
  rw [TotalOk, htotal, hsum, sumOver, List.map_const', List.sum_replicate, smul_zero]
  rfl

theorem resetOf_totalOk (c : Config.Params) : TotalOk (State.resetOf c) := totalOk_of_zero (fun a => Table.at_replicate _ a) rfl

theorem profAdd_totalOk {s t : State} {a : Symbol} {k : BitVec 16} (h : TotalOk s) (hexec : execProfAdd a k s = .next t) :
    TotalOk t := by
  obtain ⟨-, hanswer⟩ | ⟨hfits, hanswer⟩ := execProfAdd_cases s a k <;> rw [hexec] at hanswer <;>
    obtain rfl := Host.Outcome.next.inj hanswer
  · exact h.congr ⟨rfl, rfl⟩
  · have hsum := sumOver_update (fun b => (Table.at s.freq b).toNat)
      (fun b => (Table.at (Table.put s.freq a (Table.at s.freq a + k.setWidth 32)) b).toNat) a k.toNat fun b => by
        by_cases hb : b = a
        · subst hb
          rw [if_pos rfl, Table.at_put_same, h.freq_add hfits]
        · rw [if_neg hb, Table.at_put_other _ _ _ _ hb]
    rw [TotalOk, State.setProfile_total, State.setProfile_freq, add_setWidth_toNat hfits, hsum]
    exact congrArg (· + k.toNat) h

/-- The commands that write FREQ and TOTAL. -/
theorem profile_notMem_partsWritten {i : Instr} (hsreset : i ≠ .sreset) (hclr : i ≠ .profClr) (hadd : ∀ a k, i ≠ .profAdd a k) :
    .profile ∉ partsWritten i := by
  cases i with
  | sreset => exact absurd rfl hsreset
  | profClr => exact absurd rfl hclr
  | profAdd a k => exact absurd rfl (hadd a k)
  | _ => simp [partsWritten]

/-- A command keeps each part that neither it nor the error entry writes. -/
theorem unchanged_of_exec {i : Instr} {s t : State} (hexec : exec i s = .next t) {q : Part} (hq : q ∉ partsWritten i)
    (herror : q ≠ .error) (hlatch : q ≠ .latch) : Unchanged q s t := by
  obtain ⟨e, pos, -, rfl⟩ | hcomplete := exec_next_cases hexec
  · exact raise_onlyChanges s _ e pos q (by simp [herror, hlatch])
  · exact hcomplete.unchanged hq

theorem exec_totalOk {i : Instr} {s t : State} (h : TotalOk s) (hexec : exec i s = .next t) : TotalOk t := by
  by_cases hi : i = .sreset ∨ i = .profClr ∨ ∃ a k, i = .profAdd a k
  · obtain rfl | rfl | ⟨a, k, rfl⟩ := hi
    · cases hexec
      exact (resetOf_totalOk s.config).congr ⟨rfl, rfl⟩
    · cases hexec
      exact totalOk_of_zero (fun a => by rw [State.setProfile_freq, Table.at_ofFun]) rfl
    · exact profAdd_totalOk h hexec
  · simp only [not_or, not_exists] at hi
    exact h.congr (unchanged_of_exec hexec (profile_notMem_partsWritten hi.1 hi.2.1 hi.2.2) (by simp) (by simp))

theorem powerOnReset_totalOk {s t : State} (h : powerOnReset s = .next t) : TotalOk t := by
  cases h
  exact (resetOf_totalOk s.config).congr ⟨rfl, rfl⟩

/-- Settles O36. -/
theorem totalIsAlwaysTheSum : Obligations.TotalIsAlwaysTheSum := by
  unfold Obligations.TotalIsAlwaysTheSum
  refine ⟨resetOf_totalOk _, fun s t hs hstep => step_preserves (I := TotalOk) (fun s _ _ _ _ _ h => h.congr ⟨rfl, rfl⟩)
    (fun i s t h hexec => exec_totalOk h hexec) (fun w s h => h.congr ⟨rfl, rfl⟩) (fun s t _ h => powerOnReset_totalOk h) hs hstep⟩

/-! ## The weighted sum -/

theorem sumOver_mul_right (f : Symbol → Nat) (k : Nat) : (sumOver fun a => f a * k) = sumOver f * k := by
  rw [sumOver, List.sum_map_mul_right, sumOver]

/-- A code length is at most 255, so the weighted sum is at most 255 times TOTAL (10_state.md R31). -/
theorem TotalOk.weightedSum_le {s : State} (h : TotalOk s) : s.weightedSum ≤ (2 ^ 32 - 1) * 255 := by
  have hclen (a : Symbol) : (Table.at s.clen a).toNat ≤ 255 := by
    have := (Table.at s.clen a).isLt
    omega
  have htotal : s.total.toNat = sumOver fun a => (Table.at s.freq a).toNat := h
  have hlt := s.total.isLt
  calc s.weightedSum ≤ sumOver fun a => (Table.at s.freq a).toNat * 255 := by
        unfold State.weightedSum
        exact sumOver_le _ _ fun a => Nat.mul_le_mul_left _ (hclen a)
    _ = s.total.toNat * 255 := by rw [sumOver_mul_right, htotal]
    _ ≤ (2 ^ 32 - 1) * 255 := by omega

/-- Settles O57: the sum is below 2^64, so WSUM holds it whole. -/
theorem wsumCalcSumsTheWeightedLengths : Obligations.WsumCalcSumsTheWeightedLengths := by
  unfold Obligations.WsumCalcSumsTheWeightedLengths
  intro s
  obtain ⟨hmode, hanswer⟩ | ⟨hmode, hanswer⟩ := execWsumCalc_cases s
  · exact ⟨fun _ => raises_of_eq_fail (i := .wsumCalc) hanswer, fun h => absurd hmode h⟩
  · refine ⟨fun h => absurd h hmode, fun _ htotal => ?_⟩
    have hle := htotal.weightedSum_le
    have hwsum : (BitVec.ofNat 64 s.weightedSum).toNat = s.weightedSum := by
      rw [BitVec.toNat_ofNat, Nat.mod_eq_of_lt (by omega)]
    refine ⟨_, hanswer, hwsum, ?_, hwsum.trans_le hle,
      ((setWsum_onlyChanges s _).mono (by simp)).trans ((setResult_onlyChanges _ _).mono (by simp))⟩
    rw [State.setResult_result, BitVec.toNat_setWidth]
    rfl

/-! ## The code table's words -/

theorem codeChunk_toNat (v : BitVec 255) (c : BitVec 3) :
    (codeChunk v c).toNat = v.toNat / 2 ^ (32 * c.toNat) % 2 ^ 32 := by
  rw [codeChunk, BitVec.extractLsb'_toNat, Nat.shiftRight_eq_div_pow]

/-- A number below base^n is the sum of its n digits. -/
theorem sum_digits (v base n : Nat) :
    ((List.range n).map fun c => v / base ^ c % base * base ^ c).sum = v % base ^ n := by
  induction n with
  | zero => simp [Nat.mod_one]
  | succ n ih => rw [List.range_succ, List.map_append, List.sum_append, ih, Nat.mod_pow_succ]; simp [Nat.mul_comm]

/-- Settles O56: the eight chunks are the digits of CVAL in base 2^32. -/
theorem codeReadsReturnTheCode : Obligations.CodeReadsReturnTheCode := by
  unfold Obligations.CodeReadsReturnTheCode
  intro s a
  refine ⟨⟨_, rfl, BitVec.toNat_setWidth_of_le (by decide), setResult_onlyChanges s _⟩,
    fun c => ⟨_, rfl, codeChunk_toNat _ c, setResult_onlyChanges s _⟩, fun chunk hchunk => ?_⟩
  have hresult (c : Nat) (hc : c ∈ List.range 8) : (chunk c).result.toNat * 2 ^ (32 * c) =
      (Table.at s.cval a).toNat / (2 ^ 32) ^ c % 2 ^ 32 * (2 ^ 32) ^ c := by
    have hlt := List.mem_range.mp hc
    have hc : (BitVec.ofNat 3 c).toNat = c := by rw [BitVec.toNat_ofNat, Nat.mod_eq_of_lt (by omega)]
    have hanswer := hchunk (BitVec.ofNat 3 c)
    rw [hc] at hanswer
    rw [← Host.Outcome.next.inj hanswer, State.setResult_result, codeChunk_toNat, hc, ← pow_mul]
  have hlt := (Table.at s.cval a).isLt
  rw [List.map_congr_left hresult, sum_digits, Nat.mod_eq_of_lt (by omega)]

/-! ## The arena's entries -/

theorem shapeWord_leaf_toNat (a : Symbol) (w : Word) : (Node.shapeWord (.leaf a w)).toNat = 2 ^ 31 + a.toNat := by
  have ha := a.isLt
  have hlow := unplaced_toNat a (by decide : 8 ≤ 32)
  rw [Node.shapeWord, or_toNat _ _ 31 1 rfl (by omega), hlow, Nat.one_mul]

theorem shapeWord_internal_toNat (w : Word) (l r : BitVec 9) :
    (Node.shapeWord (.internal w l r)).toNat = l.toNat * 2 ^ 9 + r.toNat := by
  have hr := r.isLt
  have hlow := unplaced_toNat r (by decide : 9 ≤ 32)
  rw [Node.shapeWord, or_toNat _ _ 9 l.toNat (placed_toNat l 9 (by decide)) (by omega), hlow]

/-- Settles O53. -/
theorem nodeReadsReturnTheArenaEntry : Obligations.NodeReadsReturnTheArenaEntry := by
  unfold Obligations.NodeReadsReturnTheArenaEntry
  intro s j
  have hrd := execNodeRd_cases s j
  have hwt := execNodeWt_cases s j
  refine ⟨fun hmode => ?mode, fun hmode hj => ?address, fun hmode hj => ?value⟩
  case mode =>
    simp only [hmode, ne_eq, not_false_eq_true, true_and, false_and, or_false] at hrd hwt
    exact ⟨raises_of_eq_fail (i := .nodeRd j) hrd, raises_of_eq_fail (i := .nodeWt j) hwt⟩
  case address =>
    simp only [hmode, hj, Nat.not_lt.mpr hj, ne_eq, not_true_eq_false, true_and, false_and, false_or, or_false] at hrd hwt
    exact ⟨raises_of_eq_fail (i := .nodeRd j) hrd, raises_of_eq_fail (i := .nodeWt j) hwt⟩
  case value =>
    simp only [hmode, hj, Nat.not_le.mpr hj, ne_eq, not_true_eq_false, true_and, false_and, false_or] at hrd hwt
    refine ⟨⟨_, hrd, setResult_onlyChanges s _, fun a w hnode => ?_, fun w l r hnode => ?_⟩,
      ⟨_, hwt, setResult_onlyChanges s _, fun a w hnode => ?_, fun w l r hnode => ?_⟩⟩ <;>
      rw [State.setResult_result, hnode]
    · exact shapeWord_leaf_toNat a w
    · exact shapeWord_internal_toNat w l r
    · rfl
    · rfl

end Sys2Proof.Machine
end

section
/-!
PROOF. Lists of codes (`CodeList`): the code of a symbol and the symbol of a code; bits that stand in a stream, piece by piece;
and the ranks of a frequency table (43_fixed_length.md R170).
-/
namespace Sys2Proof.Machine

/-! ## Lists -/

/-- A list of n distinct numbers below n holds each of them. -/
theorem perm_range_of_nodup {l : List Nat} (hnodup : l.Nodup) (hlt : ∀ x ∈ l, x < l.length) :
    l.Perm (List.range l.length) :=
  (hnodup.subperm fun x hx => List.mem_range.mpr (hlt x hx)).perm_of_length_le (by simp)

/-- A filter is shorter than a weaker one that keeps an element more. -/
theorem length_filter_lt {α : Type} {p q : α → Bool} {l : List α} (h : ∀ x ∈ l, p x = true → q x = true) {a : α}
    (ha : a ∈ l) (hq : q a = true) (hp : p a = false) : (l.filter p).length < (l.filter q).length := by
  have hfilter : l.filter p = (l.filter q).filter p := by
    rw [List.filter_filter]
    exact List.filter_congr fun x hx => by
      cases hpx : p x
      · rfl
      · exact (h x hx hpx).symm
  rw [hfilter, List.length_filter_lt_length_iff_exists]
  exact ⟨a, List.mem_filter.mpr ⟨ha, hq⟩, by simp [hp]⟩

theorem flatMap_ite {α β : Type} (p : α → Bool) (f : α → List β) (l : List α) :
    (l.flatMap fun x => if p x then f x else []) = (l.filter p).flatMap f := by
  induction l with
  | nil => rfl
  | cons x xs ih => cases hp : p x <;> simp [hp, ih]

/-! ## Codes -/

theorem codeFor_cons (e : Symbol × List Bool) (codes : CodeList) (a : Symbol) :
    codeFor (e :: codes) a = if a = e.1 then e.2 else codeFor codes a := by
  by_cases h : a = e.1
  · simp [codeFor, List.lookup, h]
  · simp [codeFor, List.lookup, h, beq_false_of_ne h]

theorem codeFor_of_notMem {codes : CodeList} {a : Symbol} (h : a ∉ codes.map (·.1)) : codeFor codes a = [] := by
  induction codes with
  | nil => rfl
  | cons e es ih =>
    rw [List.map_cons, List.mem_cons, not_or] at h
    rw [codeFor_cons, if_neg h.1, ih h.2]

theorem codeFor_of_mem {codes : CodeList} (hnodup : (codes.map (·.1)).Nodup) {e : Symbol × List Bool} (h : e ∈ codes) :
    codeFor codes e.1 = e.2 := by
  induction codes with
  | nil => simp at h
  | cons f fs ih =>
    obtain ⟨hf, hfs⟩ := List.nodup_cons.mp hnodup
    rw [codeFor_cons]
    rcases List.mem_cons.mp h with rfl | h
    · rw [if_pos rfl]
    · rw [if_neg fun heq => hf (List.mem_map.mpr ⟨e, h, heq⟩), ih hfs h]

/-- With distinct symbols, the codes of a list are fixed by its members. -/
theorem mem_codes_iff {codes : CodeList} (hnodup : (codes.map (·.1)).Nodup) {a : Symbol} {bits : List Bool} :
    (a, bits) ∈ codes ↔ a ∈ codes.map (·.1) ∧ codeFor codes a = bits := by
  constructor
  · exact fun h => ⟨List.mem_map_of_mem h, codeFor_of_mem hnodup h⟩
  · rintro ⟨ha, rfl⟩
    obtain ⟨e, he, rfl⟩ := List.mem_map.mp ha
    rwa [codeFor_of_mem hnodup he]

theorem symbolOfCode_eq_some {codes : CodeList} (hinj : ∀ e ∈ codes, ∀ f ∈ codes, bitsToNat e.2 = bitsToNat f.2 → e = f)
    {e : Symbol × List Bool} (he : e ∈ codes) {v : BitVec 8} (hv : bitsToNat e.2 = v.toNat) :
    symbolOfCode codes v = some e.1 := by
  obtain ⟨f, hf⟩ := Option.isSome_iff_exists.mp
    (List.find?_isSome (p := fun e : Symbol × List Bool => decide (bitsToNat e.2 = v.toNat)) |>.mpr ⟨e, he, by simp [hv]⟩)
  have hfv : bitsToNat f.2 = v.toNat := by
    simpa using List.find?_some (p := fun e : Symbol × List Bool => decide (bitsToNat e.2 = v.toNat)) hf
  rw [symbolOfCode, hf, hinj f (List.mem_of_find?_eq_some hf) e he (hfv.trans hv.symm)]
  rfl

theorem symbolOfCode_eq_none {codes : CodeList} {v : BitVec 8} (h : ∀ e ∈ codes, bitsToNat e.2 ≠ v.toNat) :
    symbolOfCode codes v = none := by
  rw [symbolOfCode, List.find?_eq_none.mpr fun e he => by simpa using h e he]
  rfl

/-! ## Bits in a stream -/

section Bits

variable {s : State} {S : StreamId} {k : Nat}

theorem bitsAt_iff_bits {bits : List Bool} : BitsAt s S k bits ↔ (s.stream S).bits (s.blank S) k bits.length = bits := by
  constructor
  · intro h
    exact List.ext_getElem (BitStream.bits_length ..) fun j h1 h2 => (BitStream.bits_getElem _ _ _ _ _ h1).trans (h j h2)
  · intro h j hj
    rw [← List.getElem_of_eq h (by simpa using hj), BitStream.bits_getElem]
    rfl

/-- The bits of a field stand where it was read. -/
theorem bitsAt_number (s : State) (S : StreamId) (k n : Nat) : BitsAt s S k (natToBits n (s.number S k n)) := by
  have hbits := natToBits_bitsToNat ((s.stream S).bits (s.blank S) k n)
  rw [BitStream.bits_length] at hbits
  rw [bitsAt_iff_bits, natToBits_length]
  exact hbits.symm

theorem bitsAt_append {xs ys : List Bool} : BitsAt s S k (xs ++ ys) ↔ BitsAt s S k xs ∧ BitsAt s S (k + xs.length) ys := by
  constructor
  · intro h
    refine ⟨fun j hj => ?_, fun j hj => ?_⟩
    · rw [h j (by simp; omega), List.getElem_append_left hj]
    · have hbit := h (xs.length + j) (by simpa using hj)
      rw [List.getElem_append_right (by omega), ← Nat.add_assoc] at hbit
      simpa using hbit
  · rintro ⟨hx, hy⟩ j hj
    by_cases hlt : j < xs.length
    · rw [List.getElem_append_left hlt, hx j hlt]
    · rw [List.getElem_append_right (by omega), ← hy (j - xs.length) (by simp at hj; omega)]
      congr 1
      omega

/-- Pieces of c bits each stand one after another. -/
theorem bitsAt_flatMap {α : Type} {f : α → List Bool} {c : Nat} {l : List α} (hf : ∀ x ∈ l, (f x).length = c) :
    BitsAt s S k (l.flatMap f) ↔ ∀ j (h : j < l.length), BitsAt s S (k + j * c) (f l[j]) := by
  induction l generalizing k with
  | nil => exact ⟨fun _ j h => absurd h (by simp), fun _ j h => absurd h (by simp)⟩
  | cons x xs ih =>
    rw [List.flatMap_cons, bitsAt_append, hf x List.mem_cons_self, ih fun y hy => hf y (List.mem_cons_of_mem _ hy)]
    constructor
    · rintro ⟨hx, hxs⟩ j hj
      cases j with
      | zero => simpa using hx
      | succ j =>
        have := hxs j (by simpa using hj)
        rwa [Nat.add_assoc, ← Nat.add_comm (j * c), ← Nat.succ_mul] at this
    · intro h
      have hzero := h 0 (by simp)
      rw [Nat.zero_mul] at hzero
      refine ⟨hzero, fun j hj => ?_⟩
      have := h (j + 1) (by simpa using hj)
      rwa [Nat.succ_mul, Nat.add_comm (j * c), ← Nat.add_assoc] at this

theorem length_flatMap_const {α β : Type} {f : α → List β} {c : Nat} {l : List α} (hf : ∀ x ∈ l, (f x).length = c) :
    (l.flatMap f).length = l.length * c := by
  rw [List.length_flatMap, List.map_congr_left hf, List.map_const', List.sum_replicate, smul_eq_mul]

end Bits

/-! ## Ranks -/

section Ranks

variable {freq : Table Word}

theorem ranksBefore_iff {a b : Symbol} : ranksBefore freq a b = true ↔
    (Table.at freq b).toNat < (Table.at freq a).toNat ∨
      ((Table.at freq b).toNat = (Table.at freq a).toNat ∧ a.toNat < b.toNat) := by
  rw [ranksBefore, decide_eq_true_iff, ← BitVec.toNat_inj, eq_comm (a := (Table.at freq a).toNat)]

theorem ranksBefore_irrefl (a : Symbol) : ranksBefore freq a a = false := by
  rw [← Bool.not_eq_true, ranksBefore_iff]
  omega

theorem ranksBefore_trans {a b c : Symbol} (h₁ : ranksBefore freq a b = true) (h₂ : ranksBefore freq b c = true) :
    ranksBefore freq a c = true := by
  rw [ranksBefore_iff] at *
  omega

theorem ranksBefore_total {a b : Symbol} (hne : a ≠ b) : ranksBefore freq a b = true ∨ ranksBefore freq b a = true := by
  have : a.toNat ≠ b.toNat := fun h => hne (BitVec.eq_of_toNat_eq h)
  simp only [ranksBefore_iff]
  omega

theorem rank_lt_rank {a b : Symbol} (ha : a ∈ alphabet freq) (h : ranksBefore freq a b = true) : rank freq a < rank freq b :=
  length_filter_lt (fun _ _ hx => ranksBefore_trans hx h) ha h (ranksBefore_irrefl a)

theorem rank_lt {a : Symbol} (ha : a ∈ alphabet freq) : rank freq a < (alphabet freq).length :=
  List.length_filter_lt_length_iff_exists.mpr ⟨a, ha, by simp [ranksBefore_irrefl]⟩

theorem rank_lt_rank_iff {a b : Symbol} (ha : a ∈ alphabet freq) (hb : b ∈ alphabet freq) :
    rank freq a < rank freq b ↔ ranksBefore freq a b = true := by
  refine ⟨fun h => ?_, rank_lt_rank ha⟩
  have hne : a ≠ b := by
    rintro rfl
    omega
  refine (ranksBefore_total hne).resolve_right fun hba => ?_
  have := rank_lt_rank hb hba
  omega

theorem rank_injective {a b : Symbol} (ha : a ∈ alphabet freq) (hb : b ∈ alphabet freq) (h : rank freq a = rank freq b) :
    a = b := by
  by_contra hne
  obtain hab | hba := ranksBefore_total (freq := freq) hne
  · exact absurd (rank_lt_rank ha hab) (by omega)
  · exact absurd (rank_lt_rank hb hba) (by omega)

theorem ranks_nodup : ((alphabet freq).map (rank freq)).Nodup :=
  (alphabet_nodup freq).map_on fun _ ha _ hb h => rank_injective ha hb h

theorem ranks_perm_range : ((alphabet freq).map (rank freq)).Perm (List.range (alphabet freq).length) := by
  have hperm := perm_range_of_nodup (ranks_nodup (freq := freq)) fun x hx => by
    obtain ⟨a, ha, rfl⟩ := List.mem_map.mp hx
    simpa using rank_lt ha
  simpa using hperm

end Ranks

/-- Settles O38: the ranks are n distinct numbers below n. -/
theorem ranksNumberTheAlphabet : Obligations.RanksNumberTheAlphabet := by
  unfold Obligations.RanksNumberTheAlphabet
  intro freq
  refine ⟨fun a ha => rank_lt ha, fun r hr => ?_, fun a ha b hb => (rank_lt_rank_iff ha hb).trans ranksBefore_iff⟩
  exact List.mem_map.mp (ranks_perm_range.mem_iff.mpr (List.mem_range.mpr hr))

end Sys2Proof.Machine
end

section
/-!
PROOF. The fixed-length table that FL_BUILD and FL_MREAD load (43_fixed_length.md R171, R174): what its registers hold, and that it
meets the invariant of MODE FIXED.
-/
namespace Sys2Proof.Machine

/-- The entries of a legal fixed-length code: distinct symbols and distinct codes, all of width(n) bits (R171, R174). -/
structure FixedCodes (w : Nat) (codes : CodeList) : Prop where
  nonempty : codes ≠ []
  width : w = codeWidth codes.length
  symbols : (codes.map (·.1)).Nodup
  distinct : (codes.map (·.2)).Nodup
  length : ∀ e ∈ codes, e.2.length = w

theorem symbols_length_le {l : List Symbol} (h : l.Nodup) : l.length ≤ 256 := by
  simpa using (h.subperm fun a _ => mem_allSymbols a).length_le

namespace FixedCodes

variable {w : Nat} {codes : CodeList} (h : FixedCodes w codes)
include h

theorem count_pos : 1 ≤ codes.length := List.length_pos_iff.mpr h.nonempty

theorem count_le : codes.length ≤ 256 := by simpa using symbols_length_le h.symbols

theorem width_pos : 1 ≤ w := h.width ▸ codeWidth_pos _

theorem width_le : w ≤ 8 := h.width ▸ (codeWidth_le_iff (by decide)).mpr h.count_le

theorem value_lt {e : Symbol × List Bool} (he : e ∈ codes) : bitsToNat e.2 < 2 ^ w := h.length e he ▸ bitsToNat_lt e.2

theorem value_lt_256 {e : Symbol × List Bool} (he : e ∈ codes) : bitsToNat e.2 < 256 :=
  (h.value_lt he).trans_le (Nat.pow_le_pow_right (by decide) h.width_le)

theorem value_byte {e : Symbol × List Bool} (he : e ∈ codes) : (BitVec.ofNat 8 (bitsToNat e.2)).toNat = bitsToNat e.2 := by
  rw [BitVec.toNat_ofNat, Nat.mod_eq_of_lt (h.value_lt_256 he)]

/-- No two entries have codes of one value. -/
theorem value_injective : ∀ e ∈ codes, ∀ f ∈ codes, bitsToNat e.2 = bitsToNat f.2 → e = f := fun e he f hf hv =>
  List.inj_on_of_nodup_map h.distinct he hf (bits_ext ((h.length e he).trans (h.length f hf).symm) hv)

/-! ## The registers of the loaded table -/

variable (s : State)

theorem load_alpha : (s.loadFixed codes w).alpha.toNat = codes.length := by
  have := h.count_le
  rw [State.loadFixed_alpha, BitVec.toNat_ofNat, Nat.mod_eq_of_lt (by omega)]

theorem load_width : (s.loadFixed codes w).width.toNat = w := by
  have := h.width_le
  rw [State.loadFixed_width, BitVec.toNat_ofNat, Nat.mod_eq_of_lt (by omega)]

theorem load_maxlen : (s.loadFixed codes w).maxlen.toNat = w := by
  have := h.width_le
  rw [State.loadFixed_maxlen, BitVec.toNat_ofNat, Nat.mod_eq_of_lt (by omega)]

theorem load_clen {e : Symbol × List Bool} (he : e ∈ codes) : (Table.at (s.loadFixed codes w).clen e.1).toNat = w := by
  have := h.width_le
  rw [State.loadFixed_clen, clenOf_at, codeFor_of_mem h.symbols he, h.length e he, BitVec.toNat_ofNat,
    Nat.mod_eq_of_lt (by omega)]

theorem load_cval {e : Symbol × List Bool} (he : e ∈ codes) :
    (Table.at (s.loadFixed codes w).cval e.1).toNat = bitsToNat e.2 := by
  have := h.value_lt_256 he
  rw [State.loadFixed_cval, cvalOf_at, codeFor_of_mem h.symbols he, BitVec.toNat_ofNat, Nat.mod_eq_of_lt (by omega)]

theorem load_reverse {e : Symbol × List Bool} (he : e ∈ codes) {v : BitVec 8} (hv : bitsToNat e.2 = v.toNat) :
    Table.at (s.loadFixed codes w).rvalid v = true ∧ Table.at (s.loadFixed codes w).rsym v = e.1 := by
  rw [State.loadFixed_rvalid, State.loadFixed_rsym, symbolOfCode_eq_some h.value_injective he hv]
  exact ⟨rfl, rfl⟩

omit h in
theorem load_uncoded {a : Symbol} (ha : a ∉ codes.map (·.1)) :
    Table.at (s.loadFixed codes w).clen a = 0#8 ∧ Table.at (s.loadFixed codes w).cval a = 0#255 := by
  rw [State.loadFixed_clen, State.loadFixed_cval, clenOf_at, cvalOf_at, codeFor_of_notMem ha]
  exact ⟨rfl, rfl⟩

omit h in
theorem load_reverse_none {v : BitVec 8} (hv : ∀ e ∈ codes, bitsToNat e.2 ≠ v.toNat) :
    Table.at (s.loadFixed codes w).rvalid v = false ∧ Table.at (s.loadFixed codes w).rsym v = 0#8 := by
  rw [State.loadFixed_rvalid, State.loadFixed_rsym, symbolOfCode_eq_none hv]
  exact ⟨rfl, rfl⟩

/-! ## The invariant of MODE FIXED -/

theorem mem_load_coded {a : Symbol} : a ∈ (s.loadFixed codes w).coded ↔ a ∈ codes.map (·.1) := by
  rw [State.coded, List.mem_filter, decide_eq_true_iff, and_iff_right (mem_allSymbols a)]
  constructor
  · intro hlen
    by_contra hno
    exact hlen (load_uncoded s hno).1
  · rintro hmem hlen
    obtain ⟨e, he, rfl⟩ := List.mem_map.mp hmem
    have hclen := h.load_clen s he
    have := h.width_pos
    rw [hlen, BitVec.toNat_ofNat] at hclen
    omega

theorem load_coded_length : (s.loadFixed codes w).coded.length = codes.length := by
  have hperm : (s.loadFixed codes w).coded.Perm (codes.map (·.1)) :=
    (List.perm_ext_iff_of_nodup (allSymbols_nodup.filter _) h.symbols).mpr fun a => h.mem_load_coded s
  simpa using hperm.length_eq

theorem load_fixedOk : FixedOk (s.loadFixed codes w) where
  alpha_pos := (h.load_alpha s).symm ▸ h.count_pos
  alpha_le := (h.load_alpha s).symm ▸ h.count_le
  width_eq := by rw [h.load_width, h.load_alpha]; exact h.width
  maxlen_eq := by rw [h.load_maxlen, h.load_width]
  root := rfl
  nnodes := rfl
  arena := rfl
  count := by rw [h.load_coded_length, h.load_alpha]
  clen := by
    intro a ha
    obtain ⟨e, he, rfl⟩ := List.mem_map.mp ((h.mem_load_coded s).mp ha)
    rw [h.load_clen s he, h.load_width]
  cval_none := fun a ha => (load_uncoded s fun hmem => ha ((h.mem_load_coded s).mpr hmem)).2
  cval_lt := by
    intro a ha
    obtain ⟨e, he, rfl⟩ := List.mem_map.mp ((h.mem_load_coded s).mp ha)
    rw [h.load_cval s he, h.load_width]
    exact h.value_lt he
  injective := by
    intro a ha b hb hab
    obtain ⟨e, he, rfl⟩ := List.mem_map.mp ((h.mem_load_coded s).mp ha)
    obtain ⟨f, hf, rfl⟩ := List.mem_map.mp ((h.mem_load_coded s).mp hb)
    rw [h.value_injective e he f hf (by rw [← h.load_cval s he, ← h.load_cval s hf, hab])]
  reverse := by
    intro v a
    constructor
    · rintro ⟨hvalid, rfl⟩
      have hex : ∃ e ∈ codes, bitsToNat e.2 = v.toNat := by
        by_contra hno
        push Not at hno
        rw [(load_reverse_none s hno).1] at hvalid
        exact Bool.false_ne_true hvalid
      obtain ⟨e, he, hv⟩ := hex
      rw [(h.load_reverse s he hv).2]
      exact ⟨(h.mem_load_coded s).mpr (List.mem_map_of_mem he), (h.load_cval s he).trans hv⟩
    · rintro ⟨ha, hv⟩
      obtain ⟨e, he, rfl⟩ := List.mem_map.mp ((h.mem_load_coded s).mp ha)
      exact h.load_reverse s he ((h.load_cval s he).symm.trans hv)
  reverse_none := by
    intro v hv
    rw [State.loadFixed_rvalid, Option.isSome_eq_false_iff, Option.isNone_iff_eq_none] at hv
    rw [State.loadFixed_rsym, hv]
    rfl

end FixedCodes

/-! ## FL_BUILD -/

theorem natToBits_injective_of_lt {n v u : Nat} (hv : v < 2 ^ n) (hu : u < 2 ^ n) (h : natToBits n v = natToBits n u) :
    v = u := by
  rw [← bitsToNat_natToBits_of_lt hv, h, bitsToNat_natToBits_of_lt hu]

theorem alphabet_eq_nil_iff {freq : Table Word} : alphabet freq = [] ↔ ∀ a, Table.at freq a = 0#32 := by
  simp [List.eq_nil_iff_forall_not_mem]

theorem rank_lt_two_pow {freq : Table Word} {a : Symbol} (ha : a ∈ alphabet freq) :
    rank freq a < 2 ^ codeWidth (alphabet freq).length :=
  (rank_lt ha).trans_le (lt_two_pow_codeWidth _)

/-- The ranks of an alphabet are a legal code (R170, R171). -/
theorem rankCodes_fixedCodes {freq : Table Word} (hne : alphabet freq ≠ []) :
    FixedCodes (codeWidth (alphabet freq).length) (rankCodes freq (codeWidth (alphabet freq).length)) where
  nonempty := by simpa [rankCodes] using hne
  width := by simp [rankCodes]
  symbols := by simpa [rankCodes, Function.comp_def] using alphabet_nodup freq
  distinct := by
    rw [rankCodes, List.map_map]
    exact (alphabet_nodup freq).map_on fun a ha b hb hbits =>
      rank_injective ha hb (natToBits_injective_of_lt (rank_lt_two_pow ha) (rank_lt_two_pow hb) hbits)
  length := by
    intro e he
    obtain ⟨a, -, rfl⟩ := List.mem_map.mp he
    exact natToBits_length _ _

/-- Settles O39: the loaded table is that of the ranks. -/
theorem flBuildAssignsTheRanks : Obligations.FlBuildAssignsTheRanks := by
  unfold Obligations.FlBuildAssignsTheRanks
  intro s
  obtain ⟨hempty, hanswer⟩ | ⟨hne, hanswer⟩ := execFlBuild_cases s
  · refine ⟨fun ⟨a, ha⟩ => absurd (alphabet_eq_nil_iff.mp hempty a) ha, fun _ => raises_of_eq_fail (i := .flBuild) hanswer⟩
  · refine ⟨fun _ => ?_, fun hzero => absurd (alphabet_eq_nil_iff.mpr hzero) hne⟩
    have hcodes := rankCodes_fixedCodes hne
    have hcount : (rankCodes s.freq (codeWidth (alphabet s.freq).length)).length = (alphabet s.freq).length := by
      simp [rankCodes]
    have hmem {a : Symbol} (ha : a ∈ alphabet s.freq) := List.mem_map_of_mem (f := fun a =>
      (a, natToBits (codeWidth (alphabet s.freq).length) (rank s.freq a))) ha
    have hvalue {a : Symbol} (ha : a ∈ alphabet s.freq) := bitsToNat_natToBits_of_lt (rank_lt_two_pow ha)
    refine ⟨_, hanswer, rfl, (hcodes.load_alpha s).trans hcount, hcodes.load_width s, hcodes.load_maxlen s, rfl, rfl,
      fun a ha => ?coded, fun a ha => ?uncoded, fun v hv => ?reverse, loadFixed_onlyChanges s _ _⟩
    case coded =>
      replace ha := (mem_alphabet s.freq a).mpr ha
      have hlen := rank_lt ha
      have hle := alphabet_length_le s.freq
      have hbyte : (BitVec.ofNat 8 (rank s.freq a)).toNat = rank s.freq a := by
        rw [BitVec.toNat_ofNat, Nat.mod_eq_of_lt (by omega)]
      exact ⟨(hcodes.load_clen s (hmem ha)).trans (hcodes.load_width s).symm, (hcodes.load_cval s (hmem ha)).trans (hvalue ha),
        hcodes.load_reverse s (hmem ha) ((hvalue ha).trans hbyte.symm)⟩
    case uncoded =>
      refine FixedCodes.load_uncoded s fun hcoded => ?_
      simp [rankCodes, Function.comp_def, ha] at hcoded
    case reverse =>
      refine FixedCodes.load_reverse_none s fun e he => ?_
      obtain ⟨a, ha, rfl⟩ := List.mem_map.mp he
      have hlen := rank_lt ha
      rw [hvalue ha]
      omega

end Sys2Proof.Machine
end

section
/-!
PROOF. FL_DEC, FL_MWRITE and FL_MREAD (43_fixed_length.md R172 to R176): the blob of a table, the parse of a blob, and that a table
written and read is the same table.
-/
namespace Sys2Proof.Machine

/-! ## FL_DEC -/

/-- FL_DEC over a group of value v that has a reverse entry. -/
theorem execFlDec_valid {s : State} {v : BitVec 8} (hmode : s.mode = .fixed) (hpos : s.p.rpos < s.p.wbits)
    (hfits : s.width.toNat ≤ s.p.wbits - s.p.rpos) (hgroup : s.number .P s.p.rpos s.width.toNat = v.toNat)
    (hvalid : Table.at s.rvalid v = true) :
    execFlDec s = .next ((s.setResult ((Table.at s.rsym v).setWidth 32)).setRpos .P (s.p.rpos + s.width.toNat)) := by
  have hentry : s.groupValid v.toNat = true := by simp [State.groupValid, v.isLt, hvalid]
  have hv : BitVec.ofNat 8 v.toNat = v := by simp
  obtain ⟨hno, -⟩ | ⟨-, hend, -⟩ | ⟨-, -, hbad, -⟩ | ⟨-, -, -, -, hanswer⟩ := execFlDec_cases s
  · exact absurd hmode hno
  · omega
  · rw [hgroup, hentry] at hbad
    exact absurd hbad (by simp; omega)
  · rwa [hgroup, hv] at hanswer

/-- FL_DEC raises CORRUPT_DATA when the group is cut off or has no reverse entry. -/
theorem execFlDec_corrupt {s : State} (hmode : s.mode = .fixed) (hpos : s.p.rpos < s.p.wbits)
    (hbad : s.p.wbits - s.p.rpos < s.width.toNat ∨ s.groupValid (s.number .P s.p.rpos s.width.toNat) = false) :
    execFlDec s = fail .flDec .corruptData s.p.rpos s := by
  obtain ⟨hno, -⟩ | ⟨-, hend, -⟩ | ⟨-, -, -, hanswer⟩ | ⟨-, -, hfits, hvalid, -⟩ := execFlDec_cases s
  · exact absurd hmode hno
  · omega
  · exact hanswer
  · exact absurd hbad (by simp [hvalid]; omega)

/-- Settles O40: the group's value is that of the bits which stand at the cursor. -/
theorem flDecDecodesOneGroup : Obligations.FlDecDecodesOneGroup := by
  unfold Obligations.FlDecDecodesOneGroup
  intro s
  refine ⟨fun hmode => ?mode, fun hmode hend => ?eos, fun hmode hpos hshort => ?short,
    fun v hmode hpos hfits hv hbits => ⟨fun hinvalid => ?invalid, fun hvalid => ?valid⟩⟩
  case mode => exact raises_of_eq_fail (i := .flDec) (if_pos hmode)
  case eos =>
    refine ⟨s.setResult eosWord, ?_, rfl, setResult_onlyChanges s _⟩
    exact (if_neg (not_not.mpr hmode)).trans (if_pos hend)
  case short => exact raises_of_eq_fail (i := .flDec) (execFlDec_corrupt hmode hpos (.inl hshort))
  case invalid =>
    refine raises_of_eq_fail (i := .flDec) (execFlDec_corrupt hmode hpos (.inr ?_))
    rw [hbits.number_natToBits hv]
    simp [State.groupValid, hinvalid]
  case valid =>
    refine ⟨_, execFlDec_valid hmode hpos hfits (hbits.number_natToBits hv) hvalid, ?_, rfl,
      setResult_setRpos_onlyChanges s .P _ _⟩
    exact BitVec.toNat_setWidth_of_le (by decide)

/-! ## The entries of a fixed-length table -/

/-- The code list of entries given as numbers. -/
def codesOf (w : Nat) (entries : List (Symbol × Nat)) : CodeList := entries.map fun e => (e.1, natToBits w e.2)

/-- The entries of the table, in ascending code value (R173). -/
def State.fixedEntries (s : State) : List (Symbol × Nat) :=
  ((List.range (2 ^ s.width.toNat)).filter fun c => Table.at s.rvalid (BitVec.ofNat 8 c)).map
    fun c => (Table.at s.rsym (BitVec.ofNat 8 c), c)

theorem codesOf_map_fst (w : Nat) (entries : List (Symbol × Nat)) : (codesOf w entries).map (·.1) = entries.map (·.1) := by
  simp [codesOf, Function.comp_def]

theorem codesOf_fixedCodes {w : Nat} {entries : List (Symbol × Nat)} (hne : entries ≠ [])
    (hwidth : w = codeWidth entries.length) (hsymbols : (entries.map (·.1)).Nodup) (hcodes : (entries.map (·.2)).Nodup)
    (hlt : ∀ e ∈ entries, e.2 < 2 ^ w) : FixedCodes w (codesOf w entries) where
  nonempty := by simpa [codesOf] using hne
  width := by simpa [codesOf] using hwidth
  symbols := by rwa [codesOf_map_fst]
  distinct := by
    rw [codesOf, List.map_map]
    exact (List.Nodup.of_map _ hcodes).map_on fun e he f hf hbits =>
      List.inj_on_of_nodup_map hcodes he hf (natToBits_injective_of_lt (hlt e he) (hlt f hf) hbits)
  length := by
    intro e he
    obtain ⟨f, -, rfl⟩ := List.mem_map.mp he
    exact natToBits_length _ _

namespace FixedOk

variable {s : State} (h : FixedOk s)
include h

theorem width_pos : 1 ≤ s.width.toNat := h.width_eq ▸ codeWidth_pos _

theorem width_le : s.width.toNat ≤ 8 := h.width_eq ▸ (codeWidth_le_iff (by decide)).mpr h.alpha_le

/-- A code value as an 8-bit index. -/
theorem index_toNat {c : Nat} (hc : c < 2 ^ s.width.toNat) : (BitVec.ofNat 8 c).toNat = c := by
  rw [BitVec.toNat_ofNat, Nat.mod_eq_of_lt (hc.trans_le (Nat.pow_le_pow_right (by decide) h.width_le))]

/-- The entries are the coded symbols with their code values. -/
theorem mem_entries {a : Symbol} {c : Nat} :
    (a, c) ∈ s.fixedEntries ↔ a ∈ s.coded ∧ (Table.at s.cval a).toNat = c := by
  have hmem : (a, c) ∈ s.fixedEntries ↔
      c < 2 ^ s.width.toNat ∧ Table.at s.rvalid (BitVec.ofNat 8 c) = true ∧ Table.at s.rsym (BitVec.ofNat 8 c) = a := by
    simp only [State.fixedEntries, List.mem_map, List.mem_filter, List.mem_range, Prod.mk.injEq]
    exact ⟨fun ⟨d, ⟨hlt, hv⟩, ha, hd⟩ => hd ▸ ⟨hlt, hv, ha⟩, fun ⟨hlt, hv, ha⟩ => ⟨c, ⟨hlt, hv⟩, ha, rfl⟩⟩
  rw [hmem, h.reverse]
  constructor
  · rintro ⟨hlt, ha, hc⟩
    exact ⟨ha, hc.trans (h.index_toNat hlt)⟩
  · rintro ⟨ha, rfl⟩
    have hlt := h.cval_lt a ha
    exact ⟨hlt, ha, (h.index_toNat hlt).symm⟩

omit h in
theorem entries_values_nodup : (s.fixedEntries.map (·.2)).Nodup := by
  have hvalues : s.fixedEntries.map (·.2) =
      (List.range (2 ^ s.width.toNat)).filter fun c => Table.at s.rvalid (BitVec.ofNat 8 c) := by
    simp [State.fixedEntries, Function.comp_def]
  exact hvalues ▸ List.nodup_range.filter _

theorem entries_symbols_nodup : (s.fixedEntries.map (·.1)).Nodup := by
  refine (List.Nodup.of_map _ entries_values_nodup).map_on ?_
  rintro ⟨a, c⟩ he ⟨b, d⟩ hf (rfl : a = b)
  rw [← (h.mem_entries.mp he).2, ← (h.mem_entries.mp hf).2]

theorem mem_entries_symbols {a : Symbol} : a ∈ s.fixedEntries.map (·.1) ↔ a ∈ s.coded := by
  rw [List.mem_map]
  constructor
  · rintro ⟨⟨b, c⟩, he, rfl⟩
    exact (h.mem_entries.mp he).1
  · exact fun ha => ⟨(a, _), h.mem_entries.mpr ⟨ha, rfl⟩, rfl⟩

theorem entries_length : s.fixedEntries.length = s.alpha.toNat := by
  have hperm : (s.fixedEntries.map (·.1)).Perm s.coded :=
    (List.perm_ext_iff_of_nodup h.entries_symbols_nodup (allSymbols_nodup.filter _)).mpr fun a => h.mem_entries_symbols
  simpa [h.count] using hperm.length_eq

theorem entries_ne_nil : s.fixedEntries ≠ [] :=
  List.length_pos_iff.mp (h.entries_length ▸ h.alpha_pos)

theorem entries_lt : ∀ e ∈ s.fixedEntries, e.2 < 2 ^ s.width.toNat := by
  rintro ⟨a, c⟩ he
  obtain ⟨ha, rfl⟩ := h.mem_entries.mp he
  exact h.cval_lt a ha

theorem entries_fixedCodes : FixedCodes s.width.toNat (codesOf s.width.toNat s.fixedEntries) :=
  codesOf_fixedCodes h.entries_ne_nil (by rw [h.entries_length]; exact h.width_eq) h.entries_symbols_nodup
    entries_values_nodup h.entries_lt

end FixedOk

/-! ## The blob -/

theorem length_fixedBlob (w : Nat) (entries : List (Symbol × Nat)) :
    (fixedBlob w entries).length = 8 + entries.length * (8 + w) := by
  rw [fixedBlob, List.length_append, natToBits_length, length_flatMap_const (c := 8 + w) fun e _ => by simp]

/-- FL_MWRITE writes the blob of the table's entries. -/
theorem fixedMetadata_eq {s : State} (h : FixedOk s) : s.fixedMetadata = fixedBlob s.width.toNat s.fixedEntries := by
  have hentry : ∀ c ∈ List.range (2 ^ s.width.toNat), s.fixedEntry c = if Table.at s.rvalid (BitVec.ofNat 8 c) then
      natToBits 8 (Table.at s.rsym (BitVec.ofNat 8 c)).toNat ++ natToBits s.width.toNat c else [] := by
    intro c hc
    have hlt : c < 256 := (List.mem_range.mp hc).trans_le (Nat.pow_le_pow_right (by decide) h.width_le)
    simp [State.fixedEntry, State.groupValid, hlt]
  rw [State.fixedMetadata, fixedBlob, State.fixedEntries, List.flatMap_map, ← flatMap_ite, List.flatMap_def, List.flatMap_def,
    List.map_congr_left hentry]

/-- Bits written from bit 0 of a cleared stream. -/
theorem clearStream_append_bitsAt (s : State) (S : StreamId) (bits : List Bool) :
    BitsAt ((s.clearStream S).append S bits) S 0 bits := by
  by_cases hne : bits = []
  · subst hne
    exact fun j h => absurd h (by simp)
  · obtain ⟨-, -, hnew, -⟩ := append_spec (s.clearStream S) S hne
    rwa [State.clearStream_stream] at hnew

theorem clearStream_append_m (s : State) (bits : List Bool) :
    ((s.clearStream .M).append .M bits).m.wbits = bits.length ∧ ((s.clearStream .M).append .M bits).m.rpos = 0 := by
  simp

/-- Settles O41. -/
theorem flMwriteSerializesTheTable : Obligations.FlMwriteSerializesTheTable := by
  unfold Obligations.FlMwriteSerializesTheTable
  intro s
  obtain ⟨hmode, hanswer⟩ | ⟨hmode, hanswer⟩ := execFlMwrite_cases s
  · exact ⟨fun _ => raises_of_eq_fail (i := .flMwrite) hanswer, fun h => absurd h hmode⟩
  · refine ⟨fun h => absurd hmode h, fun _ hok => ?_⟩
    rw [fixedMetadata_eq hok] at hanswer
    obtain ⟨hwbits, hrpos⟩ := clearStream_append_m s (fixedBlob s.width.toNat s.fixedEntries)
    refine ⟨_, s.fixedEntries, hanswer, rfl, ?_, hrpos, hwbits, clearStream_append_bitsAt s .M _, fun a ha => ?_,
      clearStream_append_onlyChanges s .M _⟩
    · rw [hwbits, length_fixedBlob, hok.entries_length]
    · exact byte_clearStream_append s .M _ (.inr (hwbits ▸ ha))

/-! ## The parse -/

/-- The bits of a blob, entry by entry. -/
theorem bitsAt_fixedBlob {s : State} {w : Nat} {entries : List (Symbol × Nat)} :
    BitsAt s .M 0 (fixedBlob w entries) ↔ BitsAt s .M 0 (natToBits 8 w) ∧ ∀ j (h : j < entries.length),
      BitsAt s .M (8 + j * (8 + w)) (natToBits 8 entries[j].1.toNat) ∧
        BitsAt s .M (16 + j * (8 + w)) (natToBits w entries[j].2) := by
  rw [fixedBlob, bitsAt_append, natToBits_length, bitsAt_flatMap (c := 8 + w) fun e _ => by simp]
  refine and_congr_right fun _ => forall₂_congr fun j hj => ?_
  rw [bitsAt_append, natToBits_length, show 0 + 8 + j * (8 + w) + 8 = 16 + j * (8 + w) by omega,
    show 0 + 8 + j * (8 + w) = 8 + j * (8 + w) by omega]

/-- Entry j of the metadata reads this symbol and these w bits exactly when they stand there. -/
theorem readFixedEntry_eq_iff {s : State} {w j : Nat} {a : Symbol} {c : Nat} :
    s.readFixedEntry w j = (a, natToBits w c) ↔
      BitsAt s .M (8 + j * (8 + w)) (natToBits 8 a.toNat) ∧ BitsAt s .M (16 + j * (8 + w)) (natToBits w c) := by
  rw [State.readFixedEntry, Prod.mk.injEq, bitsAt_iff_bits (bits := natToBits w c), natToBits_length]
  refine and_congr_left fun _ => ⟨?_, fun h => ?_⟩
  · rintro rfl
    have hlt : s.number .M (8 + j * (8 + w)) 8 < 2 ^ 8 := BitStream.number_lt _ _ _ _
    rw [BitVec.toNat_ofNat, Nat.mod_eq_of_lt hlt]
    exact bitsAt_number s .M _ 8
  · rw [h.number_natToBits a.isLt]
    simp

/-- The checks of R174, as a condition on M. -/
theorem parseFixed_eq_some_iff {s : State} {w : Nat} {codes : CodeList} : s.parseFixed = some (w, codes) ↔
    s.number .M 0 8 = w ∧ s.m.wbits = 8 + codes.length * (8 + w) ∧ 1 ≤ w ∧ w ≤ 8 ∧ FixedCodes w codes ∧
      codes = (List.range codes.length).map (s.readFixedEntry w) := by
  simp only [State.parseFixed]
  generalize s.number .M 0 8 = u
  constructor
  · intro h
    split_ifs at h with h8 hw hmod hwidth hdup
    obtain ⟨rfl, rfl⟩ := Prod.mk.inj (Option.some.inj h)
    simp only [not_or, not_not, not_lt] at hw hmod hwidth hdup h8
    have hlen : ((List.range ((s.m.wbits - 8) / (8 + u))).map (s.readFixedEntry u)).length = (s.m.wbits - 8) / (8 + u) := by
      simp
    have hdvd := Nat.div_mul_cancel (Nat.dvd_of_mod_eq_zero hmod.2)
    refine ⟨rfl, ?_, hw.1, hw.2, ⟨?_, ?_, hdup.1, hdup.2, ?_⟩, ?_⟩
    · rw [hlen, hdvd]
      omega
    · intro hnil
      rw [hnil, List.length_nil] at hlen
      rw [← hlen, Nat.zero_mul] at hdvd
      exact hmod.1 hdvd.symm
    · rw [hlen]
      exact hwidth
    · intro e he
      obtain ⟨j, -, rfl⟩ := List.mem_map.mp he
      exact BitStream.bits_length _ _ _ _
    · rw [hlen]
  · rintro ⟨rfl, hwbits, hpos, hle, hcodes, heq⟩
    have hsub : s.m.wbits - 8 = codes.length * (8 + u) := by omega
    have hn : (s.m.wbits - 8) / (8 + u) = codes.length := by rw [hsub, Nat.mul_div_cancel _ (by omega)]
    have hcount := hcodes.count_pos
    rw [hn, ← heq, if_neg (by omega), if_neg (by omega), if_neg, if_neg, if_neg]
    · simp [hcodes.symbols, hcodes.distinct]
    · exact not_not.mpr hcodes.width
    · have hpositive := Nat.mul_pos hcount (show 0 < 8 + u by omega)
      rw [hsub, Nat.mul_mod_left]
      simp only [ne_eq, not_true_eq_false, or_false]
      omega

/-- M holds the blob of these entries exactly when it parses to their codes. -/
theorem holdsFixedBlob_iff {s : State} {w : Nat} {entries : List (Symbol × Nat)} :
    HoldsFixedBlob s w entries ↔ (∀ e ∈ entries, e.2 < 2 ^ w) ∧ s.parseFixed = some (w, codesOf w entries) := by
  have hlen : (codesOf w entries).length = entries.length := List.length_map _
  have hread : (codesOf w entries = (List.range entries.length).map (s.readFixedEntry w)) ↔
      ∀ j (h : j < entries.length), s.readFixedEntry w j = (entries[j].1, natToBits w entries[j].2) := by
    constructor
    · intro h j hj
      have hget := List.getElem_of_eq h (show j < (codesOf w entries).length by omega)
      simp only [codesOf, List.getElem_map, List.getElem_range] at hget
      exact hget.symm
    · intro h
      refine List.ext_getElem (by simp [codesOf]) fun j h1 h2 => ?_
      rw [List.getElem_map, List.getElem_range, h j (by omega)]
      simp [codesOf]
  rw [parseFixed_eq_some_iff, hlen, hread]
  constructor
  · intro h
    obtain ⟨hw, hentries⟩ := bitsAt_fixedBlob.mp h.bits
    have hlt : w < 2 ^ 8 := h.width_le.trans_lt (by decide)
    exact ⟨h.codes_lt, hw.number_natToBits hlt, by rw [h.length, length_fixedBlob], h.width_pos, h.width_le,
      codesOf_fixedCodes h.nonempty h.width_eq h.symbols h.codes h.codes_lt,
      fun j hj => readFixedEntry_eq_iff.mpr (hentries j hj)⟩
  · rintro ⟨hlt, hw, hwbits, hpos, hle, hcodes, hentries⟩
    have hvalues : (entries.map (·.2)).Nodup := by
      have hdistinct := hcodes.distinct
      rw [codesOf, List.map_map] at hdistinct
      exact (List.Nodup.of_map _ hdistinct).map_on fun e he f hf hv =>
        List.inj_on_of_nodup_map hdistinct he hf (congrArg (natToBits w) hv)
    have hwidth : BitsAt s .M 0 (natToBits 8 w) := hw ▸ bitsAt_number s .M 0 8
    exact ⟨hpos, hle, fun h => hcodes.nonempty (by simp [codesOf, h]), hlen ▸ hcodes.width, codesOf_map_fst w entries ▸ hcodes.symbols,
      hvalues, hlt, by rw [hwbits, length_fixedBlob],
      bitsAt_fixedBlob.mpr ⟨hwidth, fun j hj => readFixedEntry_eq_iff.mp (hentries j hj)⟩⟩

/-- Entries of w bits are the codes of their values. -/
theorem codesOf_values {w : Nat} {codes : CodeList} (h : ∀ e ∈ codes, e.2.length = w) :
    codesOf w (codes.map fun e => (e.1, bitsToNat e.2)) = codes := by
  rw [codesOf, List.map_map]
  refine (List.map_congr_left fun e he => ?_).trans (List.map_id _)
  rw [Function.comp_apply, ← h e he, natToBits_bitsToNat]
  rfl

theorem parseFixed_eq_none_iff {s : State} : s.parseFixed = none ↔ ¬ ∃ w entries, HoldsFixedBlob s w entries := by
  constructor
  · rintro hnone ⟨w, entries, h⟩
    rw [(holdsFixedBlob_iff.mp h).2] at hnone
    cases hnone
  · intro hno
    by_contra hsome
    obtain ⟨⟨w, codes⟩, hparse⟩ := Option.ne_none_iff_exists'.mp hsome
    obtain ⟨-, -, -, -, hcodes, -⟩ := parseFixed_eq_some_iff.mp hparse
    refine hno ⟨w, codes.map fun e => (e.1, bitsToNat e.2), holdsFixedBlob_iff.mpr ⟨?_, ?_⟩⟩
    · intro e he
      obtain ⟨f, hf, rfl⟩ := List.mem_map.mp he
      exact hcodes.value_lt hf
    · rwa [codesOf_values hcodes.length]

/-! ## FL_MREAD -/

theorem execFlMread_some {s : State} {w : Nat} {codes : CodeList} (h : s.parseFixed = some (w, codes)) :
    execFlMread s = .next ((s.loadFixed codes w).setRpos .M s.m.wbits) := by
  rw [execFlMread, h]

theorem loadFixed_setRpos_onlyChanges (s : State) (codes : CodeList) (w k : Nat) :
    OnlyChanges [.table, .rpos .M] s ((s.loadFixed codes w).setRpos .M k) :=
  ((loadFixed_onlyChanges s codes w).mono (by simp)).trans ((setRpos_onlyChanges _ .M k).mono (by simp))

/-- Settles O42: a legal blob parses to its entries' codes, and what parses to none is no legal blob. -/
theorem flMreadLoadsExactlyTheLegalBlobs : Obligations.FlMreadLoadsExactlyTheLegalBlobs := by
  unfold Obligations.FlMreadLoadsExactlyTheLegalBlobs
  intro s
  constructor
  · intro w entries h
    obtain ⟨hlt, hparse⟩ := holdsFixedBlob_iff.mp h
    obtain ⟨-, -, -, -, hcodes, -⟩ := parseFixed_eq_some_iff.mp hparse
    have hvalue {e : Symbol × Nat} (he : e ∈ entries) := bitsToNat_natToBits_of_lt (hlt e he)
    have hmem {e : Symbol × Nat} (he : e ∈ entries) : (e.1, natToBits w e.2) ∈ codesOf w entries :=
      List.mem_map_of_mem (f := fun e : Symbol × Nat => (e.1, natToBits w e.2)) he
    refine ⟨_, execFlMread_some hparse, rfl, (hcodes.load_alpha s).trans (List.length_map _), hcodes.load_width s,
      hcodes.load_maxlen s, rfl, rfl, fun e he => ?coded, fun a ha => ?uncoded, fun v hv => ?reverse, rfl,
      loadFixed_setRpos_onlyChanges s _ _ _⟩
    case coded =>
      have hbyte := hcodes.value_byte (hmem he)
      rw [hvalue he] at hbyte
      have hclen := hcodes.load_clen s (hmem he)
      have hcval := (hcodes.load_cval s (hmem he)).trans (hvalue he)
      exact ⟨hclen, hcval, hcodes.load_reverse s (hmem he) ((hvalue he).trans hbyte.symm)⟩
    case uncoded => exact FixedCodes.load_uncoded (w := w) s (codesOf_map_fst w entries ▸ ha)
    case reverse =>
      refine FixedCodes.load_reverse_none (w := w) s fun e he heq => hv ?_
      obtain ⟨f, hf, rfl⟩ := List.mem_map.mp he
      rw [hvalue hf] at heq
      exact heq ▸ List.mem_map_of_mem hf
  · intro hno
    refine raises_of_eq_fail (i := .flMread) (e := .corruptMetadata) ?_
    change execFlMread s = _
    rw [execFlMread, parseFixed_eq_none_iff.mpr hno]

/-! ## Written and read back -/

/-- The code table that a table's own entries load is that table (R175). -/
theorem FixedOk.load_entries {s : State} (h : FixedOk s) (hmode : s.mode = .fixed) (t : State) :
    Unchanged .table s (t.loadFixed (codesOf s.width.toNat s.fixedEntries) s.width.toNat) := by
  have hcodes := h.entries_fixedCodes
  have huncoded {a : Symbol} (ha : a ∉ s.coded) := FixedCodes.load_uncoded (codes := codesOf s.width.toNat s.fixedEntries)
    (w := s.width.toNat) t (a := a) (by rwa [codesOf_map_fst, h.mem_entries_symbols])
  have hmem {a : Symbol} (ha : a ∈ s.coded) := List.mem_map_of_mem (f := fun e : Symbol × Nat =>
    (e.1, natToBits s.width.toNat e.2)) (h.mem_entries.mpr ⟨ha, rfl⟩)
  have hvalue {a : Symbol} (ha : a ∈ s.coded) := bitsToNat_natToBits_of_lt (h.cval_lt a ha)
  have hreverse (v : BitVec 8) :
      Table.at (t.loadFixed (codesOf s.width.toNat s.fixedEntries) s.width.toNat).rvalid v = Table.at s.rvalid v ∧
      Table.at (t.loadFixed (codesOf s.width.toNat s.fixedEntries) s.width.toNat).rsym v = Table.at s.rsym v := by
    cases hv : Table.at s.rvalid v with
    | true =>
      obtain ⟨ha, hval⟩ := (h.reverse v _).mp ⟨hv, rfl⟩
      exact hcodes.load_reverse t (hmem ha) ((hvalue ha).trans hval)
    | false =>
      rw [h.reverse_none v hv]
      refine FixedCodes.load_reverse_none t fun e he heq => ?_
      obtain ⟨⟨a, c⟩, hf, rfl⟩ := List.mem_map.mp he
      obtain ⟨ha, rfl⟩ := h.mem_entries.mp hf
      rw [hvalue ha] at heq
      rw [((h.reverse v a).mpr ⟨ha, heq⟩).1] at hv
      cases hv
  have hclen (a : Symbol) :
      Table.at (t.loadFixed (codesOf s.width.toNat s.fixedEntries) s.width.toNat).clen a = Table.at s.clen a ∧
      Table.at (t.loadFixed (codesOf s.width.toNat s.fixedEntries) s.width.toNat).cval a = Table.at s.cval a := by
    by_cases ha : a ∈ s.coded
    · exact ⟨BitVec.eq_of_toNat_eq ((hcodes.load_clen t (hmem ha)).trans (h.clen a ha).symm),
        BitVec.eq_of_toNat_eq ((hcodes.load_cval t (hmem ha)).trans (hvalue ha))⟩
    · have hzero : Table.at s.clen a = 0#8 := by simpa [State.coded] using ha
      rw [hzero, h.cval_none a ha]
      exact huncoded ha
  have halpha := (hcodes.load_alpha t).trans ((List.length_map _).trans h.entries_length)
  exact ⟨hmode.symm, BitVec.eq_of_toNat_eq halpha, BitVec.eq_of_toNat_eq (hcodes.load_width t), h.root.symm, h.nnodes.symm,
    BitVec.eq_of_toNat_eq ((hcodes.load_maxlen t).trans h.maxlen_eq.symm), Table.ext fun a => (hclen a).1,
    Table.ext fun a => (hclen a).2, Table.ext fun v => (hreverse v).1, Table.ext fun v => (hreverse v).2, h.arena.symm⟩

/-- The state after FL_MWRITE holds the blob of the table's entries. -/
theorem FixedOk.holdsFixedBlob {s : State} (h : FixedOk s) :
    HoldsFixedBlob ((s.clearStream .M).append .M s.fixedMetadata) s.width.toNat s.fixedEntries where
  width_pos := h.width_pos
  width_le := h.width_le
  nonempty := h.entries_ne_nil
  width_eq := by rw [h.entries_length]; exact h.width_eq
  symbols := h.entries_symbols_nodup
  codes := FixedOk.entries_values_nodup
  codes_lt := h.entries_lt
  length := by rw [fixedMetadata_eq h]; exact (clearStream_append_m s _).1
  bits := by rw [fixedMetadata_eq h]; exact clearStream_append_bitsAt s .M _

/-- Settles O43: M holds the blob of the table's own entries, and those entries load the same table. -/
theorem flMreadRestoresTheWrittenTable : Obligations.FlMreadRestoresTheWrittenTable := by
  unfold Obligations.FlMreadRestoresTheWrittenTable
  intro s hmode h
  have hwrite : exec .flMwrite s = .next ((s.clearStream .M).append .M s.fixedMetadata) := if_neg (not_not.mpr hmode)
  obtain ⟨-, hparse⟩ := holdsFixedBlob_iff.mp h.holdsFixedBlob
  refine ⟨_, _, hwrite, execFlMread_some hparse, ?_, rfl⟩
  exact h.load_entries hmode ((s.clearStream .M).append .M s.fixedMetadata)

/-! ## ENC and FL_DEC -/

/-- ENC of a symbol with a code that fits. -/
theorem execEnc_fits {s : State} {a : Symbol} (hmode : s.mode ≠ .none) (hlen : Table.at s.clen a ≠ 0#8)
    (hfits : s.p.wbits + (Table.at s.clen a).toNat ≤ 8 * s.config.pcap) : execEnc a s = .next (s.append .P (s.codeBits a)) := by
  obtain ⟨hnone, -⟩ | ⟨-, hzero, -⟩ | ⟨-, -, hover, -⟩ | ⟨-, -, -, hanswer⟩ := execEnc_cases s a
  · exact absurd hnone hmode
  · exact absurd hzero hlen
  · omega
  · exact hanswer

/-- Settles O44: the code appended is the group that FL_DEC reads, and its reverse entry is the symbol. -/
theorem encThenFlDecReturnsTheSymbol : Obligations.EncThenFlDecReturnsTheSymbol := by
  unfold Obligations.EncThenFlDecReturnsTheSymbol
  intro s a hmode h hlen hcursor hfits
  have ha : a ∈ s.coded := List.mem_filter.mpr ⟨mem_allSymbols a, decide_eq_true hlen⟩
  have hclen := h.clen a ha
  have hpos := h.width_pos
  have hbits : s.codeBits a = natToBits s.width.toNat (Table.at s.cval a).toNat := by rw [State.codeBits, hclen]
  have hindex := h.index_toNat (h.cval_lt a ha)
  obtain ⟨hvalid, hsym⟩ := (h.reverse (BitVec.ofNat 8 (Table.at s.cval a).toNat) a).mpr ⟨ha, hindex.symm⟩
  have hwrite : exec (.enc a) s = .next (s.append .P (s.codeBits a)) :=
    execEnc_fits (by simp [hmode]) hlen (by omega)
  rw [hbits] at hwrite
  obtain ⟨hwbits, -, hnew, -, -⟩ := append_spec s .P (natToBits_ne_nil hpos (Table.at s.cval a).toNat)
  rw [natToBits_length] at hwbits
  simp only [State.stream_P] at hwbits hnew
  have hgroup := hnew.number_natToBits (h.cval_lt a ha)
  have hrpos : (s.append .P (natToBits s.width.toNat (Table.at s.cval a).toNat)).p.rpos = s.p.wbits := by simp [hcursor]
  have hread := execFlDec_valid (s := s.append .P (natToBits s.width.toNat (Table.at s.cval a).toNat))
    (v := BitVec.ofNat 8 (Table.at s.cval a).toNat) (by simp [hmode]) (by omega) (by simp; omega)
    (by rw [hrpos, State.append_width, hgroup, hindex]) (by simpa using hvalid)
  refine ⟨_, _, hwrite, hread, ?_, ?_, ?_⟩
  · rw [State.setRpos_result, State.setResult_result, State.append_rsym, hsym, BitVec.toNat_setWidth_of_le (by decide)]
  · simp [hcursor]
  · simp

end Sys2Proof.Machine
end

section
/-!
PROOF. Binary code trees (10_state.md R30): their counts, codes and serialized forms, and what the model's walks of the arena find
where the arena holds a tree.
-/
namespace Sys2Proof.Machine

/-! ## Counts -/

namespace Tree

theorem symbols_node (i : Nat) (l r : Tree) : (node i l r).symbols = l.symbols ++ r.symbols := by
  simp [symbols, paths, Function.comp_def]

@[simp] theorem symbols_leaf (i : Nat) (a : Symbol) : (leaf i a).symbols = [a] := rfl

theorem symbols_length_pos (t : Tree) : 1 ≤ t.symbols.length := by
  induction t with
  | leaf i a => simp
  | node i l r ihl ihr =>
    rw [symbols_node, List.length_append]
    omega

theorem indices_length (t : Tree) : t.indices.length + 1 = 2 * t.symbols.length := by
  induction t with
  | leaf i a => simp [indices]
  | node i l r ihl ihr =>
    rw [symbols_node, List.length_append, indices, List.length_cons, List.length_append]
    omega

@[simp] theorem root_leaf (i : Nat) (a : Symbol) : (leaf i a).root = i := rfl

@[simp] theorem root_node (i : Nat) (l r : Tree) : (node i l r).root = i := rfl

theorem root_mem_indices (t : Tree) : t.root ∈ t.indices := by
  cases t <;> simp [root, indices]

theorem blob_length (t : Tree) : t.blob.length + 1 = 10 * t.symbols.length := by
  induction t with
  | leaf i a => simp [blob]
  | node i l r ihl ihr =>
    rw [symbols_node, List.length_append, blob, List.length_cons, List.length_append]
    omega

/-! ## Codes -/

theorem mem_paths_node {i : Nat} {l r : Tree} {e : Symbol × List Bool} : e ∈ (node i l r).paths ↔
    (∃ f ∈ l.paths, e = (f.1, false :: f.2)) ∨ ∃ f ∈ r.paths, e = (f.1, true :: f.2) := by
  simp [paths, eq_comm]

/-- A path is shorter than the number of leaves. -/
theorem path_length_lt {t : Tree} {e : Symbol × List Bool} (he : e ∈ t.paths) : e.2.length < t.symbols.length := by
  induction t generalizing e with
  | leaf i a =>
    obtain rfl := List.mem_singleton.mp he
    simp
  | node i l r ihl ihr =>
    have hl := l.symbols_length_pos
    have hr := r.symbols_length_pos
    rw [symbols_node, List.length_append]
    obtain ⟨f, hf, rfl⟩ | ⟨f, hf, rfl⟩ := mem_paths_node.mp he
    · have := ihl hf
      simp
      omega
    · have := ihr hf
      simp
      omega

/-- No path is an initial part of another. -/
theorem paths_prefix_free {t : Tree} {e f : Symbol × List Bool} (he : e ∈ t.paths) (hf : f ∈ t.paths) (h : e.2 <+: f.2) :
    e = f := by
  induction t generalizing e f with
  | leaf i a => rw [List.mem_singleton.mp he, List.mem_singleton.mp hf]
  | node i l r ihl ihr =>
    obtain ⟨e', he', rfl⟩ | ⟨e', he', rfl⟩ := mem_paths_node.mp he <;>
      obtain ⟨f', hf', rfl⟩ | ⟨f', hf', rfl⟩ := mem_paths_node.mp hf <;>
      simp only [List.cons_prefix_cons, reduceCtorEq, true_and, false_and] at h
    · rw [ihl he' hf' h]
    · rw [ihr he' hf' h]

theorem codes_map_fst (t : Tree) : t.codes.map (·.1) = t.symbols := by
  cases t <;> rfl

theorem codes_prefix_free {t : Tree} {e f : Symbol × List Bool} (he : e ∈ t.codes) (hf : f ∈ t.codes) (h : e.2 <+: f.2) :
    e = f := by
  cases t with
  | leaf i a => rw [List.mem_singleton.mp he, List.mem_singleton.mp hf]
  | node i l r => exact paths_prefix_free he hf h

/-- A code has at least one bit. -/
theorem code_ne_nil {t : Tree} {e : Symbol × List Bool} (he : e ∈ t.codes) : e.2 ≠ [] := by
  cases t with
  | leaf i a =>
    obtain rfl := List.mem_singleton.mp he
    simp
  | node i l r =>
    obtain ⟨f, -, rfl⟩ | ⟨f, -, rfl⟩ := (mem_paths_node (i := i)).mp he <;> simp

/-- A tree of at most 256 leaves has codes of at most 255 bits. -/
theorem code_length_le {t : Tree} (ht : t.symbols.length ≤ 256) {e : Symbol × List Bool} (he : e ∈ t.codes) :
    e.2.length ≤ 255 := by
  cases t with
  | leaf i a =>
    obtain rfl := List.mem_singleton.mp he
    simp
  | node i l r =>
    have := path_length_lt he
    omega

/-! ## The tree in the arena -/

theorem InArena.root_lt {arena : List Node} {t : Tree} (h : t.InArena arena) : t.root < arena.length := by
  cases t with
  | leaf i a => exact (List.getElem?_eq_some_iff.mp h.choose_spec).1
  | node i l r => exact (List.getElem?_eq_some_iff.mp h.1.choose_spec).1

/-- A longer arena holds what an arena holds. -/
theorem InArena.append {arena : List Node} {t : Tree} (h : t.InArena arena) (more : List Node) : t.InArena (arena ++ more) := by
  have hkeep {i : Nat} {nd : Node} (hnd : arena[i]? = some nd) : (arena ++ more)[i]? = some nd := by
    rw [List.getElem?_append_left (List.getElem?_eq_some_iff.mp hnd).1, hnd]
  induction t with
  | leaf i a =>
    obtain ⟨w, hw⟩ := h
    exact ⟨w, hkeep hw⟩
  | node i l r ihl ihr =>
    obtain ⟨⟨w, hw⟩, hl, hr⟩ := h
    exact ⟨⟨w, hkeep hw⟩, ihl hl, ihr hr⟩

/-- Every index of a tree fits the 9 bits of a child index. -/
abbrev Small (t : Tree) : Prop := ∀ i ∈ t.indices, i < 512

theorem Small.left {i : Nat} {l r : Tree} (h : (node i l r).Small) : l.Small :=
  fun j hj => h j (by simp [indices, hj])

theorem Small.right {i : Nat} {l r : Tree} (h : (node i l r).Small) : r.Small :=
  fun j hj => h j (by simp [indices, hj])

theorem Small.root_toNat {t : Tree} (h : t.Small) : (BitVec.ofNat 9 t.root).toNat = t.root := by
  rw [BitVec.toNat_ofNat, Nat.mod_eq_of_lt (h _ t.root_mem_indices)]

theorem Small.left_root {i : Nat} {l r : Tree} (h : (node i l r).Small) : (BitVec.ofNat 9 l.root).toNat = l.root :=
  h.left.root_toNat

theorem Small.right_root {i : Nat} {l r : Tree} (h : (node i l r).Small) : (BitVec.ofNat 9 r.root).toNat = r.root :=
  h.right.root_toNat

/-- The walk of R192 finds the paths of the tree, given as much depth as the tree has leaves. -/
theorem InArena.leafPaths_eq {arena : List Node} {t : Tree} (h : t.InArena arena) (hsmall : t.Small) {n : Nat}
    (hn : t.symbols.length ≤ n) : leafPaths arena n t.root = t.paths := by
  induction t generalizing n with
  | leaf i a =>
    obtain ⟨w, hw⟩ := h
    obtain ⟨m, rfl⟩ : ∃ m, n = m + 1 := ⟨n - 1, by simp at hn; omega⟩
    simp [leafPaths, hw, paths]
  | node i l r ihl ihr =>
    obtain ⟨⟨w, hw⟩, hl, hr⟩ := h
    have hlpos := l.symbols_length_pos
    have hrpos := r.symbols_length_pos
    rw [symbols_node, List.length_append] at hn
    obtain ⟨m, rfl⟩ : ∃ m, n = m + 1 := ⟨n - 1, by omega⟩
    simp only [leafPaths, root_node, hw, hsmall.left_root, hsmall.right_root, ihl hl hsmall.left (n := m) (by omega),
      ihr hr hsmall.right (n := m) (by omega), paths]

/-- DeriveCodes (R192) gives the codes of the tree. -/
theorem InArena.deriveCodes_eq {arena : List Node} {t : Tree} (h : t.InArena arena) (hsmall : t.Small)
    (hn : t.symbols.length ≤ Config.nnodeMax) : deriveCodes arena t.root = t.codes := by
  cases t with
  | leaf i a =>
    obtain ⟨w, hw⟩ := h
    simp [deriveCodes, hw, codes]
  | node i l r =>
    have hpaths := h.leafPaths_eq hsmall hn
    obtain ⟨⟨w, hw⟩, -, -⟩ := h
    rw [root_node] at hpaths
    simp only [deriveCodes, root_node, hw, hpaths, codes]

/-- Ser (R195) gives the blob of the tree. -/
theorem InArena.serializeTree_eq {s : State} {t : Tree} (h : t.InArena s.arena) (hsmall : t.Small) {n : Nat}
    (hn : t.symbols.length ≤ n) : serializeTree s.node n t.root = some t.blob := by
  induction t generalizing n with
  | leaf i a =>
    obtain ⟨w, hw⟩ := h
    obtain ⟨m, rfl⟩ : ∃ m, n = m + 1 := ⟨n - 1, by simp at hn; omega⟩
    simp [serializeTree, State.node, hw, blob]
  | node i l r ihl ihr =>
    obtain ⟨⟨w, hw⟩, hl, hr⟩ := h
    have hlpos := l.symbols_length_pos
    have hrpos := r.symbols_length_pos
    rw [symbols_node, List.length_append] at hn
    obtain ⟨m, rfl⟩ : ∃ m, n = m + 1 := ⟨n - 1, by omega⟩
    have hnode : s.node i = .internal w (BitVec.ofNat 9 l.root) (BitVec.ofNat 9 r.root) := by simp [State.node, hw]
    simp only [serializeTree, root_node, hnode, hsmall.left_root, hsmall.right_root, ihl hl hsmall.left (n := m) (by omega),
      ihr hr hsmall.right (n := m) (by omega), blob]

end Tree

/-! ## The decode walk (R194) -/

theorem bitsAt_cons {s : State} {S : StreamId} {k : Nat} {b : Bool} {bs : List Bool} :
    BitsAt s S k (b :: bs) ↔ s.bit S k = b ∧ BitsAt s S (k + 1) bs := by
  have happend := bitsAt_append (s := s) (S := S) (k := k) (xs := [b]) (ys := bs)
  refine happend.trans (and_congr_left fun _ => ⟨fun h => h 0 (by simp), fun h j hj => ?_⟩)
  obtain rfl : j = 0 := by simpa using hj
  exact h

theorem Tree.InArena.node_eq {s : State} {i : Nat} {l r : Tree} (h : (Tree.node i l r).InArena s.arena) :
    ∃ w, s.node i = .internal w (BitVec.ofNat 9 l.root) (BitVec.ofNat 9 r.root) := by
  obtain ⟨⟨w, hw⟩, -, -⟩ := h
  exact ⟨w, by simp [State.node, hw]⟩

section Walk

variable {node : Nat → Node} {bit : Nat → Bool} {i : Nat} (pos : Nat) {w : Word} {l r : BitVec 9}

theorem walkTree_leaf {a : Symbol} (h : node i = .leaf a w) (left : Nat) : walkTree node bit left pos i = some (a, pos) := by
  cases left <;> rw [walkTree, h]

theorem walkTree_internal_zero (h : node i = .internal w l r) : walkTree node bit 0 pos i = none := by
  rw [walkTree, h]

theorem walkTree_internal_succ (h : node i = .internal w l r) (left : Nat) : walkTree node bit (left + 1) pos i =
    walkTree node bit left (pos + 1) (if bit pos then r.toNat else l.toNat) := by
  rw [walkTree, h]

end Walk

/-- From a tree in the arena the walk ends at a leaf exactly when the leaf's path stands at the position within the bits left. -/
theorem Tree.InArena.walkTree_eq_some_iff {s : State} {t : Tree} (h : t.InArena s.arena) (hsmall : t.Small)
    {left pos : Nat} {a : Symbol} {k : Nat} : walkTree s.node (s.bit .P) left pos t.root = some (a, k) ↔
      ∃ e ∈ t.paths, e.1 = a ∧ e.2.length ≤ left ∧ BitsAt s .P pos e.2 ∧ k = pos + e.2.length := by
  induction t generalizing left pos with
  | leaf i b =>
    obtain ⟨w, hw⟩ := h
    have hnode : s.node i = .leaf b w := by simp [State.node, hw]
    have hempty : BitsAt s .P pos [] := fun j hj => absurd hj (by simp)
    simp [walkTree_leaf pos hnode, Tree.paths, hempty, eq_comm]
  | node i l r ihl ihr =>
    obtain ⟨w, hnode⟩ := h.node_eq
    obtain ⟨-, hl, hr⟩ := h
    cases left with
    | zero =>
      rw [Tree.root_node, walkTree_internal_zero pos hnode]
      simp only [reduceCtorEq, false_iff]
      rintro ⟨e, he, -, hlen, -⟩
      obtain ⟨f, -, rfl⟩ | ⟨f, -, rfl⟩ := Tree.mem_paths_node.mp he <;> simp at hlen
    | succ left =>
      have hpaths (b : Bool) (sub : Tree) (hsub : ∀ f, (f.1, b :: f.2) ∈ (Tree.node i l r).paths ↔ f ∈ sub.paths)
          (hbit : s.bit .P pos = b) :
          (∃ e ∈ sub.paths, e.1 = a ∧ e.2.length ≤ left ∧ BitsAt s .P (pos + 1) e.2 ∧ k = pos + 1 + e.2.length) ↔
          ∃ e ∈ (Tree.node i l r).paths, e.1 = a ∧ e.2.length ≤ left + 1 ∧ BitsAt s .P pos e.2 ∧ k = pos + e.2.length := by
        constructor
        · rintro ⟨f, hf, ha, hlen, hbits, hk⟩
          exact ⟨(f.1, b :: f.2), (hsub f).mpr hf, ha, by simpa using hlen, bitsAt_cons.mpr ⟨hbit, hbits⟩, by simp; omega⟩
        · rintro ⟨e, he, ha, hlen, hbits, hk⟩
          obtain ⟨f, hef⟩ : ∃ f : Symbol × List Bool, e = (f.1, b :: f.2) := by
            obtain ⟨f, -, rfl⟩ | ⟨f, -, rfl⟩ := Tree.mem_paths_node.mp he
            · exact ⟨f, by rw [← hbit, (bitsAt_cons.mp hbits).1]⟩
            · exact ⟨f, by rw [← hbit, (bitsAt_cons.mp hbits).1]⟩
          subst hef
          exact ⟨f, (hsub f).mp he, ha, by simpa using hlen, (bitsAt_cons.mp hbits).2, by simp at hk; omega⟩
      rw [Tree.root_node, walkTree_internal_succ pos hnode, hsmall.left_root, hsmall.right_root]
      cases hbit : s.bit .P pos with
      | false =>
        rw [if_neg (by simp), ihl hl hsmall.left]
        exact hpaths false l (fun f => by simp [Tree.mem_paths_node, Prod.ext_iff]) hbit
      | true =>
        rw [if_pos rfl, ihr hr hsmall.right]
        exact hpaths true r (fun f => by simp [Tree.mem_paths_node, Prod.ext_iff]) hbit

end Sys2Proof.Machine
end

section
/-!
PROOF. MODE HUFF (10_state.md R37 (e)): what the invariant says of the code table and the arena; the table that HUF_BUILD and HUF_MREAD
load; HUF_DEC (44_huffman.md R194), HUF_MWRITE (R195), and the properties of R199.
-/
namespace Sys2Proof.Machine

/-! ## The invariant's tree -/

namespace HuffTree

variable {s : State} {t : Tree} (h : HuffTree s t)
include h

theorem leaves_le : t.symbols.length ≤ 256 := symbols_length_le h.distinct

theorem nnodes_le : s.nnodes.toNat ≤ 511 := by
  have := h.leaves_le
  have := h.alpha
  have := h.nnodes
  omega

theorem small : t.Small := by
  intro i hi
  have := List.mem_range.mp (h.indices.mem_iff.mp hi)
  have := h.nnodes_le
  omega

theorem congr {u : State} (htable : Unchanged .table s u) : HuffTree u t := by
  obtain ⟨-, halpha, -, hroot, hnnodes, -, hclen, hcval, -, -, harena⟩ := htable
  exact ⟨by rw [hroot]; exact h.root, by rw [harena]; exact h.inArena, by rw [harena, hnnodes]; exact h.length,
    by rw [hnnodes]; exact h.indices, h.distinct, by rw [halpha]; exact h.alpha, by rw [hnnodes, halpha]; exact h.nnodes,
    by rw [hclen]; exact h.clen, by rw [hcval]; exact h.cval⟩

theorem codes_symbols_nodup : (t.codes.map (·.1)).Nodup := t.codes_map_fst.symm ▸ h.distinct

theorem clen_of_mem {e : Symbol × List Bool} (he : e ∈ t.codes) : (Table.at s.clen e.1).toNat = e.2.length := by
  have := Tree.code_length_le h.leaves_le he
  rw [h.clen, clenOf_at, codeFor_of_mem h.codes_symbols_nodup he, BitVec.toNat_ofNat, Nat.mod_eq_of_lt (by omega)]

theorem cval_of_mem {e : Symbol × List Bool} (he : e ∈ t.codes) : (Table.at s.cval e.1).toNat = bitsToNat e.2 := by
  have hlt := (bitsToNat_lt e.2).trans_le (Nat.pow_le_pow_right (by decide) (Tree.code_length_le h.leaves_le he))
  rw [h.cval, cvalOf_at, codeFor_of_mem h.codes_symbols_nodup he, BitVec.toNat_ofNat, Nat.mod_eq_of_lt hlt]

/-- The code table holds the code of each leaf. -/
theorem codeBits_of_mem {e : Symbol × List Bool} (he : e ∈ t.codes) : s.codeBits e.1 = e.2 := by
  rw [State.codeBits, h.clen_of_mem he, h.cval_of_mem he, natToBits_bitsToNat]

/-- The symbols with a code are the leaves. -/
theorem clen_ne_zero_iff {a : Symbol} : Table.at s.clen a ≠ 0#8 ↔ a ∈ t.symbols := by
  rw [← t.codes_map_fst]
  constructor
  · intro hlen
    by_contra hno
    rw [h.clen, clenOf_at, codeFor_of_notMem hno] at hlen
    exact hlen rfl
  · intro ha hzero
    obtain ⟨e, he, rfl⟩ := List.mem_map.mp ha
    have hlen := h.clen_of_mem he
    rw [hzero] at hlen
    exact Tree.code_ne_nil he (List.length_eq_zero_iff.mp hlen.symm)

/-- A symbol with a code is a leaf, whose code the table holds. -/
theorem code_mem {a : Symbol} (ha : Table.at s.clen a ≠ 0#8) : (a, s.codeBits a) ∈ t.codes := by
  have hmem := h.clen_ne_zero_iff.mp ha
  rw [← t.codes_map_fst] at hmem
  obtain ⟨e, he, rfl⟩ := List.mem_map.mp hmem
  rwa [h.codeBits_of_mem he]

theorem serializeTree_eq : serializeTree s.node Config.nnodeMax s.root.toNat = some t.blob := by
  have := h.leaves_le
  rw [← h.root]
  exact h.inArena.serializeTree_eq h.small (this.trans (by decide))

theorem blob_length : t.blob.length + 1 = 10 * s.alpha.toNat := by rw [t.blob_length, h.alpha]

theorem blob_length_le : t.blob.length ≤ Config.treeBitsMax := by
  have := t.blob_length
  have := h.leaves_le
  simp only [Config.treeBitsMax]
  omega

end HuffTree

/-- Settles O54: two codes are paths of one tree. -/
theorem huffmanCodesArePrefixFree : Obligations.HuffmanCodesArePrefixFree := by
  unfold Obligations.HuffmanCodesArePrefixFree
  intro s a b _ h ha hb hne hprefix
  obtain ⟨t, ht⟩ := h.tree
  have heq := Tree.codes_prefix_free (ht.code_mem ha) (ht.code_mem hb) hprefix
  exact hne (congrArg Prod.fst heq)

/-! ## The loaded tree -/

theorem small_of_perm_range {t : Tree} (hsymbols : t.symbols.Nodup) {n : Nat} (h : t.indices.Perm (List.range n)) :
    n + 1 = 2 * t.symbols.length ∧ n ≤ 511 ∧ t.Small := by
  have hlen := h.length_eq
  have hcount := t.indices_length
  have hle := symbols_length_le hsymbols
  rw [List.length_range] at hlen
  refine ⟨by omega, by omega, fun i hi => ?_⟩
  have := List.mem_range.mp (h.mem_iff.mp hi)
  omega

/-- Loading an arena that holds a tree of distinct leaves, each index used once, gives the invariant of MODE HUFF (R37 (e)). -/
theorem loadHuff_huffTree {arena : List Node} {t : Tree} (hin : t.InArena arena)
    (hindices : t.indices.Perm (List.range arena.length)) (hsymbols : t.symbols.Nodup) (s : State) :
    HuffTree (s.loadHuff arena t.root t.symbols.length (deriveCodes arena t.root)) t := by
  obtain ⟨hcount, hle, hsmall⟩ := small_of_perm_range hsymbols hindices
  have hleaves := symbols_length_le hsymbols
  have hcodes : deriveCodes arena t.root = t.codes := hin.deriveCodes_eq hsmall (hleaves.trans (by decide))
  have hnnodes : (BitVec.ofNat 10 arena.length).toNat = arena.length := by
    rw [BitVec.toNat_ofNat, Nat.mod_eq_of_lt (by omega)]
  have halpha : (BitVec.ofNat 9 t.symbols.length).toNat = t.symbols.length := by
    rw [BitVec.toNat_ofNat, Nat.mod_eq_of_lt (by omega)]
  rw [hcodes]
  exact ⟨hsmall.root_toNat.symm, hin, hnnodes.symm, by rw [State.loadHuff_nnodes, hnnodes]; exact hindices, hsymbols, halpha,
    by rw [State.loadHuff_nnodes, State.loadHuff_alpha, hnnodes, halpha]; exact hcount, rfl, rfl⟩

theorem loadHuff_huffOk {s : State} {arena : List Node} {root n : Nat} {codes : CodeList} {t : Tree}
    (h : HuffTree (s.loadHuff arena root n codes) t) : HuffOk (s.loadHuff arena root n codes) where
  tree := ⟨t, h⟩
  width := rfl
  maxlen := rfl
  rvalid := State.loadHuff_rvalid s arena root n codes
  rsym := State.loadHuff_rsym s arena root n codes

/-! ## HUF_DEC -/

/-- The decode FSM consumes exactly a code that stands at the cursor within the stream (R194). -/
theorem HuffTree.huffWalk_eq_some_iff {s : State} {t : Tree} (h : HuffTree s t) (hpos : s.p.rpos < s.p.wbits) {a : Symbol}
    {k : Nat} : s.huffWalk = some (a, k) ↔ ∃ e ∈ t.codes, e.1 = a ∧ s.p.rpos + e.2.length ≤ s.p.wbits ∧
      BitsAt s .P s.p.rpos e.2 ∧ k = s.p.rpos + e.2.length := by
  have hin := h.inArena
  have hsmall := h.small
  rw [State.huffWalk, ← h.root]
  cases t with
  | leaf i b =>
    obtain ⟨w, hw⟩ := hin
    have hnode : s.node i = .leaf b w := by simp [State.node, hw]
    have hbit : BitsAt s .P s.p.rpos [false] ↔ s.bit .P s.p.rpos = false :=
      bitsAt_cons.trans (and_iff_left fun j hj => absurd hj (by simp))
    simp only [Tree.root_leaf, hnode, Tree.codes, List.mem_singleton, exists_eq_left, hbit]
    cases s.bit .P s.p.rpos
    · simp [eq_comm, Nat.succ_le_iff.mpr hpos]
    · simp
  | node i l r =>
    obtain ⟨w, hnode⟩ := hin.node_eq
    have hwalk := hin.walkTree_eq_some_iff hsmall (left := s.p.wbits - s.p.rpos) (pos := s.p.rpos) (a := a) (k := k)
    rw [Tree.root_node] at hwalk ⊢
    have hleft (n : Nat) : n ≤ s.p.wbits - s.p.rpos ↔ s.p.rpos + n ≤ s.p.wbits := by omega
    simp only [hnode, hwalk, hleft]
    rfl

/-- HUF_DEC of a code that stands at the cursor. -/
theorem HuffTree.execHufDec_code {s : State} {t : Tree} (h : HuffTree s t) (hmode : s.mode = .huff)
    (hpos : s.p.rpos < s.p.wbits) {e : Symbol × List Bool} (he : e ∈ t.codes) (hfits : s.p.rpos + e.2.length ≤ s.p.wbits)
    (hbits : BitsAt s .P s.p.rpos e.2) :
    execHufDec s = .next ((s.setResult (e.1.setWidth 32)).setRpos .P (s.p.rpos + e.2.length)) := by
  have hwalk := (h.huffWalk_eq_some_iff hpos).mpr ⟨e, he, rfl, hfits, hbits, rfl⟩
  rw [execHufDec, if_neg (not_not.mpr hmode), if_neg (by omega), hwalk]

/-- Settles O48. -/
theorem hufDecDecodesOneCode : Obligations.HufDecDecodesOneCode := by
  unfold Obligations.HufDecDecodesOneCode
  intro s
  refine ⟨fun hmode => ?mode, fun hmode hend => ?eos, fun t hmode h hpos =>
    ⟨fun e he hfits hbits => ?code, fun hnone => ?corrupt⟩⟩
  case mode => exact raises_of_eq_fail (i := .hufDec) (if_pos hmode)
  case eos =>
    refine ⟨s.setResult eosWord, ?_, rfl, setResult_onlyChanges s _⟩
    exact (if_neg (not_not.mpr hmode)).trans (if_pos hend)
  case code =>
    refine ⟨_, h.execHufDec_code hmode hpos he hfits hbits, ?_, rfl, setResult_setRpos_onlyChanges s .P _ _⟩
    exact BitVec.toNat_setWidth_of_le (by decide)
  case corrupt =>
    have hwalk : s.huffWalk = none := by
      by_contra hsome
      obtain ⟨⟨a, k⟩, hfound⟩ := Option.ne_none_iff_exists'.mp hsome
      obtain ⟨e, he, -, hfits, hbits, -⟩ := (h.huffWalk_eq_some_iff hpos).mp hfound
      exact hnone e he hfits hbits
    refine raises_of_eq_fail (i := .hufDec) (e := .corruptData) ?_
    change execHufDec s = _
    rw [execHufDec, if_neg (not_not.mpr hmode), if_neg (by omega), hwalk]

/-- Settles O49: the code appended stands at the cursor. -/
theorem encThenHufDecReturnsTheSymbol : Obligations.EncThenHufDecReturnsTheSymbol := by
  unfold Obligations.EncThenHufDecReturnsTheSymbol
  intro s a hmode h hlen hcursor hfits
  obtain ⟨t, ht⟩ := h.tree
  have hcode := ht.code_mem hlen
  have hne : s.codeBits a ≠ [] := Tree.code_ne_nil hcode
  have hpos := List.length_pos_iff.mpr hne
  have hwrite : exec (.enc a) s = .next (s.append .P (s.codeBits a)) := execEnc_fits (by simp [hmode]) hlen hfits
  obtain ⟨hwbits, -, hnew, -, -⟩ := append_spec s .P hne
  simp only [State.stream_P] at hwbits hnew
  have hrpos : (s.append .P (s.codeBits a)).p.rpos = s.p.wbits := by simp [hcursor]
  have htree := ht.congr (append_onlyChanges s .P (s.codeBits a) .table (by simp))
  have hread := htree.execHufDec_code (by simp [hmode]) (by omega) hcode (by rw [hrpos, hwbits]) (hrpos.symm ▸ hnew)
  refine ⟨_, _, hwrite, hread, BitVec.toNat_setWidth_of_le (by decide), ?_, ?_⟩
  · simp [hcursor]
  · simp [State.codeBits]

/-! ## HUF_MWRITE -/

/-- HUF_MWRITE in a state whose arena holds a tree. -/
theorem HuffTree.execHufMwrite_eq {s : State} {t : Tree} (h : HuffTree s t) (hmode : s.mode = .huff) :
    execHufMwrite s = .next ((s.clearStream .M).append .M t.blob) := by
  rw [execHufMwrite, if_neg (not_not.mpr hmode), h.serializeTree_eq]
  exact if_neg (Nat.not_lt.mpr h.blob_length_le)

/-- Settles O50. -/
theorem hufMwriteSerializesTheTree : Obligations.HufMwriteSerializesTheTree := by
  unfold Obligations.HufMwriteSerializesTheTree
  intro s
  refine ⟨fun hmode => raises_of_eq_fail (i := .hufMwrite) (if_pos hmode), fun t hmode h => ?_⟩
  obtain ⟨hwbits, hrpos⟩ := clearStream_append_m s t.blob
  refine ⟨_, h.execHufMwrite_eq hmode, ?_, hrpos, hwbits, clearStream_append_bitsAt s .M _, fun a ha => ?_,
    clearStream_append_onlyChanges s .M _⟩
  · rw [hwbits, h.blob_length]
  · exact byte_clearStream_append s .M _ (.inr (hwbits ▸ ha))

/-- After HUF_MWRITE M holds the blob of the tree. -/
theorem HuffTree.holdsHuffBlob {s : State} {t : Tree} (h : HuffTree s t) :
    HoldsHuffBlob ((s.clearStream .M).append .M t.blob) t :=
  ⟨h.distinct, (clearStream_append_m s t.blob).1, clearStream_append_bitsAt s .M t.blob⟩

end Sys2Proof.Machine
end

section
/-!
PROOF. HUF_MREAD (44_huffman.md R196): Parse() reads a tree exactly when the blob of one with new, distinct leaves stands at the
position, and it numbers the tree's nodes in pre-order.
-/
namespace Sys2Proof.Machine

/-! ## The numbering in pre-order -/

namespace Tree

/-- The tree with its nodes numbered in pre-order from k on. -/
def renumber (k : Nat) : Tree → Tree
  | leaf _ a => leaf k a
  | node _ l r => node k (l.renumber (k + 1)) (r.renumber (k + 1 + l.indices.length))

/-- The arena entries of that tree, from index k on, every weight 0. -/
def nodesFrom (k : Nat) : Tree → List Node
  | leaf _ a => [.leaf a 0#32]
  | node _ l r => .internal 0#32 (BitVec.ofNat 9 (k + 1)) (BitVec.ofNat 9 (k + 1 + l.indices.length)) ::
      (l.nodesFrom (k + 1) ++ r.nodesFrom (k + 1 + l.indices.length))

@[simp] theorem nodesFrom_length (t : Tree) (k : Nat) : (t.nodesFrom k).length = t.indices.length := by
  induction t generalizing k with
  | leaf i a => rfl
  | node i l r ihl ihr => simp [nodesFrom, indices, ihl, ihr]

theorem weight_of_mem_nodesFrom {t : Tree} {k : Nat} {nd : Node} (h : nd ∈ t.nodesFrom k) : Node.weight nd = 0#32 := by
  induction t generalizing k with
  | leaf i a => rw [List.mem_singleton.mp h]; rfl
  | node i l r ihl ihr =>
    rw [nodesFrom, List.mem_cons, List.mem_append] at h
    obtain rfl | h | h := h
    · rfl
    · exact ihl h
    · exact ihr h

@[simp] theorem renumber_root (t : Tree) (k : Nat) : (t.renumber k).root = k := by cases t <;> rfl

theorem renumber_indices (t : Tree) (k : Nat) : (t.renumber k).indices = List.range' k t.indices.length := by
  induction t generalizing k with
  | leaf i a => rfl
  | node i l r ihl ihr =>
    rw [renumber, indices, ihl, ihr, indices, List.length_cons, List.length_append, List.range'_succ, ← List.range'_append_1]

@[simp] theorem renumber_blob (t : Tree) (k : Nat) : (t.renumber k).blob = t.blob := by
  induction t generalizing k with
  | leaf i a => rfl
  | node i l r ihl ihr => simp [renumber, blob, ihl, ihr]

@[simp] theorem renumber_paths (t : Tree) (k : Nat) : (t.renumber k).paths = t.paths := by
  induction t generalizing k with
  | leaf i a => rfl
  | node i l r ihl ihr => simp [renumber, paths, ihl, ihr]

@[simp] theorem renumber_symbols (t : Tree) (k : Nat) : (t.renumber k).symbols = t.symbols := by simp [symbols]

@[simp] theorem renumber_codes (t : Tree) (k : Nat) : (t.renumber k).codes = t.codes := by
  cases t with
  | leaf i a => rfl
  | node i l r => exact renumber_paths (node i l r) k

theorem renumber_inArena (t : Tree) {k : Nat} {pre post : List Node} (hk : pre.length = k) :
    (t.renumber k).InArena (pre ++ t.nodesFrom k ++ post) := by
  induction t generalizing k pre post with
  | leaf i a => exact ⟨0#32, by simp [nodesFrom, hk]⟩
  | node i l r ihl ihr =>
    refine ⟨⟨0#32, ?_⟩, ?_, ?_⟩
    · rw [renumber_root, renumber_root, List.append_assoc, List.getElem?_append_right (by omega)]
      simp [nodesFrom, hk]
    · have h := ihl (k := k + 1) (pre := pre ++ [.internal 0#32 (BitVec.ofNat 9 (k + 1))
        (BitVec.ofNat 9 (k + 1 + l.indices.length))]) (post := r.nodesFrom (k + 1 + l.indices.length) ++ post) (by simp [hk])
      simpa [nodesFrom] using h
    · have h := ihr (k := k + 1 + l.indices.length) (pre := pre ++ .internal 0#32 (BitVec.ofNat 9 (k + 1))
        (BitVec.ofNat 9 (k + 1 + l.indices.length)) :: l.nodesFrom (k + 1)) (post := post) (by simp [hk]; omega)
      simpa [nodesFrom] using h

/-- What Parse() answers for this tree at these arguments. -/
def parsed (t : Tree) (pos k internals : Nat) (seen : List Symbol) : Parsed where
  nodes := t.nodesFrom k
  pos := pos + t.blob.length
  internals := internals + (t.symbols.length - 1)
  seen := t.symbols.reverse ++ seen

/-- The answer for an internal node, made of those for its subtrees. -/
theorem parsed_node (i : Nat) (l r : Tree) (pos k internals : Nat) (seen : List Symbol) :
    (node i l r).parsed pos k internals seen =
      let lp := l.parsed (pos + 1) (k + 1) (internals + 1) seen
      let rp := r.parsed lp.pos (k + 1 + lp.nodes.length) lp.internals lp.seen
      { nodes := .internal 0#32 (BitVec.ofNat 9 (k + 1)) (BitVec.ofNat 9 (k + 1 + lp.nodes.length)) :: (lp.nodes ++ rp.nodes)
        pos := rp.pos, internals := rp.internals, seen := rp.seen } := by
  have hl := l.symbols_length_pos
  have hr := r.symbols_length_pos
  simp [parsed, nodesFrom, blob, symbols_node]
  omega

end Tree

/-! ## Parse() -/

section Parse

variable {s : State}

/-- Parse() at a leaf marker. -/
theorem parseTree_leaf {n pos k internals : Nat} {seen : List Symbol} (hpos : pos < s.m.wbits) (hbit : s.bit .M pos = true) :
    parseTree (s.bit .M) s.m.wbits (n + 1) pos k internals seen =
      if s.m.wbits - (pos + 1) < 8 then none
      else if BitVec.ofNat 8 (s.number .M (pos + 1) 8) ∈ seen then none
      else some { nodes := [.leaf (BitVec.ofNat 8 (s.number .M (pos + 1) 8)) 0#32], pos := pos + 9, internals := internals,
                  seen := BitVec.ofNat 8 (s.number .M (pos + 1) 8) :: seen } := by
  rw [parseTree, if_neg (by omega), if_pos hbit]
  rfl

/-- Parse() at an internal-node marker. -/
theorem parseTree_internal {n pos k internals : Nat} {seen : List Symbol} (hpos : pos < s.m.wbits)
    (hbit : s.bit .M pos = false) : parseTree (s.bit .M) s.m.wbits (n + 1) pos k internals seen =
      if Config.internalMax < internals + 1 then none
      else (parseTree (s.bit .M) s.m.wbits n (pos + 1) (k + 1) (internals + 1) seen).bind fun l =>
        (parseTree (s.bit .M) s.m.wbits n l.pos (k + 1 + l.nodes.length) l.internals l.seen).map fun r =>
          { nodes := .internal 0#32 (BitVec.ofNat 9 (k + 1)) (BitVec.ofNat 9 (k + 1 + l.nodes.length)) :: (l.nodes ++ r.nodes)
            pos := r.pos, internals := r.internals, seen := r.seen } := by
  rw [parseTree, if_neg (by omega), hbit, if_neg (by simp)]
  cases parseTree (s.bit .M) s.m.wbits n (pos + 1) (k + 1) (internals + 1) seen with
  | none => rfl
  | some l =>
    simp only [Option.bind_some]
    cases parseTree (s.bit .M) s.m.wbits n l.pos (k + 1 + l.nodes.length) l.internals l.seen <;> rfl

/-- Parse() reads a tree whose blob stands at the position, whose leaves are new and distinct, and which passes no bound. -/
theorem parseTree_of_blob {t : Tree} {n pos k internals : Nat} {seen : List Symbol} (hbits : BitsAt s .M pos t.blob)
    (hfits : pos + t.blob.length ≤ s.m.wbits) (hnew : (t.symbols.reverse ++ seen).Nodup)
    (hinternals : internals + t.symbols.length ≤ Config.internalMax + 1) (hn : t.symbols.length ≤ n) :
    parseTree (s.bit .M) s.m.wbits n pos k internals seen = some (t.parsed pos k internals seen) := by
  induction t generalizing n pos k internals seen with
  | leaf i a =>
    obtain ⟨m, rfl⟩ : ∃ m, n = m + 1 := ⟨n - 1, by simp at hn; omega⟩
    obtain ⟨hbit, hordinal⟩ := bitsAt_cons.mp hbits
    simp only [Tree.blob, List.length_cons, natToBits_length] at hfits
    have ha : a ∉ seen := fun ha => by simp [ha] at hnew
    rw [parseTree_leaf (by omega) hbit, if_neg (by omega), hordinal.number_natToBits a.isLt, BitVec.ofNat_toNat,
      BitVec.setWidth_eq, if_neg ha]
    simp [Tree.parsed, Tree.nodesFrom, Tree.blob]
  | node i l r ihl ihr =>
    have hlpos := l.symbols_length_pos
    have hrpos := r.symbols_length_pos
    rw [Tree.symbols_node, List.length_append] at hn hinternals
    rw [Tree.symbols_node, List.reverse_append, List.append_assoc] at hnew
    obtain ⟨m, rfl⟩ : ∃ m, n = m + 1 := ⟨n - 1, by omega⟩
    obtain ⟨hbit, hsubs⟩ := bitsAt_cons.mp hbits
    obtain ⟨hlbits, hrbits⟩ := bitsAt_append.mp hsubs
    simp only [Tree.blob, List.length_cons, List.length_append] at hfits
    have hl := ihl (n := m) (k := k + 1) (internals := internals + 1) hlbits (by omega) hnew.of_append_right (by omega) (by omega)
    have hr := ihr (n := m) (pos := (l.parsed (pos + 1) (k + 1) (internals + 1) seen).pos)
      (k := k + 1 + (l.parsed (pos + 1) (k + 1) (internals + 1) seen).nodes.length)
      (internals := (l.parsed (pos + 1) (k + 1) (internals + 1) seen).internals)
      (seen := (l.parsed (pos + 1) (k + 1) (internals + 1) seen).seen) hrbits (by simp only [Tree.parsed]; omega) hnew
      (by simp only [Tree.parsed]; omega) (by omega)
    rw [parseTree_internal (by omega) hbit, if_neg (by omega), hl, Option.bind_some, hr, Option.map_some, Tree.parsed_node]

/-- What Parse() reads is a tree whose blob stands at the position and whose leaves are new and distinct. -/
theorem blob_of_parseTree {n pos k internals : Nat} {seen : List Symbol} {p : Parsed} (hseen : seen.Nodup)
    (h : parseTree (s.bit .M) s.m.wbits n pos k internals seen = some p) :
    ∃ t : Tree, p = t.parsed pos k internals seen ∧ BitsAt s .M pos t.blob ∧ pos + t.blob.length ≤ s.m.wbits ∧
      (t.symbols.reverse ++ seen).Nodup := by
  induction n generalizing pos k internals seen p with
  | zero => cases h
  | succ n ih =>
    have hpos : pos < s.m.wbits := by
      by_contra hend
      rw [parseTree, if_pos (by omega)] at h
      cases h
    cases hbit : s.bit .M pos with
    | true =>
      rw [parseTree_leaf hpos hbit] at h
      split_ifs at h with hshort hmem
      obtain rfl := Option.some.inj h
      have hordinal := bitsAt_number s .M (pos + 1) 8
      have hlt : s.number .M (pos + 1) 8 < 2 ^ 8 := BitStream.number_lt _ _ _ _
      refine ⟨.leaf 0 (BitVec.ofNat 8 (s.number .M (pos + 1) 8)), ?_, bitsAt_cons.mpr ⟨hbit, ?_⟩, ?_, ?_⟩
      · simp [Tree.parsed, Tree.nodesFrom, Tree.blob]
      · rwa [BitVec.toNat_ofNat, Nat.mod_eq_of_lt hlt]
      · simp only [Tree.blob, List.length_cons, natToBits_length]
        omega
      · simpa using ⟨hmem, hseen⟩
    | false =>
      rw [parseTree_internal hpos hbit] at h
      split_ifs at h
      obtain ⟨lp, hlp, hrest⟩ := Option.bind_eq_some_iff.mp h
      obtain ⟨rp, hrp, rfl⟩ := Option.map_eq_some_iff.mp hrest
      obtain ⟨l, rfl, hlbits, -, hlnew⟩ := ih hseen hlp
      obtain ⟨r, rfl, hrbits, hrfits, hrnew⟩ := ih hlnew hrp
      refine ⟨.node 0 l r, (Tree.parsed_node ..).symm, bitsAt_cons.mpr ⟨hbit, bitsAt_append.mpr ⟨hlbits, hrbits⟩⟩, ?_, ?_⟩
      · simp only [Tree.parsed] at hrfits
        simp only [Tree.blob, List.length_cons, List.length_append]
        omega
      · rw [Tree.symbols_node, List.reverse_append, List.append_assoc]
        exact hrnew

/-- M parses to what Parse() answers for a tree exactly when it holds that tree's blob (R196). -/
theorem parseHuff_eq_some_iff {p : Parsed} : s.parseHuff = some p ↔ ∃ t, HoldsHuffBlob s t ∧ p = t.parsed 0 0 0 [] := by
  rw [State.parseHuff]
  constructor
  · intro h
    cases hparse : parseTree (s.bit .M) s.m.wbits (Config.internalMax + 2) 0 0 0 [] with
    | none => rw [hparse] at h; cases h
    | some q =>
      simp only [hparse] at h
      split_ifs at h with hend
      obtain rfl := Option.some.inj h
      obtain ⟨t, rfl, hbits, -, hnew⟩ := blob_of_parseTree List.nodup_nil hparse
      refine ⟨t, ⟨by simpa using hnew, ?_, hbits⟩, rfl⟩
      simpa [Tree.parsed, eq_comm] using hend
  · rintro ⟨t, h, rfl⟩
    have hleaves := symbols_length_le h.distinct
    have hparse := parseTree_of_blob (n := Config.internalMax + 2) (k := 0) (internals := 0) (seen := []) h.bits
      (by rw [h.length, Nat.zero_add]) (by simpa using h.distinct) (by simp only [Config.internalMax]; omega)
      (by simp only [Config.internalMax]; omega)
    simp only [hparse]
    exact if_neg (by simp [Tree.parsed, h.length])

theorem parseHuff_eq_none_iff : s.parseHuff = none ↔ ¬ ∃ t, HoldsHuffBlob s t := by
  rw [Option.eq_none_iff_forall_ne_some]
  constructor
  · rintro h ⟨t, ht⟩
    exact h _ (parseHuff_eq_some_iff.mpr ⟨t, ht, rfl⟩)
  · intro h p hp
    obtain ⟨t, ht, -⟩ := parseHuff_eq_some_iff.mp hp
    exact h ⟨t, ht⟩

end Parse

/-! ## HUF_MREAD -/

/-- The state after HUF_MREAD of the blob of a tree. -/
def State.loadTree (s : State) (t : Tree) : State :=
  (s.loadHuff (t.nodesFrom 0) 0 t.symbols.length (deriveCodes (t.nodesFrom 0) 0)).setRpos .M s.m.wbits

theorem execHufMread_blob {s : State} {t : Tree} (h : HoldsHuffBlob s t) : execHufMread s = .next (s.loadTree t) := by
  rw [execHufMread, parseHuff_eq_some_iff.mpr ⟨t, h, rfl⟩]
  simp [Tree.parsed, State.loadTree]

theorem HuffOk.congr {s t : State} (h : HuffOk s) (htable : Unchanged .table s t) : HuffOk t := by
  obtain ⟨-, -, hwidth, -, -, hmaxlen, hclen, -, hrvalid, hrsym, -⟩ := id htable
  obtain ⟨tree, htree⟩ := h.tree
  exact ⟨⟨tree, htree.congr htable⟩, by rw [hwidth]; exact h.width, by rw [hmaxlen, hclen]; exact h.maxlen,
    by rw [hrvalid]; exact h.rvalid, by rw [hrsym]; exact h.rsym⟩

/-- The loaded state holds the tree numbered in pre-order, and meets the invariant of MODE HUFF. -/
theorem loadTree_huffTree (s : State) {t : Tree} (ht : t.symbols.Nodup) :
    HuffTree (s.loadTree t) (t.renumber 0) ∧ HuffOk (s.loadTree t) := by
  have hin := t.renumber_inArena (k := 0) (pre := []) (post := []) rfl
  rw [List.nil_append, List.append_nil] at hin
  have hindices : (t.renumber 0).indices.Perm (List.range (t.nodesFrom 0).length) := by
    rw [t.renumber_indices, t.nodesFrom_length, List.range_eq_range']
  have htree := loadHuff_huffTree hin hindices (by rwa [Tree.renumber_symbols]) s
  rw [Tree.renumber_root, Tree.renumber_symbols] at htree
  have htable := setRpos_onlyChanges (s.loadHuff (t.nodesFrom 0) 0 t.symbols.length (deriveCodes (t.nodesFrom 0) 0)) .M
    s.m.wbits .table (by simp)
  exact ⟨htree.congr htable, (loadHuff_huffOk htree).congr htable⟩

theorem loadTree_onlyChanges (s : State) (t : Tree) : OnlyChanges [.table, .rpos .M] s (s.loadTree t) :=
  ((loadHuff_onlyChanges s _ _ _ _).mono (by simp)).trans ((setRpos_onlyChanges _ .M _).mono (by simp))

theorem loadTree_weight (s : State) (t : Tree) {j : Nat} (hj : j < (s.loadTree t).arena.length) :
    Node.weight ((s.loadTree t).node j) = 0#32 := by
  rw [State.node, List.getElem?_eq_getElem hj, Option.getD_some]
  exact Tree.weight_of_mem_nodesFrom (t := t) (k := 0) (List.getElem_mem hj)

/-- Settles O51. -/
theorem hufMreadLoadsExactlyTheSerializedTrees : Obligations.HufMreadLoadsExactlyTheSerializedTrees := by
  unfold Obligations.HufMreadLoadsExactlyTheSerializedTrees
  intro s
  constructor
  · intro t h
    obtain ⟨htree, hok⟩ := loadTree_huffTree s h.distinct
    refine ⟨s.loadTree t, t.renumber 0, execHufMread_blob h, rfl, htree, t.renumber_blob 0, ?_, rfl, ?_, ?_,
      fun j hj => loadTree_weight s t (htree.length.symm ▸ hj), hok, rfl, loadTree_onlyChanges s t⟩
    · rw [← htree.length, t.renumber_indices, ← List.range_eq_range']
      exact congrArg List.range (t.nodesFrom_length 0).symm
    · rw [htree.clen, t.renumber_codes]
    · rw [htree.cval, t.renumber_codes]
  · intro hno
    refine raises_of_eq_fail (i := .hufMread) (e := .corruptMetadata) ?_
    change execHufMread s = _
    rw [execHufMread, parseHuff_eq_none_iff.mpr hno]

/-- Settles O52: both trees have one blob, so one list of codes and one count of leaves. -/
theorem hufMreadRestoresTheWrittenCodes : Obligations.HufMreadRestoresTheWrittenCodes := by
  unfold Obligations.HufMreadRestoresTheWrittenCodes
  intro s hmode h
  obtain ⟨t, ht⟩ := h.tree
  obtain ⟨htree, hok⟩ := loadTree_huffTree ((s.clearStream .M).append .M t.blob) ht.distinct
  refine ⟨_, _, ht.execHufMwrite_eq hmode, execHufMread_blob ht.holdsHuffBlob, ?_⟩
  have hclen : (((s.clearStream .M).append .M t.blob).loadTree t).clen = s.clen := by rw [htree.clen, ht.clen, t.renumber_codes]
  have halpha := htree.alpha.trans ((congrArg List.length (t.renumber_symbols 0)).trans ht.alpha.symm)
  have hnnodes := htree.nnodes
  rw [halpha, ← ht.nnodes] at hnnodes
  exact ⟨hclen, by rw [htree.cval, ht.cval, t.renumber_codes], BitVec.eq_of_toNat_eq halpha,
    BitVec.eq_of_toNat_eq (Nat.succ.inj hnnodes), by rw [hok.maxlen, hclen, h.maxlen], rfl⟩

end Sys2Proof.Machine
end

section
/-!
PROOF. The tree builder's merges (44_huffman.md R190, R191): the minimum selector, the induction over the merges, and which nodes each
merge takes.
-/
namespace Sys2Proof.Machine

/-! ## The minimum selector -/

theorem Key.less_iff {x y : Key} : Key.less x y = true ↔ x.1.toNat < y.1.toNat ∨ (x.1.toNat = y.1.toNat ∧ x.2 < y.2) := by
  rw [Key.less, decide_eq_true_iff, BitVec.toNat_inj]

theorem Key.less_trans {x y z : Key} (hxy : Key.less x y = true) (hyz : Key.less y z = true) : Key.less x z = true := by
  rw [Key.less_iff] at *
  omega

theorem Key.less_of_not_less {x y : Key} (h : ¬ Key.less x y = true) (hne : x ≠ y) : Key.less y x = true := by
  have : x.1.toNat = y.1.toNat → x.2 ≠ y.2 := fun h1 h2 => hne (Prod.ext (BitVec.eq_of_toNat_eq h1) h2)
  rw [Key.less_iff] at *
  omega

/-- The key is in the work-set, and less than every other key of it. -/
def IsLeast (work : List Key) (x : Key) : Prop := x ∈ work ∧ ∀ z ∈ work, z ≠ x → Key.less x z = true

theorem isLeast_foldl (m : Key) (ks : List Key) :
    IsLeast (m :: ks) (ks.foldl (fun m x => if Key.less x m then x else m) m) := by
  induction ks generalizing m with
  | nil => exact ⟨List.mem_cons_self, fun z hz hne => absurd (List.mem_singleton.mp hz) hne⟩
  | cons x xs ih =>
    rw [List.foldl_cons]
    by_cases hless : Key.less x m = true
    · rw [if_pos hless]
      obtain ⟨hmem, hleast⟩ := ih x
      refine ⟨List.mem_cons_of_mem _ hmem, fun z hz hne => ?_⟩
      obtain rfl | hz := List.mem_cons.mp hz
      · by_cases hx : x = xs.foldl (fun m x => if Key.less x m then x else m) x
        · rwa [← hx]
        · exact Key.less_trans (hleast x List.mem_cons_self hx) hless
      · exact hleast z hz hne
    · rw [if_neg hless]
      obtain ⟨hmem, hleast⟩ := ih m
      refine ⟨List.cons_subset_cons m (List.subset_cons_self x xs) hmem, fun z hz hne => ?_⟩
      obtain rfl | hz := List.mem_cons.mp hz
      · exact hleast z List.mem_cons_self hne
      obtain rfl | hz := List.mem_cons.mp hz
      · by_cases hm : m = xs.foldl (fun m x => if Key.less x m then x else m) m
        · rw [← hm] at hne ⊢
          exact Key.less_of_not_less hless hne
        · have hfold := hleast m List.mem_cons_self hm
          by_cases hzm : z = m
          · rwa [hzm]
          · exact Key.less_trans hfold (Key.less_of_not_less hless hzm)
      · exact hleast z (List.mem_cons_of_mem _ hz) hne

theorem leastKey_of_ne_nil {work : List Key} (h : work ≠ []) : ∃ x, leastKey work = some x ∧ IsLeast work x := by
  cases work with
  | nil => exact absurd rfl h
  | cons k ks => exact ⟨_, rfl, isLeast_foldl k ks⟩

/-! ## The induction over the merges -/

/-- The two keys that a merge takes: the least, and the least of the others. -/
structure TwoLeast (work : List Key) (x y : Key) : Prop where
  first : IsLeast work x
  second : IsLeast (work.erase x) y

/-- The arena after the merge of these two keys. -/
def mergedArena (arena : List Node) (x y : Key) : List Node :=
  arena ++ [.internal (x.1 + y.1) (BitVec.ofNat 9 x.2) (BitVec.ofNat 9 y.2)]

/-- The work-set after the merge of these two keys. -/
def mergedWork (arena : List Node) (work : List Key) (x y : Key) : List Key :=
  (work.erase x).erase y ++ [(x.1 + y.1, arena.length)]

@[simp] theorem mergedArena_length (arena : List Node) (x y : Key) : (mergedArena arena x y).length = arena.length + 1 := by
  simp [mergedArena]

namespace TwoLeast

variable {work : List Key} {x y : Key} (h : TwoLeast work x y)
include h

theorem perm : work.Perm (x :: y :: (work.erase x).erase y) :=
  (List.perm_cons_erase h.first.1).trans ((List.perm_cons_erase h.second.1).cons x)

theorem first_mem : x ∈ work := h.first.1

theorem second_mem : y ∈ work := List.mem_of_mem_erase h.second.1

theorem perm_indices : (work.map (·.2)).Perm (x.2 :: y.2 :: ((work.erase x).erase y).map (·.2)) := h.perm.map _

theorem mergedWork_length (arena : List Node) : (mergedWork arena work x y).length + 1 = work.length := by
  simp [mergedWork, h.perm.length_eq]

end TwoLeast

theorem mergeNodes_succ {work : List Key} {x y : Key} (hx : leastKey work = some x) (hy : leastKey (work.erase x) = some y)
    (n : Nat) (arena : List Node) :
    mergeNodes (n + 1) arena work = mergeNodes n (mergedArena arena x y) (mergedWork arena work x y) := by
  simp only [mergeNodes, hx, hy, mergedArena, mergedWork]

/-- While two nodes or more remain, there are two to merge. -/
theorem exists_twoLeast {work : List Key} (h : 2 ≤ work.length) :
    ∃ x y, leastKey work = some x ∧ leastKey (work.erase x) = some y ∧ TwoLeast work x y := by
  obtain ⟨x, hx, hfirst⟩ := leastKey_of_ne_nil (work := work) (by rintro rfl; simp at h)
  have hlen := List.length_erase_of_mem hfirst.1
  obtain ⟨y, hy, hsecond⟩ := leastKey_of_ne_nil (work := work.erase x) (by
    intro hnil
    rw [hnil] at hlen
    simp at hlen
    omega)
  exact ⟨x, y, hx, hy, hfirst, hsecond⟩

/-- What every merge keeps holds at the end, where one node remains. -/
theorem mergeNodes_induction {P : List Node → List Key → Prop}
    (hmerge : ∀ arena work x y, P arena work → TwoLeast work x y → P (mergedArena arena x y) (mergedWork arena work x y))
    {n : Nat} {arena : List Node} {work : List Key} (h : P arena work) (hne : work ≠ []) (hn : work.length ≤ n + 1) :
    ∃ key, P (mergeNodes n arena work) [key] := by
  by_cases htwo : 2 ≤ work.length
  · obtain ⟨x, y, hx, hy, hleast⟩ := exists_twoLeast htwo
    have hlen := hleast.mergedWork_length arena
    obtain ⟨m, rfl⟩ : ∃ m, n = m + 1 := ⟨n - 1, by omega⟩
    rw [mergeNodes_succ hx hy]
    exact mergeNodes_induction hmerge (hmerge _ _ _ _ h hleast) (by simp [mergedWork]) (by omega)
  · obtain ⟨key, rfl⟩ : ∃ key, work = [key] :=
      List.length_eq_one_iff.mp (by have := List.length_pos_iff.mpr hne; omega)
    cases n with
    | zero => exact ⟨key, h⟩
    | succ n =>
      refine ⟨key, ?_⟩
      simpa [mergeNodes, leastKey] using h
termination_by n

/-! ## What is merged -/

/-- The state with this arena. -/
def State.withArena (s : State) (arena : List Node) : State := { s with arena := arena }

section Node

variable {s t : State} {k : Nat}

theorem node_withArena (s : State) {arena : List Node} {nd : Node} (h : arena[k]? = some nd) : (s.withArena arena).node k = nd := by
  simp [State.withArena, State.node, h]

/-- A merge leaves the nodes made before. -/
theorem node_withArena_mergedArena (s : State) {arena : List Node} (x y : Key) (hk : k < arena.length) :
    (s.withArena (mergedArena arena x y)).node k = (s.withArena arena).node k := by
  simp [State.withArena, State.node, mergedArena, List.getElem?_append_left hk]

/-- A merge makes the next node. -/
theorem node_withArena_mergedArena_length (s : State) (arena : List Node) (x y : Key) :
    (s.withArena (mergedArena arena x y)).node arena.length =
      .internal (x.1 + y.1) (BitVec.ofNat 9 x.2) (BitVec.ofNat 9 y.2) :=
  node_withArena s (by simp [mergedArena])

theorem childOf_congr {j : Nat} (h : s.node j = t.node j) (i : Nat) : childOf s i j ↔ childOf t i j := by
  rw [childOf, childOf, h]

theorem inWorkSet_congr (h : ∀ j < k, s.node j = t.node j) (i : Nat) : inWorkSet s k i ↔ inWorkSet t k i :=
  and_congr_right fun _ => forall₂_congr fun j hj => not_congr (childOf_congr (h j hj) i)

/-- A merge leaves the work-set that stood before it. -/
theorem inWorkSet_withArena_mergedArena (s : State) (arena : List Node) (x y : Key) (i : Nat) :
    inWorkSet (s.withArena (mergedArena arena x y)) arena.length i ↔ inWorkSet (s.withArena arena) arena.length i :=
  inWorkSet_congr (fun _ hj => node_withArena_mergedArena s x y hj) i

theorem nodeKeyLess_congr {i j : Nat} (hi : s.node i = t.node i) (hj : s.node j = t.node j) :
    nodeKeyLess s i j ↔ nodeKeyLess t i j := by
  rw [nodeKeyLess, nodeKeyLess, hi, hj]

/-- Node k merges the two nodes of least key in the work-set, the first on the left (R190, R191). -/
def MergesLeast (t : State) (k : Nat) : Prop :=
  ∃ x y, t.node k = .internal (Node.weight (t.node x) + Node.weight (t.node y)) (BitVec.ofNat 9 x) (BitVec.ofNat 9 y) ∧
    inWorkSet t k x ∧ inWorkSet t k y ∧ x ≠ y ∧
    (∀ z, inWorkSet t k z → z ≠ x → nodeKeyLess t x z) ∧
    (∀ z, inWorkSet t k z → z ≠ x → z ≠ y → nodeKeyLess t y z)

theorem MergesLeast.congr (hmerges : MergesLeast s k) (h : ∀ j ≤ k, s.node j = t.node j) : MergesLeast t k := by
  obtain ⟨x, y, hnode, hx, hy, hne, hleast, hnext⟩ := hmerges
  have hset (i : Nat) : inWorkSet s k i ↔ inWorkSet t k i := inWorkSet_congr (fun j hj => h j hj.le) i
  have hxnode := h x hx.1.le
  have hynode := h y hy.1.le
  refine ⟨x, y, ?_, (hset x).mp hx, (hset y).mp hy, hne, fun z hz hzx => ?_, fun z hz hzx hzy => ?_⟩
  · rw [← h k le_rfl, hnode, hxnode, hynode]
  · exact (nodeKeyLess_congr hxnode (h z hz.1.le)).mp (hleast z ((hset z).mpr hz) hzx)
  · exact (nodeKeyLess_congr hynode (h z hz.1.le)).mp (hnext z ((hset z).mpr hz) hzx hzy)

end Node

/-- The builder's arena and work-set after some merges over n leaves. -/
structure Merging (s : State) (n : Nat) (arena : List Node) (work : List Key) : Prop where
  size : arena.length + work.length = 2 * n
  few : n ≤ 256
  nonempty : work ≠ []
  distinct : (work.map (·.2)).Nodup
  indices : ∀ i, i ∈ work.map (·.2) ↔ inWorkSet (s.withArena arena) arena.length i
  weights : ∀ key ∈ work, Node.weight ((s.withArena arena).node key.2) = key.1
  children : ∀ j < arena.length, ∀ i, childOf (s.withArena arena) i j → i < j
  merged : ∀ k, n ≤ k → k < arena.length → MergesLeast (s.withArena arena) k

namespace Merging

variable {s : State} {n : Nat} {arena : List Node} {work : List Key} (h : Merging s n arena work)
include h

theorem arena_length_lt : arena.length < 512 := by
  have := h.size
  have := h.few
  have := List.length_pos_iff.mpr h.nonempty
  omega

theorem index_lt {key : Key} (hkey : key ∈ work) : key.2 < arena.length :=
  ((h.indices key.2).mp (List.mem_map_of_mem hkey)).1

theorem index_toNat {key : Key} (hkey : key ∈ work) : (BitVec.ofNat 9 key.2).toNat = key.2 := by
  have := h.index_lt hkey
  have := h.arena_length_lt
  rw [BitVec.toNat_ofNat, Nat.mod_eq_of_lt (by omega)]

/-- The order of keys is that of the nodes. -/
theorem nodeKeyLess_of_less {x y : Key} (hx : x ∈ work) (hy : y ∈ work) (hless : Key.less x y = true) :
    nodeKeyLess (s.withArena arena) x.2 y.2 := by
  rw [nodeKeyLess, h.weights x hx, h.weights y hy]
  exact Key.less_iff.mp hless

/-- The last node made is in the work-set: only later ones could have taken it. -/
theorem last_mem : arena.length - 1 ∈ work.map (·.2) := by
  have := h.size
  have hpos := List.length_pos_iff.mpr h.nonempty
  have hlen : 0 < arena.length := by
    by_contra hzero
    obtain ⟨key, hkey⟩ := List.exists_mem_of_ne_nil work h.nonempty
    have := h.index_lt hkey
    omega
  refine (h.indices _).mpr ⟨by omega, fun j hj hchild => ?_⟩
  have := h.children j hj _ hchild
  omega

variable {x y : Key} (hleast : TwoLeast work x y)
include hleast

theorem merged_nodup : (x.2 :: y.2 :: ((work.erase x).erase y).map (·.2)).Nodup :=
  hleast.perm_indices.nodup_iff.mp h.distinct

theorem index_ne : x.2 ≠ y.2 :=
  fun heq => (List.nodup_cons.mp (h.merged_nodup hleast)).1 (heq ▸ List.mem_cons_self)

/-- What the merge leaves in the work-set. -/
theorem mem_rest_iff {i : Nat} : i ∈ ((work.erase x).erase y).map (·.2) ↔ i ∈ work.map (·.2) ∧ i ≠ x.2 ∧ i ≠ y.2 := by
  have hnodup := h.merged_nodup hleast
  obtain ⟨hx, hnodup⟩ := List.nodup_cons.mp hnodup
  obtain ⟨hy, -⟩ := List.nodup_cons.mp hnodup
  rw [hleast.perm_indices.mem_iff, List.mem_cons, List.mem_cons]
  constructor
  · intro hi
    exact ⟨.inr (.inr hi), fun heq => hx (heq ▸ List.mem_cons_of_mem _ hi), fun heq => hy (heq ▸ hi)⟩
  · rintro ⟨hi | hi | hi, hix, hiy⟩
    · exact absurd hi hix
    · exact absurd hi hiy
    · exact hi

theorem childOf_last {i : Nat} : childOf (s.withArena (mergedArena arena x y)) i arena.length ↔ i = x.2 ∨ i = y.2 := by
  simp only [childOf, node_withArena_mergedArena_length, h.index_toNat hleast.first_mem, h.index_toNat hleast.second_mem]

theorem inWorkSet_merged {i : Nat} : inWorkSet (s.withArena (mergedArena arena x y)) (arena.length + 1) i ↔
    i ∈ ((work.erase x).erase y).map (·.2) ∨ i = arena.length := by
  rw [h.mem_rest_iff hleast, h.indices i, ← inWorkSet_withArena_mergedArena s arena x y i]
  constructor
  · rintro ⟨hi, hfree⟩
    have hlast := mt (h.childOf_last hleast).mpr (hfree _ (by omega))
    rw [not_or] at hlast
    by_cases heq : i = arena.length
    · exact .inr heq
    · exact .inl ⟨⟨by omega, fun j hj => hfree j (by omega)⟩, hlast⟩
  · rintro (⟨⟨hi, hfree⟩, hix, hiy⟩ | rfl)
    · refine ⟨by omega, fun j hj hchild => ?_⟩
      by_cases hjlast : j = arena.length
      · subst hjlast
        obtain rfl | rfl := (h.childOf_last hleast).mp hchild
        · exact hix rfl
        · exact hiy rfl
      · exact hfree j (by omega) hchild
    · refine ⟨by omega, fun j hj hchild => ?_⟩
      have hx := h.index_lt hleast.first_mem
      have hy := h.index_lt hleast.second_mem
      by_cases hjlast : j = arena.length
      · subst hjlast
        obtain heq | heq := (h.childOf_last hleast).mp hchild <;> omega
      · have := h.children j (by omega) _ ((childOf_congr (node_withArena_mergedArena s x y (by omega)) _).mp hchild)
        omega

/-- The new node merges the two of least key. -/
theorem mergesLeast_last : MergesLeast (s.withArena (mergedArena arena x y)) arena.length := by
  have hx := hleast.first_mem
  have hy := hleast.second_mem
  have hxnode := node_withArena_mergedArena s x y (h.index_lt hx)
  have hynode := node_withArena_mergedArena s x y (h.index_lt hy)
  have hset (i : Nat) := (inWorkSet_withArena_mergedArena s arena x y i).trans (h.indices i).symm
  refine ⟨x.2, y.2, ?_, (hset _).mpr (List.mem_map_of_mem hx), (hset _).mpr (List.mem_map_of_mem hy), h.index_ne hleast,
    fun z hz hzx => ?_, fun z hz hzx hzy => ?_⟩
  · rw [node_withArena_mergedArena_length, hxnode, hynode, h.weights x hx, h.weights y hy]
  · obtain ⟨key, hkey, rfl⟩ := List.mem_map.mp ((hset z).mp hz)
    rw [nodeKeyLess_congr hxnode (node_withArena_mergedArena s x y (h.index_lt hkey))]
    exact h.nodeKeyLess_of_less hx hkey (hleast.first.2 key hkey fun heq => hzx (congrArg Prod.snd heq))
  · obtain ⟨key, hkey, rfl⟩ := List.mem_map.mp ((hset z).mp hz)
    rw [nodeKeyLess_congr hynode (node_withArena_mergedArena s x y (h.index_lt hkey))]
    have hrest : key ∈ work.erase x := (List.mem_erase_of_ne fun heq => hzx (congrArg Prod.snd heq)).mpr hkey
    exact h.nodeKeyLess_of_less hy hkey (hleast.second.2 key hrest fun heq => hzy (congrArg Prod.snd heq))

/-- A merge keeps the invariant. -/
theorem merge : Merging s n (mergedArena arena x y) (mergedWork arena work x y) where
  size := by
    have := h.size
    have := hleast.mergedWork_length arena
    rw [mergedArena_length]
    omega
  few := h.few
  nonempty := by simp [mergedWork]
  distinct := by
    have hnodup := h.merged_nodup hleast
    have hrest := (List.nodup_cons.mp (List.nodup_cons.mp hnodup).2).2
    rw [mergedWork, List.map_append, List.map_singleton]
    refine hrest.append (List.nodup_singleton _) (List.disjoint_singleton.mpr fun hmem => ?_)
    obtain ⟨key, hkey, heq⟩ := List.mem_map.mp ((h.mem_rest_iff hleast).mp hmem).1
    have := h.index_lt hkey
    omega
  indices := fun i => by
    rw [mergedArena_length, h.inWorkSet_merged hleast, mergedWork, List.map_append, List.mem_append, List.map_singleton,
      List.mem_singleton]
  weights := fun key hkey => by
    rw [mergedWork, List.mem_append, List.mem_singleton] at hkey
    obtain hkey | rfl := hkey
    · have hmem := List.mem_of_mem_erase (List.mem_of_mem_erase hkey)
      rw [node_withArena_mergedArena s x y (h.index_lt hmem), h.weights key hmem]
    · rw [node_withArena_mergedArena_length]
      rfl
  children := fun j hj i hchild => by
    rw [mergedArena_length] at hj
    by_cases hlast : j = arena.length
    · subst hlast
      obtain rfl | rfl := (h.childOf_last hleast).mp hchild
      · exact h.index_lt hleast.first_mem
      · exact h.index_lt hleast.second_mem
    · exact h.children j (by omega) i ((childOf_congr (node_withArena_mergedArena s x y (by omega)) i).mp hchild)
  merged := fun k hk hlt => by
    rw [mergedArena_length] at hlt
    by_cases hlast : k = arena.length
    · exact hlast ▸ h.mergesLeast_last hleast
    · exact (h.merged k hk (by omega)).congr fun j hj => (node_withArena_mergedArena s x y (by omega)).symm

end Merging

/-! ## The start (step 1 of R191) -/

@[simp] theorem leafNodes_length (freq : Table Word) : (leafNodes freq).length = (alphabet freq).length := by
  simp [leafNodes]

theorem leafNodes_getElem? {freq : Table Word} {j : Nat} (h : j < (alphabet freq).length) :
    (leafNodes freq)[j]? = some (.leaf (alphabet freq)[j] (Table.at freq (alphabet freq)[j])) := by
  simp [leafNodes, h]

@[simp] theorem leafKeys_length (freq : Table Word) : (leafKeys freq).length = (alphabet freq).length := by
  simp [leafKeys]

theorem leafKeys_map_snd (freq : Table Word) : (leafKeys freq).map (·.2) = List.range (alphabet freq).length := by
  rw [leafKeys, List.zipIdx_map_snd, List.range_eq_range', List.length_map]

theorem leafKeys_map_fst (freq : Table Word) : (leafKeys freq).map (·.1) = (alphabet freq).map (Table.at freq) := by
  rw [leafKeys, List.zipIdx_map_fst]

theorem leafKeys_ne_nil {freq : Table Word} (h : alphabet freq ≠ []) : leafKeys freq ≠ [] := by
  rw [← List.length_pos_iff, leafKeys_length]
  exact List.length_pos_iff.mpr h

theorem merging_leaves (s : State) {freq : Table Word} (h : alphabet freq ≠ []) :
    Merging s (alphabet freq).length (leafNodes freq) (leafKeys freq) := by
  have hnode {j : Nat} (hj : j < (alphabet freq).length) : (s.withArena (leafNodes freq)).node j =
      .leaf (alphabet freq)[j] (Table.at freq (alphabet freq)[j]) := node_withArena s (leafNodes_getElem? hj)
  have hleaf {i j : Nat} (hj : j < (alphabet freq).length) : ¬ childOf (s.withArena (leafNodes freq)) i j := by
    rw [childOf, hnode hj]
    exact id
  refine ⟨?_, alphabet_length_le freq, leafKeys_ne_nil h, ?_, fun i => ?_, fun key hkey => ?_, fun j hj i hchild => ?_, ?_⟩
  · rw [leafNodes_length, leafKeys_length, Nat.two_mul]
  · rw [leafKeys_map_snd]
    exact List.nodup_range
  · rw [leafKeys_map_snd, List.mem_range, inWorkSet, leafNodes_length]
    exact (and_iff_left fun j hj => hleaf hj).symm
  · obtain ⟨hlt, heq⟩ := List.mem_zipIdx' (show (key.1, key.2) ∈ _ from hkey)
    rw [List.length_map] at hlt
    rw [hnode hlt, heq, List.getElem_map]
    rfl
  · exact absurd hchild (hleaf (leafNodes_length freq ▸ hj))
  · intro k hk hlt
    rw [leafNodes_length] at hlt
    omega

end Sys2Proof.Machine
end

section
/-!
PROOF. HUF_BUILD (44_huffman.md R191): the merges join the leaves of the alphabet into one tree, whose root has the sum of the counters
as its weight.
-/
namespace Sys2Proof.Machine

/-! ## The forest under construction -/

/-- The trees whose roots are the nodes of the work-set, after some merges over the leaves of the alphabet. -/
structure Forest (freq : Table Word) (arena : List Node) (work : List Key) (forest : List Tree) : Prop where
  roots : List.Forall₂ (fun key t => key.2 = Tree.root t) work forest
  inArena : ∀ t ∈ forest, t.InArena arena
  indices : (forest.flatMap Tree.indices).Perm (List.range arena.length)
  symbols : (forest.flatMap Tree.symbols).Perm (alphabet freq)

/-- A merge joins two trees of the forest. -/
theorem Forest.merge {freq : Table Word} {arena : List Node} {work : List Key} {forest : List Tree}
    (h : Forest freq arena work forest) {x y : Key} (hleast : TwoLeast work x y) :
    ∃ forest', Forest freq (mergedArena arena x y) (mergedWork arena work x y) forest' := by
  obtain ⟨sorted, hroots, hperm⟩ := List.perm_comp_forall₂ hleast.perm.symm h.roots
  obtain ⟨left, sorted, hx, hroots', rfl⟩ := List.forall₂_cons_left_iff.mp hroots
  obtain ⟨right, rest, hy, hrest, rfl⟩ := List.forall₂_cons_left_iff.mp hroots'
  have hin (t : Tree) (ht : t ∈ left :: right :: rest) : t.InArena (mergedArena arena x y) :=
    (h.inArena t (hperm.mem_iff.mp ht)).append _
  refine ⟨rest ++ [.node arena.length left right], List.rel_append hrest (.cons rfl .nil), fun t ht => ?_, ?_, ?_⟩
  · obtain ht | ht := List.mem_append.mp ht
    · exact hin t (List.mem_cons_of_mem _ (List.mem_cons_of_mem _ ht))
    · rw [List.mem_singleton.mp ht]
      exact ⟨⟨x.1 + y.1, by simp [mergedArena, hx, hy]⟩, hin left (by simp), hin right (by simp)⟩
  · have hold := (hperm.flatMap_right Tree.indices).trans h.indices
    simp only [List.flatMap_cons] at hold
    rw [mergedArena_length, List.range_succ]
    have hnew : (rest ++ [Tree.node arena.length left right]).flatMap Tree.indices =
        rest.flatMap Tree.indices ++ arena.length :: (left.indices ++ right.indices) := by simp [Tree.indices]
    rw [hnew]
    refine List.perm_middle.trans (((List.perm_append_comm.trans ?_).cons _).trans (List.perm_append_singleton _ _).symm)
    rwa [List.append_assoc]
  · have hold := (hperm.flatMap_right Tree.symbols).trans h.symbols
    simp only [List.flatMap_cons] at hold
    have hnew : (rest ++ [Tree.node arena.length left right]).flatMap Tree.symbols =
        rest.flatMap Tree.symbols ++ (left.symbols ++ right.symbols) := by simp [Tree.symbols_node]
    rw [hnew]
    refine List.perm_append_comm.trans ?_
    rwa [List.append_assoc]

theorem forall₂_root_leaf (work : List Symbol) (k : Nat) (f : Symbol → Word) :
    List.Forall₂ (fun key t => key.2 = Tree.root t) ((work.map f).zipIdx k) ((work.zipIdx k).map fun e => Tree.leaf e.2 e.1) := by
  induction work generalizing k with
  | nil => exact .nil
  | cons a as ih => exact .cons rfl (ih (k + 1))

/-- The leaves are a forest. -/
theorem forest_leaves (freq : Table Word) :
    Forest freq (leafNodes freq) (leafKeys freq) ((alphabet freq).zipIdx.map fun e => .leaf e.2 e.1) where
  roots := forall₂_root_leaf _ 0 _
  inArena := fun t ht => by
    obtain ⟨e, he, rfl⟩ := List.mem_map.mp ht
    obtain ⟨hlt, heq⟩ := List.mem_zipIdx' (show (e.1, e.2) ∈ _ from he)
    exact ⟨_, (leafNodes_getElem? hlt).trans (by rw [heq])⟩
  indices := by
    rw [leafNodes_length, List.range_eq_range', ← List.zipIdx_map_snd 0 (alphabet freq), List.flatMap_map, List.map_eq_flatMap]
    exact .refl _
  symbols := by
    have hfst := List.zipIdx_map_fst 0 (alphabet freq)
    rw [List.map_eq_flatMap] at hfst
    rw [List.flatMap_map]
    exact .of_eq hfst

/-! ## The arena that is built -/

/-- The sum of the weights in the work-set. -/
def weightSum (work : List Key) : Word := (work.map (·.1)).sum

theorem weightSum_merge {work : List Key} {x y : Key} (h : TwoLeast work x y) (arena : List Node) :
    weightSum (mergedWork arena work x y) = weightSum work := by
  have hperm := (h.perm.map (·.1)).sum_eq
  rw [weightSum, weightSum, hperm, mergedWork]
  simp only [List.map_append, List.map_cons, List.map_nil, List.sum_append, List.sum_cons, List.sum_nil]
  ring

/-- What HUF_BUILD has made: the leaves first, then the merges, and one tree with the last node at its root. -/
structure Built (s : State) (freq : Table Word) (arena : List Node) (t : Tree) : Prop where
  leaves : leafNodes freq <+: arena
  length : arena.length + 1 = 2 * (alphabet freq).length
  inArena : t.InArena arena
  indices : t.indices.Perm (List.range arena.length)
  symbols : t.symbols.Perm (alphabet freq)
  root : t.root = arena.length - 1
  weight : Node.weight ((s.withArena arena).node t.root) = ((alphabet freq).map (Table.at freq)).sum
  merged : ∀ k, (alphabet freq).length ≤ k → k < arena.length → MergesLeast (s.withArena arena) k

theorem buildArena_built (s : State) {freq : Table Word} (h : alphabet freq ≠ []) : ∃ t, Built s freq (buildArena freq) t := by
  obtain ⟨key, ⟨hmerging, hleaves, hsum⟩, forest, hforest⟩ :=
    mergeNodes_induction (n := (alphabet freq).length)
      (P := fun arena work => (Merging s (alphabet freq).length arena work ∧ leafNodes freq <+: arena ∧
        weightSum work = ((alphabet freq).map (Table.at freq)).sum) ∧ ∃ forest, Forest freq arena work forest)
      (fun arena work x y ⟨⟨hmerging, hleaves, hsum⟩, forest, hforest⟩ hleast =>
        ⟨⟨hmerging.merge hleast, hleaves.trans (List.prefix_append _ _), (weightSum_merge hleast arena).trans hsum⟩,
          hforest.merge hleast⟩)
      ⟨⟨merging_leaves s h, List.prefix_refl _, congrArg List.sum (leafKeys_map_fst freq)⟩, _, forest_leaves freq⟩
      (leafKeys_ne_nil h) (by rw [leafKeys_length]; omega)
  obtain ⟨hroots, hin, hindices, hsymbols⟩ := hforest
  obtain ⟨t, _, hroot, hnil, rfl⟩ := List.forall₂_cons_left_iff.mp hroots
  obtain rfl := List.forall₂_nil_left_iff.mp hnil
  have hsize := hmerging.size
  have hlast : (buildArena freq).length - 1 = key.2 := List.mem_singleton.mp hmerging.last_mem
  have hweight := hmerging.weights key List.mem_cons_self
  have hkey : weightSum [key] = key.1 := by simp [weightSum]
  rw [List.flatMap_singleton] at hindices hsymbols
  exact ⟨t, hleaves, hsize, hin t List.mem_cons_self, hindices, hsymbols, hroot.symm.trans hlast.symm,
    by rw [← hroot, ← hsum, hkey]; exact hweight, hmerging.merged⟩

/-! ## HUF_BUILD -/

theorem alphabet_ne_nil {freq : Table Word} (h : ∃ a, Table.at freq a ≠ 0#32) : alphabet freq ≠ [] := by
  obtain ⟨a, ha⟩ := h
  exact List.ne_nil_of_mem ((mem_alphabet freq a).mpr ha)

/-- HUF_BUILD loads the tree built. -/
theorem execHufBuild_built (s : State) (h : ∃ a, Table.at s.freq a ≠ 0#32) :
    ∃ u t, exec .hufBuild s = .next u ∧ Built s s.freq (buildArena s.freq) t ∧ u.arena = buildArena s.freq ∧
      u.mode = .huff ∧ OnlyChanges [.table] s u ∧ HuffTree u t ∧ HuffOk u := by
  have hne := alphabet_ne_nil h
  obtain ⟨t, hbuilt⟩ := buildArena_built s hne
  obtain ⟨hempty, -⟩ | ⟨-, hexec⟩ := execHufBuild_cases (s := s)
  · exact absurd hempty hne
  have htree := loadHuff_huffTree hbuilt.inArena hbuilt.indices (hbuilt.symbols.nodup_iff.mpr (alphabet_nodup _)) s
  rw [hbuilt.root, hbuilt.symbols.length_eq] at htree
  exact ⟨_, t, hexec, hbuilt, rfl, rfl, loadHuff_onlyChanges s _ _ _ _, htree, loadHuff_huffOk htree⟩

/-- Settles O45: the leaves of the tree built are the alphabet. -/
theorem hufBuildBuildsOneTree : Obligations.HufBuildBuildsOneTree := by
  unfold Obligations.HufBuildBuildsOneTree
  refine fun s => ⟨fun hsome => ?_, fun hzero => ?_⟩
  · obtain ⟨u, t, hexec, hbuilt, harena, hmode, honly, htree, hok⟩ := execHufBuild_built s hsome
    have halpha : u.alpha.toNat = (alphabet s.freq).length := htree.alpha.trans hbuilt.symbols.length_eq
    have hnnodes := htree.nnodes
    have hroot : u.root.toNat = u.nnodes.toNat - 1 := by
      rw [← htree.root, hbuilt.root, ← htree.length, harena]
    have hpos := t.symbols_length_pos
    have hcount := hbuilt.symbols.length_eq
    refine ⟨u, hexec, hmode, halpha, by rw [hnnodes, halpha], by omega, fun j hj => ?_, hok, fun a => ?_, honly⟩
    · obtain ⟨more, hmore⟩ := hbuilt.leaves
      rw [harena, ← hmore, List.getElem?_append_left (by rwa [leafNodes_length]), leafNodes_getElem? hj]
    · rw [htree.clen_ne_zero_iff, hbuilt.symbols.mem_iff, mem_alphabet]
  · obtain ⟨-, hexec⟩ | ⟨hne, -⟩ := execHufBuild_cases (s := s)
    · exact raises_of_eq_fail (i := .hufBuild) hexec
    · exact absurd (alphabet_eq_nil_iff.mpr hzero) hne

/-- Settles O46: every merge takes the two least keys. -/
theorem hufBuildMergesTheTwoLeastKeys : Obligations.HufBuildMergesTheTwoLeastKeys := by
  unfold Obligations.HufBuildMergesTheTwoLeastKeys
  intro s t hsome hexec k hk hlt
  obtain ⟨u, tree, hu, hbuilt, harena, -, honly, htree, -⟩ := execHufBuild_built s hsome
  obtain rfl : u = t := Host.Outcome.next.inj (hu.symm.trans hexec)
  rw [← htree.length, harena] at hlt
  refine (hbuilt.merged k hk hlt).congr fun j hj => ?_
  have hget := List.getElem?_eq_getElem (l := buildArena s.freq) (show j < _ by omega)
  rw [node_withArena s hget, State.node, harena, hget]
  rfl

theorem sum_map_ofNat (l : List Symbol) (f : Symbol → Word) :
    BitVec.ofNat 32 (l.map fun a => (f a).toNat).sum = (l.map f).sum := by
  induction l with
  | nil => rfl
  | cons a as ih => rw [List.map_cons, List.sum_cons, BitVec.ofNat_add, ih, BitVec.ofNat_toNat, BitVec.setWidth_eq, List.map_cons,
      List.sum_cons]

/-- The symbols out of the alphabet count nothing. -/
theorem sumOver_alphabet (freq : Table Word) :
    sumOver (fun a => (Table.at freq a).toNat) = ((alphabet freq).map fun a => (Table.at freq a).toNat).sum := by
  rw [sumOver, alphabet]
  induction allSymbols with
  | nil => rfl
  | cons a as ih => by_cases ha : Table.at freq a = 0#32 <;> simp [ha, ih]

theorem TotalOk.total_eq {s : State} (h : TotalOk s) : s.total = ((alphabet s.freq).map (Table.at s.freq)).sum := by
  rw [← sum_map_ofNat, ← sumOver_alphabet, ← h, BitVec.ofNat_toNat, BitVec.setWidth_eq]

/-- Settles O47: a merge keeps the sum of the weights in the work-set. -/
theorem rootWeightIsTotal : Obligations.RootWeightIsTotal := by
  unfold Obligations.RootWeightIsTotal
  intro s t htotal hsome hexec
  obtain ⟨u, tree, hu, hbuilt, harena, -, -, htree, -⟩ := execHufBuild_built s hsome
  obtain rfl : u = t := Host.Outcome.next.inj (hu.symm.trans hexec)
  have hget := List.getElem?_eq_getElem hbuilt.inArena.root_lt
  rw [htotal.total_eq, ← hbuilt.weight, ← htree.root, node_withArena s hget, State.node, harena, hget]
  rfl

end Sys2Proof.Machine
end

section
/-!
PROOF. The streams' invariant (10_state.md R33, R37 (b)): every command completes or raises, and keeps both streams within their
capacities and in canonical form, where the code table meets the invariant of its mode.
-/
namespace Sys2Proof.Machine

/-! ## The streams' invariant -/

/-- Both streams meet their invariant. -/
def StreamsOk (s : State) : Prop := ∀ S, StreamOk (s.config.cap S) (s.stream S)

namespace StreamsOk

variable {s t : State} (h : StreamsOk s)
include h

theorem congr (hconfig : t.config = s.config) (hp : t.p = s.p) (hm : t.m = s.m) : StreamsOk t := by
  intro S
  rw [hconfig]
  cases S with
  | P => exact (congrArg (StreamOk _) hp).mpr (h .P)
  | M => exact (congrArg (StreamOk _) hm).mpr (h .M)

theorem setStream {S : StreamId} {st : BitStream} (hst : StreamOk (s.config.cap S) st) : StreamsOk (s.setStream S st) := by
  intro T
  rw [State.setStream_config]
  by_cases hT : T = S
  · rw [hT, State.setStream_stream]
    exact hst
  · rw [State.setStream_stream_other s st hT]
    exact h T

theorem setCounts (S : StreamId) {wbits rpos : Nat} (hrpos : rpos ≤ wbits) (hwbits : wbits ≤ 8 * s.config.cap S) :
    StreamsOk (s.setStream S { s.stream S with wbits := wbits, rpos := rpos }) :=
  h.setStream ⟨hrpos, hwbits, (h S).canonical, (h S).within⟩

theorem setRpos (S : StreamId) {k : Nat} (hk : k ≤ (s.stream S).wbits) : StreamsOk (s.setRpos S k) :=
  h.setCounts S hk (h S).wbits_le

theorem clearStream (S : StreamId) : StreamsOk (s.clearStream S) := h.setCounts S le_rfl (Nat.zero_le _)

theorem append (S : StreamId) {bits : List Bool} (hfits : (s.stream S).wbits + bits.length ≤ 8 * s.config.cap S) :
    StreamsOk (s.append S bits) := by
  refine h.setStream ⟨?_, ?_, BitStream.append_wf _ _ bits (h S).canonical, BitStream.append_within _ _ bits hfits (h S).within⟩
  · rw [BitStream.append_rpos, BitStream.append_wbits]
    exact (h S).rpos_le.trans (Nat.le_add_right _ _)
  · rwa [BitStream.append_wbits]

theorem clearStream_append (S : StreamId) {bits : List Bool} (hfits : bits.length ≤ 8 * s.config.cap S) :
    StreamsOk ((s.clearStream S).append S bits) :=
  (h.clearStream S).append S (by simpa using hfits)

theorem writeByte (S : StreamId) {a : Nat} (d : Byte) (ha : a < s.config.cap S) :
    StreamsOk (s.setStream S ((s.stream S).writeByte a d)) :=
  h.setStream ⟨(h S).rpos_le, (h S).wbits_le, Memory.wf_write a d (h S).canonical, Memory.within_write d (h S).within ha⟩

theorem setResult_setRpos (v : Word) (S : StreamId) {k : Nat} (hk : k ≤ (s.stream S).wbits) :
    StreamsOk ((s.setResult v).setRpos S k) :=
  (h.congr (t := s.setResult v) rfl rfl rfl).setRpos S (by cases S <;> exact hk)

end StreamsOk

theorem tableOk_fixed {s : State} (hmode : s.mode = .fixed) : TableOk s ↔ FixedOk s := by rw [TableOk, hmode]

theorem tableOk_huff {s : State} (hmode : s.mode = .huff) : TableOk s ↔ HuffOk s := by rw [TableOk, hmode]

theorem tableOk_none {s : State} (hmode : s.mode = .none) : TableOk s ↔ NoneOk s := by rw [TableOk, hmode]

/-! ## The stream commands -/

theorem setlenBits_le {b : BitVec 21} {n : Nat} (p : BitVec 3) (hb : b.toNat ≤ n) : setlenBits b p ≤ 8 * n := by
  unfold setlenBits
  omega

/-- The answer is a next state, whose streams meet their invariant. -/
def KeepsStreams (r : Result) : Prop := ∃ t, r = .next t ∧ StreamsOk t

section Streams

variable {s : State} (h : StreamsOk s) (S : StreamId)
include h

theorem StreamsOk.keeps_fail (i : Instr) (e : ErrCode) (pos : Nat) : KeepsStreams (Machine.fail i e pos s) :=
  ⟨s.raise (encode i) e pos, rfl, h.congr rfl rfl rfl⟩

theorem StreamsOk.keeps_setResult (v : Word) : KeepsStreams (.next (s.setResult v)) := ⟨_, rfl, h.congr rfl rfl rfl⟩

theorem setlenCmd_keepsStreams (b : BitVec 21) (p : BitVec 3) : KeepsStreams (exec (setlenCmd b p S) s) := by
  rw [exec_setlenCmd]
  obtain ⟨-, hanswer⟩ | ⟨hb, -, hanswer⟩ := setlenStream_cases S (setlenCmd b p S) s b p <;> rw [hanswer]
  · exact h.keeps_fail _ _ _
  · exact ⟨_, rfl, h.setCounts S (Nat.zero_le _) (setlenBits_le p hb)⟩

theorem putCmd_keepsStreams (n : BitVec 5) (v : BitVec 16) : KeepsStreams (exec (putCmd n v S) s) := by
  rw [exec_putCmd]
  obtain ⟨-, hanswer⟩ | ⟨-, -, hanswer⟩ | ⟨-, hfits, hanswer⟩ := putStream_cases S (putCmd n v S) s n v <;> rw [hanswer]
  · exact h.keeps_fail _ _ _
  · exact h.keeps_fail _ _ _
  · exact ⟨_, rfl, h.append S (by rwa [natToBits_length])⟩

theorem getCmd_keepsStreams (n : BitVec 5) : KeepsStreams (exec (getCmd n S) s) := by
  rw [exec_getCmd]
  obtain ⟨-, hanswer⟩ | ⟨-, -, hanswer⟩ | ⟨-, hn, hanswer⟩ := getStream_cases S (getCmd n S) s n <;> rw [hanswer]
  · exact h.keeps_fail _ _ _
  · exact h.keeps_fail _ _ _
  · have hrpos := (h S).rpos_le
    exact ⟨_, rfl, h.setResult_setRpos _ S (by omega)⟩

theorem wrCmd_keepsStreams (a : BitVec 16) (d : Byte) : KeepsStreams (exec (wrCmd a d S) s) := by
  rw [exec_wrCmd]
  obtain ⟨-, hanswer⟩ | ⟨ha, hanswer⟩ := wrStream_cases S (wrCmd a d S) s a d <;> rw [hanswer]
  · exact h.keeps_fail _ _ _
  · exact ⟨_, rfl, h.writeByte S d ha⟩

theorem rdCmd_keepsStreams (a : BitVec 16) : KeepsStreams (exec (rdCmd a S) s) := by
  rw [exec_rdCmd]
  obtain ⟨-, hanswer⟩ | ⟨-, hanswer⟩ := rdStream_cases S (rdCmd a S) s a <;> rw [hanswer]
  · exact h.keeps_fail _ _ _
  · exact h.keeps_setResult _

theorem clrCmd_keepsStreams : KeepsStreams (exec (clrCmd S) s) := by
  rw [exec_clrCmd, clrStream_eq]
  exact ⟨_, rfl, h.clearStream S⟩

theorem rewindCmd_keepsStreams : KeepsStreams (exec (rewindCmd S) s) := by
  rw [exec_rewindCmd, rewindStream_eq]
  exact ⟨_, rfl, h.setRpos S (Nat.zero_le _)⟩

/-! ## The other commands -/

theorem softReset_streamsOk : StreamsOk s.softReset := by
  intro S
  cases S with
  | P => exact ⟨le_rfl, Nat.zero_le _, (h .P).canonical, (h .P).within⟩
  | M => exact ⟨le_rfl, Nat.zero_le _, (h .M).canonical, (h .M).within⟩

theorem profAdd_keepsStreams (a : Symbol) (k : BitVec 16) : KeepsStreams (execProfAdd a k s) := by
  obtain ⟨-, hanswer⟩ | ⟨-, hanswer⟩ := execProfAdd_cases s a k <;> rw [hanswer]
  · exact h.keeps_fail _ _ _
  · exact ⟨_, rfl, h.congr rfl rfl rfl⟩

theorem flBuild_keepsStreams : KeepsStreams (execFlBuild s) := by
  obtain ⟨-, hanswer⟩ | ⟨-, hanswer⟩ := execFlBuild_cases s <;> rw [hanswer]
  · exact h.keeps_fail _ _ _
  · exact ⟨_, rfl, h.congr rfl rfl rfl⟩

theorem flDec_keepsStreams : KeepsStreams (execFlDec s) := by
  obtain ⟨-, hanswer⟩ | ⟨-, -, hanswer⟩ | ⟨-, -, -, hanswer⟩ | ⟨-, -, hwidth, -, hanswer⟩ := execFlDec_cases s <;> rw [hanswer]
  · exact h.keeps_fail _ _ _
  · exact h.keeps_setResult _
  · exact h.keeps_fail _ _ _
  · have hrpos : s.p.rpos ≤ s.p.wbits := (h .P).rpos_le
    exact ⟨_, rfl, h.setResult_setRpos _ .P (show _ ≤ s.p.wbits by omega)⟩

/-- The greatest fixed-length blob fits M (00_scope.md R8). -/
theorem flMwrite_keepsStreams (hlegal : s.config.Legal) (htable : TableOk s) : KeepsStreams (execFlMwrite s) := by
  obtain ⟨-, hanswer⟩ | ⟨hmode, hanswer⟩ := execFlMwrite_cases s <;> rw [hanswer]
  · exact h.keeps_fail _ _ _
  · have hfixed := (tableOk_fixed hmode).mp htable
    have hentries := Nat.mul_le_mul hfixed.alpha_le (Nat.add_le_add_left hfixed.width_le 8)
    have hmcap := hlegal.mcap_ge
    refine ⟨_, rfl, h.clearStream_append .M ?_⟩
    change _ ≤ 8 * s.config.mcap
    rw [fixedMetadata_eq hfixed, length_fixedBlob, hfixed.entries_length]
    omega

theorem flMread_keepsStreams : KeepsStreams (execFlMread s) := by
  obtain ⟨-, hanswer⟩ | ⟨w, entries, -, hanswer⟩ := execFlMread_cases s <;> rw [hanswer]
  · exact h.keeps_fail _ _ _
  · exact ⟨_, rfl, (h.congr (t := s.loadFixed entries w) rfl rfl rfl).setRpos .M le_rfl⟩

theorem hufBuild_keepsStreams : KeepsStreams (execHufBuild s) := by
  obtain ⟨-, hanswer⟩ | ⟨-, hanswer⟩ := execHufBuild_cases s <;> rw [hanswer]
  · exact h.keeps_fail _ _ _
  · exact ⟨_, rfl, h.congr rfl rfl rfl⟩

theorem hufDec_keepsStreams (htable : TableOk s) : KeepsStreams (execHufDec s) := by
  obtain ⟨-, hanswer⟩ | ⟨-, -, hanswer⟩ | ⟨-, -, -, hanswer⟩ | ⟨a, pos, hmode, hne, hwalk, hanswer⟩ := execHufDec_cases s <;>
    rw [hanswer]
  · exact h.keeps_fail _ _ _
  · exact h.keeps_setResult _
  · exact h.keeps_fail _ _ _
  · obtain ⟨t, htree⟩ := ((tableOk_huff hmode).mp htable).tree
    obtain ⟨e, -, -, hfits, -, rfl⟩ := (htree.huffWalk_eq_some_iff (lt_of_le_of_ne (h .P).rpos_le hne)).mp hwalk
    exact ⟨_, rfl, h.setResult_setRpos _ .P hfits⟩

/-- The greatest Huffman blob fits M (00_scope.md R8). -/
theorem hufMwrite_keepsStreams (hlegal : s.config.Legal) (htable : TableOk s) : KeepsStreams (execHufMwrite s) := by
  by_cases hmode : s.mode = .huff
  · obtain ⟨t, htree⟩ := ((tableOk_huff hmode).mp htable).tree
    have hblob : t.blob.length ≤ 2559 := htree.blob_length_le
    have hmcap := hlegal.mcap_ge
    exact ⟨_, htree.execHufMwrite_eq hmode, h.clearStream_append .M (show _ ≤ 8 * s.config.mcap by omega)⟩
  · rw [execHufMwrite, if_pos hmode]
    exact h.keeps_fail _ _ _

theorem hufMread_keepsStreams : KeepsStreams (execHufMread s) := by
  obtain ⟨-, hanswer⟩ | ⟨t, -, hanswer⟩ := execHufMread_cases s <;> rw [hanswer]
  · exact h.keeps_fail _ _ _
  · exact ⟨_, rfl, (h.congr (t := s.loadHuff t.nodes 0 t.seen.length (deriveCodes t.nodes 0)) rfl rfl rfl).setRpos .M le_rfl⟩

theorem nodeRd_keepsStreams (j : BitVec 9) : KeepsStreams (execNodeRd j s) := by
  obtain ⟨-, hanswer⟩ | ⟨-, -, hanswer⟩ | ⟨-, -, hanswer⟩ := execNodeRd_cases s j <;> rw [hanswer]
  · exact h.keeps_fail _ _ _
  · exact h.keeps_fail _ _ _
  · exact h.keeps_setResult _

theorem nodeWt_keepsStreams (j : BitVec 9) : KeepsStreams (execNodeWt j s) := by
  obtain ⟨-, hanswer⟩ | ⟨-, -, hanswer⟩ | ⟨-, -, hanswer⟩ := execNodeWt_cases s j <;> rw [hanswer]
  · exact h.keeps_fail _ _ _
  · exact h.keeps_fail _ _ _
  · exact h.keeps_setResult _

theorem enc_keepsStreams (a : Symbol) : KeepsStreams (execEnc a s) := by
  obtain ⟨-, hanswer⟩ | ⟨-, -, hanswer⟩ | ⟨-, -, -, hanswer⟩ | ⟨-, -, hfits, hanswer⟩ := execEnc_cases s a <;> rw [hanswer]
  · exact h.keeps_fail _ _ _
  · exact h.keeps_fail _ _ _
  · exact h.keeps_fail _ _ _
  · exact ⟨_, rfl, h.append .P (by simpa [State.codeBits, Config.Params.cap] using hfits)⟩

theorem wsumCalc_keepsStreams : KeepsStreams (execWsumCalc s) := by
  obtain ⟨-, hanswer⟩ | ⟨-, hanswer⟩ := execWsumCalc_cases s <;> rw [hanswer]
  · exact h.keeps_fail _ _ _
  · exact ⟨_, rfl, h.congr (by simp) (by simp) (by simp)⟩

/-- Every command answers a next state and keeps the streams' invariant. -/
theorem exec_keepsStreams (hlegal : s.config.Legal) (htable : TableOk s) (i : Instr) : KeepsStreams (exec i s) := by
  cases i with
  | nop => exact ⟨s, rfl, h⟩
  | sreset => exact ⟨s.softReset, rfl, softReset_streamsOk h⟩
  | clrErr => exact ⟨s.clearError, rfl, h.congr rfl rfl rfl⟩
  | pClr => exact clrCmd_keepsStreams h .P
  | mClr => exact clrCmd_keepsStreams h .M
  | pRewind => exact rewindCmd_keepsStreams h .P
  | mRewind => exact rewindCmd_keepsStreams h .M
  | pSetlen b p => exact setlenCmd_keepsStreams h .P b p
  | mSetlen b p => exact setlenCmd_keepsStreams h .M b p
  | pPut n v => exact putCmd_keepsStreams h .P n v
  | mPut n v => exact putCmd_keepsStreams h .M n v
  | pGet n => exact getCmd_keepsStreams h .P n
  | mGet n => exact getCmd_keepsStreams h .M n
  | pWr a d => exact wrCmd_keepsStreams h .P a d
  | mWr a d => exact wrCmd_keepsStreams h .M a d
  | pRd a => exact rdCmd_keepsStreams h .P a
  | mRd a => exact rdCmd_keepsStreams h .M a
  | profClr => exact ⟨_, rfl, h.congr (State.setProfile_config ..) (State.setProfile_p ..) (State.setProfile_m ..)⟩
  | profAdd a k => exact profAdd_keepsStreams h a k
  | freqRd a => exact h.keeps_setResult _
  | flBuild => exact flBuild_keepsStreams h
  | flDec => exact flDec_keepsStreams h
  | flMwrite => exact flMwrite_keepsStreams h hlegal htable
  | flMread => exact flMread_keepsStreams h
  | hufBuild => exact hufBuild_keepsStreams h
  | hufDec => exact hufDec_keepsStreams h htable
  | hufMwrite => exact hufMwrite_keepsStreams h hlegal htable
  | hufMread => exact hufMread_keepsStreams h
  | nodeRd j => exact nodeRd_keepsStreams h j
  | nodeWt j => exact nodeWt_keepsStreams h j
  | enc a => exact enc_keepsStreams h a
  | codeLen a => exact h.keeps_setResult _
  | codeRd a c => exact h.keeps_setResult _
  | wsumCalc => exact wsumCalc_keepsStreams h

end Streams

end Sys2Proof.Machine
end

section
/-!
PROOF. The invariants of the machine (10_state.md R37, 60_exceptions.md R231, R235): the reset state meets them, every step keeps them,
and from a state that meets them a step answers a next state or refuses an undefined access.
-/
namespace Sys2Proof.Machine

/-! ## The code table -/

section Table

variable {s t : State}

theorem NoneOk.congr (h : NoneOk s) (htable : Unchanged .table s t) : NoneOk t := by
  obtain ⟨-, halpha, hwidth, hroot, hnnodes, hmaxlen, hclen, hcval, hrvalid, hrsym, harena⟩ := htable
  exact ⟨by rw [hclen]; exact h.clen, by rw [hcval]; exact h.cval, by rw [hrvalid]; exact h.rvalid,
    by rw [hrsym]; exact h.rsym, halpha.trans h.alpha, hwidth.trans h.width, hroot.trans h.root, hnnodes.trans h.nnodes,
    hmaxlen.trans h.maxlen, harena.trans h.arena⟩

theorem FixedOk.congr (h : FixedOk s) (htable : Unchanged .table s t) : FixedOk t := by
  obtain ⟨-, halpha, hwidth, hroot, hnnodes, hmaxlen, hclen, hcval, hrvalid, hrsym, harena⟩ := htable
  have hcoded : t.coded = s.coded := by rw [State.coded, State.coded, hclen]
  exact ⟨by rw [halpha]; exact h.alpha_pos, by rw [halpha]; exact h.alpha_le, by rw [hwidth, halpha]; exact h.width_eq,
    by rw [hmaxlen, hwidth]; exact h.maxlen_eq, hroot.trans h.root, hnnodes.trans h.nnodes, harena.trans h.arena,
    by rw [hcoded, halpha]; exact h.count, by rw [hcoded, hclen, hwidth]; exact h.clen,
    by rw [hcoded, hcval]; exact h.cval_none, by rw [hcoded, hcval, hwidth]; exact h.cval_lt,
    by rw [hcoded, hcval]; exact h.injective, by rw [hcoded, hcval, hrvalid, hrsym]; exact h.reverse,
    by rw [hrvalid, hrsym]; exact h.reverse_none⟩

theorem TableOk.congr (h : TableOk s) (htable : Unchanged .table s t) : TableOk t := by
  obtain ⟨hmode, -⟩ := id htable
  cases hs : s.mode with
  | none => exact (tableOk_none (hmode.trans hs)).mpr (((tableOk_none hs).mp h).congr htable)
  | fixed => exact (tableOk_fixed (hmode.trans hs)).mpr (((tableOk_fixed hs).mp h).congr htable)
  | huff => exact (tableOk_huff (hmode.trans hs)).mpr (((tableOk_huff hs).mp h).congr htable)

/-- The table at its reset values (R37 (c)). -/
theorem resetOf_noneOk (c : Config.Params) : NoneOk (State.resetOf c) :=
  ⟨fun a => Table.at_replicate _ a, fun a => Table.at_replicate _ a, fun a => Table.at_replicate _ a,
    fun a => Table.at_replicate _ a, rfl, rfl, rfl, rfl, rfl, rfl⟩

theorem resetOf_tableOk (c : Config.Params) : TableOk (State.resetOf c) := (tableOk_none rfl).mpr (resetOf_noneOk c)

theorem flBuild_tableOk (h : TableOk s) (hexec : execFlBuild s = .next t) : TableOk t := by
  obtain ⟨-, hanswer⟩ | ⟨hne, hanswer⟩ := execFlBuild_cases s <;> rw [hexec] at hanswer <;>
    obtain rfl := Host.Outcome.next.inj hanswer
  · exact h.congr (raise_onlyChanges s _ _ _ .table (by simp))
  · exact (tableOk_fixed rfl).mpr ((rankCodes_fixedCodes hne).load_fixedOk s)

theorem flMread_tableOk (h : TableOk s) (hexec : execFlMread s = .next t) : TableOk t := by
  obtain ⟨-, hanswer⟩ | ⟨w, entries, hparse, hanswer⟩ := execFlMread_cases s <;> rw [hexec] at hanswer <;>
    obtain rfl := Host.Outcome.next.inj hanswer
  · exact h.congr (raise_onlyChanges s _ _ _ .table (by simp))
  · obtain ⟨-, -, -, -, hcodes, -⟩ := parseFixed_eq_some_iff.mp hparse
    exact (tableOk_fixed rfl).mpr ((hcodes.load_fixedOk s).congr (setRpos_onlyChanges _ .M _ .table (by simp)))

theorem hufBuild_tableOk (h : TableOk s) (hexec : exec .hufBuild s = .next t) : TableOk t := by
  by_cases hsome : ∃ a, Table.at s.freq a ≠ 0#32
  · obtain ⟨u, tree, hu, -, -, hmode, -, -, hok⟩ := execHufBuild_built s hsome
    obtain rfl : u = t := Host.Outcome.next.inj (hu.symm.trans hexec)
    exact (tableOk_huff hmode).mpr hok
  · simp only [not_exists, not_not] at hsome
    have hanswer : execHufBuild s = .next t := hexec
    rw [execHufBuild, if_pos (alphabet_eq_nil_iff.mpr hsome)] at hanswer
    exact Host.Outcome.next.inj hanswer ▸ h.congr (raise_onlyChanges s _ _ _ .table (by simp))

theorem hufMread_tableOk (h : TableOk s) (hexec : execHufMread s = .next t) : TableOk t := by
  by_cases hblob : ∃ tree, HoldsHuffBlob s tree
  · obtain ⟨tree, htree⟩ := hblob
    rw [execHufMread_blob htree] at hexec
    exact Host.Outcome.next.inj hexec ▸ (tableOk_huff rfl).mpr (loadTree_huffTree s htree.distinct).2
  · rw [execHufMread, parseHuff_eq_none_iff.mpr hblob] at hexec
    exact Host.Outcome.next.inj hexec ▸ h.congr (raise_onlyChanges s _ _ _ .table (by simp))

/-- Every command keeps the table's invariant: five load a table, the others leave it. -/
theorem exec_tableOk {i : Instr} (h : TableOk s) (hexec : exec i s = .next t) : TableOk t := by
  cases i with
  | sreset => exact Host.Outcome.next.inj hexec ▸ (resetOf_tableOk s.config).congr ⟨rfl, rfl, rfl, rfl, rfl, rfl, rfl, rfl, rfl, rfl, rfl⟩
  | flBuild => exact flBuild_tableOk h hexec
  | flMread => exact flMread_tableOk h hexec
  | hufBuild => exact hufBuild_tableOk h hexec
  | hufMread => exact hufMread_tableOk h hexec
  | _ => exact h.congr (unchanged_of_exec hexec (by simp [partsWritten]) (by simp) (by simp))

/-! ## The registers -/

theorem ErrorOk.congr (h : ErrorOk s) (herror : Unchanged .error s t) : ErrorOk t := by
  obtain ⟨hcode, hcmd, hpos⟩ := herror
  exact ⟨by rw [hcode]; exact h.code_listed, by rw [hcode, hcmd, hpos]; exact h.clear⟩

theorem raise_errorOk (s : State) (w : Word) (e : ErrCode) (pos : Nat) : ErrorOk (s.raise w e pos) :=
  ⟨.inr ⟨e, rfl⟩, fun h => absurd h e.code_ne_zero⟩

/-- The error registers at 0. -/
theorem errorOk_of_zero (hcode : t.errcode = 0#8) (hcmd : t.errcmd = 0#32) (hpos : t.errpos = 0#20) : ErrorOk t :=
  ⟨.inl hcode, fun _ => ⟨hcmd, hpos⟩⟩

theorem exec_errorOk {i : Instr} (h : ErrorOk s) (hexec : exec i s = .next t) : ErrorOk t := by
  obtain ⟨e, pos, -, rfl⟩ | hcomplete := exec_next_cases hexec
  · exact raise_errorOk s _ e pos
  · by_cases hi : i = .sreset ∨ i = .clrErr
    · rcases hi with rfl | rfl <;> cases hexec <;> exact errorOk_of_zero rfl rfl rfl
    · obtain ⟨hsreset, hclrErr⟩ := not_or.mp hi
      exact h.congr (hcomplete.unchanged (error_notMem_partsWritten hsreset hclrErr))

theorem WsumOk.congr (h : WsumOk s) (hwsum : t.wsum = s.wsum) : WsumOk t := by
  rw [WsumOk, hwsum]
  exact h

theorem wsumOk_of_zero (h : s.wsum = 0#64) : WsumOk s := by
  rw [WsumOk, h]
  exact Nat.zero_le _

theorem wsumCalc_wsumOk (h : WsumOk s) (htotal : TotalOk s) (hexec : execWsumCalc s = .next t) : WsumOk t := by
  obtain ⟨-, hanswer⟩ | ⟨-, hanswer⟩ := execWsumCalc_cases s <;> rw [hexec] at hanswer <;>
    obtain rfl := Host.Outcome.next.inj hanswer
  · exact h
  · rw [WsumOk, State.setResult_wsum, State.setWsum_wsum, BitVec.toNat_ofNat]
    exact (Nat.mod_le _ _).trans htotal.weightedSum_le

theorem exec_wsumOk {i : Instr} (h : WsumOk s) (htotal : TotalOk s) (hexec : exec i s = .next t) : WsumOk t := by
  cases i with
  | sreset => exact Host.Outcome.next.inj hexec ▸ wsumOk_of_zero rfl
  | wsumCalc => exact wsumCalc_wsumOk h htotal hexec
  | _ => exact h.congr (unchanged_of_exec hexec (q := .wsum) (by simp [partsWritten]) (by simp) (by simp))

theorem config_of_exec {i : Instr} (hexec : exec i s = .next t) : t.config = s.config :=
  unchanged_of_exec (q := .config) hexec (by cases i <;> simp [partsWritten]) (by simp) (by simp)

end Table

/-! ## The invariant but for the lock -/

/-- The invariants of an instance with these parameters, but for the lock. -/
structure Sound (c : Config.Params) (s : State) : Prop where
  config : s.config = c
  total : TotalOk s
  wsum : WsumOk s
  streams : StreamsOk s
  error : ErrorOk s
  table : TableOk s

theorem inv_iff {s : State} : Inv s ↔ s.config.Legal ∧ Sound s.config s ∧ LockOk s := by
  constructor
  · intro h
    exact ⟨h.legal, ⟨rfl, h.total, h.wsum, fun S => by cases S; exacts [h.payload, h.metadata], h.error, h.table⟩, h.lock⟩
  · rintro ⟨hlegal, h, hlock⟩
    exact ⟨hlegal, h.total, h.wsum, h.streams .P, h.streams .M, h.error, hlock, h.table⟩

theorem resetOf_sound (c : Config.Params) : Sound c (State.resetOf c) where
  config := rfl
  total := resetOf_totalOk c
  wsum := wsumOk_of_zero rfl
  streams := fun S => by
    cases S <;> exact ⟨le_rfl, Nat.zero_le _, rfl, fun e he => absurd he List.not_mem_nil⟩
  error := errorOk_of_zero rfl rfl rfl
  table := resetOf_tableOk c

section Sound

variable {c : Config.Params} {s t : State}

/-- A state that differs in the latch, OVR, RESULT, the error registers and the model's own fields alone. -/
theorem Sound.congr (h : Sound c s) (hconfig : t.config = s.config) (hprofile : Unchanged .profile s t)
    (hwsum : t.wsum = s.wsum) (hp : t.p = s.p) (hm : t.m = s.m) (herror : ErrorOk t)
    (htable : Unchanged .table s t) : Sound c t :=
  ⟨hconfig.trans h.config, h.total.congr hprofile, h.wsum.congr hwsum, h.streams.congr hconfig hp hm, herror,
    h.table.congr htable⟩

theorem Sound.raise (h : Sound c s) (w : Word) (e : ErrCode) (pos : Nat) : Sound c (s.raise w e pos) :=
  have hframe := raise_onlyChanges s w e pos
  h.congr rfl (hframe .profile (by simp)) rfl rfl rfl (raise_errorOk s w e pos) (hframe .table (by simp))

theorem Sound.withPort (h : Sound c s) (latched : Option Word) (ovr : Bool) (host : List HostEvent) (reads : List Word)
    (draws : Nat) : Sound c (s.withPort latched ovr host reads draws) :=
  h.congr rfl ⟨rfl, rfl⟩ rfl rfl rfl (h.error.congr ⟨rfl, rfl, rfl⟩) ⟨rfl, rfl, rfl, rfl, rfl, rfl, rfl, rfl, rfl, rfl, rfl⟩

theorem powerOnReset_sound (h : Sound c s) (hreset : powerOnReset s = .next t) : Sound c t := by
  cases hreset
  exact h.config ▸ (resetOf_sound s.config).congr rfl ⟨rfl, rfl⟩ rfl rfl rfl (errorOk_of_zero rfl rfl rfl)
    ⟨rfl, rfl, rfl, rfl, rfl, rfl, rfl, rfl, rfl, rfl, rfl⟩

/-- Every command answers a next state, and keeps the invariants. -/
theorem exec_sound (hc : c.Legal) (h : Sound c s) (i : Instr) : ∃ t, exec i s = .next t ∧ Sound c t := by
  obtain ⟨t, hexec, hstreams⟩ := exec_keepsStreams h.streams (h.config.symm ▸ hc) h.table i
  exact ⟨t, hexec, (config_of_exec hexec).trans h.config, exec_totalOk h.total hexec, exec_wsumOk h.wsum h.total hexec,
    hstreams, exec_errorOk h.error hexec, exec_tableOk h.table hexec⟩

theorem step_sound (hc : c.Legal) (h : Sound c s) (hstep : step s = .next t) : Sound c t :=
  step_preserves (I := Sound c) (fun _ latched ovr host reads draws h => h.withPort latched ovr host reads draws)
    (fun i s t h hexec => by
      obtain ⟨u, hu, hsound⟩ := exec_sound hc h i
      exact Host.Outcome.next.inj (hu.symm.trans hexec) ▸ hsound)
    (fun w _ h => h.raise w _ _) (fun _ _ h hreset => powerOnReset_sound h hreset) h hstep

end Sound

/-! ## The invariants -/

theorem resetOf_inv {c : Config.Params} (hc : c.Legal) : Inv (State.resetOf c) :=
  inv_iff.mpr ⟨hc, resetOf_sound c, lockOk_of_latched_none rfl⟩

/-- Settles O58. -/
theorem resetMeetsEveryInvariant : Obligations.ResetMeetsEveryInvariant := by
  unfold Obligations.ResetMeetsEveryInvariant
  exact ⟨fun c hc => resetOf_inv hc, resetOf_inv ⟨by decide, by decide, by decide, by decide⟩⟩

/-- Settles O59: the invariants but for the lock are kept by every command, the lock by every step. -/
theorem stepKeepsEveryInvariant : Obligations.StepKeepsEveryInvariant := by
  unfold Obligations.StepKeepsEveryInvariant
  intro s t h hstep
  obtain ⟨hlegal, hsound, hlock⟩ := inv_iff.mp h
  have ht := step_sound hlegal hsound hstep
  refine ⟨inv_iff.mpr ?_, ht.config⟩
  rw [ht.config]
  exact ⟨hlegal, ht, step_lockOk hlock hstep⟩

/-! ## The next step -/

/-- A host event answers a next state, but for an undefined access (20_memory.md R71). -/
theorem hostEvent_next_or_refused (e : HostEvent) (s : State) : (∃ t, hostEvent e s = .next t) ∨
    (hostEvent e s = .refused .undefinedHostAccess ∧ ∃ bits offset, (bits ≠ 32 ∨ offset.toNat % 4 ≠ 0) ∧
      (e = .read bits offset ∨ ∃ x, e = .write bits offset x)) := by
  have haccess {bits : Nat} {offset : BitVec 8} (h : accessDefined bits offset = false) :
      bits ≠ 32 ∨ offset.toNat % 4 ≠ 0 := by
    rwa [accessDefined, decide_eq_false_iff_not, not_and_or] at h
  cases e with
  | write bits offset x =>
    by_cases h : accessDefined bits offset = false
    · exact .inr ⟨if_pos h, bits, offset, haccess h, .inr ⟨x, rfl⟩⟩
    · by_cases hcmd : offset = 0x00#8
      · exact .inl ⟨s.writeCmd x, (if_neg h).trans (if_pos hcmd)⟩
      · exact .inl ⟨s, (if_neg h).trans (if_neg hcmd)⟩
  | read bits offset =>
    by_cases h : accessDefined bits offset = false
    · exact .inr ⟨if_pos h, bits, offset, haccess h, .inl rfl⟩
    · exact .inl ⟨_, if_neg h⟩
  | awaitIdle => exact .inl ⟨s, rfl⟩
  | powerOn => exact .inl ⟨_, rfl⟩

/-- The run of any word completes, and leaves BUSY = 0. -/
theorem runCommand_completes {c : Config.Params} {s : State} (hc : c.Legal) (h : Sound c s) (w : Word) :
    ∃ t, runCommand w s = .next t ∧ t.busy = false := by
  have hnext : ∃ t, runCommand w s = .next t := by
    cases hdec : decode w with
    | ok i =>
      obtain ⟨u, hexec, -⟩ := exec_sound hc h i
      exact ⟨_, by rw [runCommand_ok s hdec, hexec, complete_next]⟩
    | error r => exact ⟨_, runCommand_error s hdec⟩
  obtain ⟨t, ht⟩ := hnext
  exact ⟨t, ht, busy_eq_false_iff.mpr (latched_of_runCommand ht)⟩

/-- Settles O60. -/
theorem safeStatesHaveANextStep : Obligations.SafeStatesHaveANextStep := by
  unfold Obligations.SafeStatesHaveANextStep
  intro s hinv
  obtain ⟨hc, h, -⟩ := inv_iff.mp hinv
  refine ⟨?_, runCommand_completes hc h⟩
  have hrun {w : Word} {u : State} (hu : Sound s.config u) : ∃ t, runCommand w u = .next t :=
    (runCommand_completes hc hu w).imp fun _ ht => ht.1
  have hhost (rest : List HostEvent) : Sound s.config (s.setHost rest) := h.withPort s.latched s.ovr rest s.reads s.draws
  obtain ⟨-, -, heq⟩ | ⟨w, -, -, heq⟩ | ⟨w, rest, -, -, heq⟩ | ⟨rest, -, -, heq⟩ | ⟨e, rest, hevent, -, heq⟩ := step_cases s <;>
    rw [heq]
  · exact .inl ⟨s, rfl⟩
  · exact .inl (hrun h)
  · exact .inl (hrun (hhost rest))
  · exact .inl ⟨_, rfl⟩
  · refine (hostEvent_next_or_refused e (s.setHost rest)).imp_right ?_
    rintro ⟨hrefused, bits, offset, hundefined, rfl | ⟨x, rfl⟩⟩
    · exact ⟨hrefused, bits, offset, rest, hundefined, .inl hevent⟩
    · exact ⟨hrefused, bits, offset, rest, hundefined, .inr ⟨x, hevent⟩⟩

end Sys2Proof.Machine
end
